-- ==== Sys2Proof/Config.lean ====
section
/-! DEFINITION. What this hardware fixes: the ranges and constants of rule R10 (spec/00_scope.md) that KEPSZ gives.
The numbers that only a decision of the spec gives (tags, opcodes, the direction bit) stand with the decoder and the
operand builders. The two parameters that R10 marks OPEN are constants without a body, so that nothing can be proved of
their values (log 7). The transport's answers and the delay's completions are inputs held in State (logs 2 and 3). -/

namespace Sys2Proof.Config

/-- `HANDLE_W`, the width of the opaque transport handle: OPEN, an argument of the model (R10, U12, decision D13). -/
opaque handleWidth : Nat

/-- `ERRCODE_W`, the width of a transport error code: OPEN, an argument of the model (R10, U12, decision D13). -/
opaque errCodeWidth : Nat

/-- `FREQ_MAX`, the largest legal frequency operand, 2^31 − 1 (R10, R101, R194). -/
def freqMax : Nat := 2147483647

/-- `TW_SHIFT`, the power of two in the conversion (R10, R100). -/
def twShift : Nat := 24

/-- `NINCR_MIN` (R10, R146). -/
def nincrMin : Nat := 2

/-- `NINCR_MAX` (R10, R146). -/
def nincrMax : Nat := 4095

/-- `TINT_MIN` (R10, R147). -/
def tintMin : Nat := 2

/-- `TINT_MAX` (R10, R147). -/
def tintMax : Nat := 2047

/-- `TRIG_HOLD_US`, the microseconds asked of the delay collaborator (R10, R176, decision D21). -/
def trigHoldUs : Nat := 100

end Sys2Proof.Config
end

