-- ==== Sys2Proof/Word.lean ====
section
/-! DEFINITION. The widths of the block's values (rules R10, R11 of spec/00_scope.md): all unsigned, bit 0 the least
significant. -/

namespace Sys2Proof

/-- One command word, the block's only unit of transfer (R58, R70). -/
abbrev Word := BitVec 16

/-- The low 12 bits of a command word (R50, R70). -/
abbrev Payload := BitVec 12

/-- A register tag, bits 15:12 of a command word (R50, R70). -/
abbrev Tag := BitVec 4

/-- A frequency operand or the reference clock, in Hz (R10). -/
abbrev Hertz := BitVec 32

/-- A tuning word (R10, R100). -/
abbrev Tuning := BitVec 24

/-- The increment count and the increment interval as the caller gives them (R10, `COUNT_W`). -/
abbrev Count := BitVec 16

/-- A command opcode (R84). -/
abbrev Opcode := BitVec 3

/-- The opaque transport handle, `HANDLE_W` bits (R10, R22); no operation looks into it (log 7). -/
abbrev Handle := BitVec Config.handleWidth

/-- The transport's error code, `ERRCODE_W` bits (R10, R36), passed on verbatim (log 7). -/
abbrev ErrCode := BitVec Config.errCodeWidth

end Sys2Proof
end

