-- ==== Sys2Proof/Syntax.lean ====
section
/-! DEFINITION. The instructions of the block: one constructor per row of spec/opcode_table.json. Eight are the command
words the sequencer writes (R72, R90), six are the commands the caller presents (R85). The reserved opcodes 6 and 7
(R86) are no row of the table and so no constructor: decoding names them and the step gives them their effect. -/

namespace Sys2Proof

/-- The waveform operand (R30, R121). -/
inductive Waveform where
  | triangle
  | sine
  deriving DecidableEq, Repr

/-- The trigger source operand (R30, R121). -/
inductive TriggerSource where
  | automatic
  | external
  deriving DecidableEq, Repr

/-- The SYNCSEL policy operand (R30, R121). -/
inductive SyncPolicy where
  | endOfScan
  | perIncrement
  deriving DecidableEq, Repr

/-- The base of the increment interval (R30, R149). -/
inductive IntervalBase where
  | waveCyclesBased
  | clockCyclesBased
  deriving DecidableEq, Repr

/-- The sweep direction (R30, R145). -/
inductive Direction where
  | incremental
  | decremental
  deriving DecidableEq, Repr

/-- The six switches of the control word (R126). `dac`, `msb` and `syncout` are enables: true is on. -/
structure ControlFlags where
  dac : Bool
  wave : Waveform
  msb : Bool
  trig : TriggerSource
  syncsel : SyncPolicy
  syncout : Bool
  deriving DecidableEq, Repr

/-- KEPSZ's SweepConfiguration, the six fields of `config` in R85. -/
structure SweepConfig where
  freq : Hertz
  delta : Hertz
  ninc : Count
  tint : Count
  base : IntervalBase
  dir : Direction
  deriving DecidableEq, Repr

/-- The eight kinds of command word, one per tag (R72). -/
inductive WordKind where
  | ctrl
  | nincr
  | dfLo
  | dfHi
  | tintWave
  | tintClk
  | fsLo
  | fsHi
  deriving DecidableEq, Repr

/-- The instructions. A word constructor carries the fields its word has in the table; the two counts carry the 16-bit
operand of their builders (R146 to R148), which well-formedness bounds by the field. -/
inductive Instr where
  /-- W_CTRL: the control word (R141). -/
  | wCtrl (flags : ControlFlags)
  /-- W_NINCR: the increment count word (R146). -/
  | wNincr (n : Count)
  /-- W_DF_LO: the low half of the delta tuning word (R144). -/
  | wDfLo (p : Payload)
  /-- W_DF_HI: the high half of the delta tuning word; bit 11 is tuning-word bit 23 or the direction (R145, R77). -/
  | wDfHi (p : Payload)
  /-- W_TINT_WAVE: the interval word in output-wave cycles (R147). -/
  | wTintWave (t : Count)
  /-- W_TINT_CLK: the interval word in clock cycles (R148). -/
  | wTintClk (t : Count)
  /-- W_FS_LO: the low half of the start tuning word (R142). -/
  | wFsLo (p : Payload)
  /-- W_FS_HI: the high half of the start tuning word (R143). -/
  | wFsHi (p : Payload)
  /-- INIT: `init(referenceClockHz)` (R190). -/
  | init (refclk : Hertz)
  /-- BIND: `bindTransport(handle)` (R192). -/
  | bind (handle : Handle)
  /-- SINGLE: `singleFrequency(frequencyHz, waveform, msbOut, triggerSource)` (R196). -/
  | single (freq : Hertz) (wave : Waveform) (msb : Bool) (trig : TriggerSource)
  /-- SWEEP: `sweep(config, waveform, msbOut, triggerSource, syncselPolicy, syncoutEnable)` (R200). -/
  | sweep (config : SweepConfig) (wave : Waveform) (msb : Bool) (trig : TriggerSource) (syncsel : SyncPolicy) (syncout : Bool)
  /-- SELFTEST: `selfTest()` (R204). -/
  | selftest
  /-- TRIGNOW: `triggerNow()` (R206). -/
  | trignow
  deriving DecidableEq, Repr

end Sys2Proof
end

