-- ==== Sys2Proof/WellFormed.lean ====
section
/-! DEFINITION. Which instructions have an encoding: the three count operands must fit their fields (R78, R79). Every
other operand fits by its type. The lower bound 2 of the counts is no matter of encoding: it is a range test of the
builders, which answer it with ParamError (R146 to R148). -/

namespace Sys2Proof

/-- The operands fit the fields of the instruction's encoding (R78: 12 bits, R79: 11 bits with bit 11 zero). -/
def Instr.fits : Instr → Bool
  | .wCtrl _ => true
  | .wNincr n => n.toNat ≤ Config.nincrMax
  | .wDfLo _ => true
  | .wDfHi _ => true
  | .wTintWave t => t.toNat ≤ Config.tintMax
  | .wTintClk t => t.toNat ≤ Config.tintMax
  | .wFsLo _ => true
  | .wFsHi _ => true
  | .init _ => true
  | .bind _ => true
  | .single _ _ _ _ => true
  | .sweep _ _ _ _ _ _ => true
  | .selftest => true
  | .trignow => true

/-- An instruction is well formed when it can be encoded. -/
abbrev WellFormed (i : Instr) : Prop := i.fits = true

end Sys2Proof
end

