-- ==== Sys2Proof/Decode.lean ====
section
/-! DEFINITION. Encodings: the one-bit codes of the operands (R30, R121), the eight word formats with their tags (R70 to
R83, R90), the command record (R84 to R86), decoding of both, total and refusing by name, and the encoder, written from
the bit layouts and not from the decoder. The numeric tags and opcodes are the spec's decisions D2 and D12 (log 12). -/

namespace Sys2Proof

/-! ## One-bit codes of the operands -/

/-- 1 is `Sine`, 0 is `Triangle` (R30, R121). -/
def Waveform.code : Waveform → BitVec 1
  | .triangle => 0
  | .sine => 1

/-- The waveform of a code (R30). -/
def Waveform.ofCode (b : BitVec 1) : Waveform := if b = 1 then .sine else .triangle

/-- 0 is `Automatic`, 1 is `External` (R30, R121). -/
def TriggerSource.code : TriggerSource → BitVec 1
  | .automatic => 0
  | .external => 1

/-- The trigger source of a code (R30). -/
def TriggerSource.ofCode (b : BitVec 1) : TriggerSource := if b = 1 then .external else .automatic

/-- 0 is `EndOfScan`, 1 is `PerIncrement` (R30, R121). -/
def SyncPolicy.code : SyncPolicy → BitVec 1
  | .endOfScan => 0
  | .perIncrement => 1

/-- The SYNCSEL policy of a code (R30). -/
def SyncPolicy.ofCode (b : BitVec 1) : SyncPolicy := if b = 1 then .perIncrement else .endOfScan

/-- 0 is `WaveCyclesBased`, 1 is `ClockCyclesBased` (R30). -/
def IntervalBase.code : IntervalBase → BitVec 1
  | .waveCyclesBased => 0
  | .clockCyclesBased => 1

/-- The interval base of a code (R30). -/
def IntervalBase.ofCode (b : BitVec 1) : IntervalBase := if b = 1 then .clockCyclesBased else .waveCyclesBased

/-- 0 is `Incremental`, 1 is `Decremental` (R30). -/
def Direction.code : Direction → BitVec 1
  | .incremental => 0
  | .decremental => 1

/-- The direction of a code (R30). -/
def Direction.ofCode (b : BitVec 1) : Direction := if b = 1 then .decremental else .incremental

/-- An enable: 1 is enabled (R30). -/
def enableCode (b : Bool) : BitVec 1 := BitVec.ofBool b

/-- The enable of a code (R30). -/
def enableOfCode (b : BitVec 1) : Bool := b == 1

/-! ## Command words -/

/-- The tag of each kind of word (R72). -/
def WordKind.tag : WordKind → Tag
  | .ctrl => 0x0
  | .nincr => 0x1
  | .dfLo => 0x2
  | .dfHi => 0x3
  | .tintWave => 0x4
  | .tintClk => 0x6
  | .fsLo => 0xC
  | .fsHi => 0xD

/-- One row of the word table of R90: a word `w` is of this kind when `w & mask = pattern`. -/
structure WordRow where
  kind : WordKind
  pattern : Word
  mask : Word
  deriving DecidableEq, Repr

/-- The eight rows of format W16, with the `match` and `mask` of R90. -/
def wordRows : List WordRow :=
  [ ⟨.ctrl, 0x08D3, 0xF8D3⟩,
    ⟨.nincr, 0x1000, 0xF000⟩,
    ⟨.dfLo, 0x2000, 0xF000⟩,
    ⟨.dfHi, 0x3000, 0xF000⟩,
    ⟨.tintWave, 0x4000, 0xF800⟩,
    ⟨.tintClk, 0x6000, 0xF800⟩,
    ⟨.fsLo, 0xC000, 0xF000⟩,
    ⟨.fsHi, 0xD000, 0xF000⟩ ]

/-- The kind of a word, or none for a word the block never sends (R83, R90). -/
def classify (w : Word) : Option WordKind :=
  (wordRows.find? (fun r => w &&& r.mask == r.pattern)).map WordRow.kind

/-- The tag of a word, bits 15:12 (R70). -/
def tagOf (w : Word) : Tag := w.extractLsb' 12 4

/-- The payload of a word, bits 11:0 (R70). -/
def payloadOf (w : Word) : Payload := w.extractLsb' 0 12

/-- Why a bit pattern has no instruction. -/
inductive DecodeError where
  /-- An opcode 6 or 7 (R86). -/
  | reservedOpcode (op : Opcode)
  /-- A word whose tag is none of the eight (R81, U5). -/
  | unusedTag (tag : Tag)
  /-- A control word with one of the bits 0, 1, 4, 6, 7, 11 clear (R81, U4). -/
  | controlFixedBitClear
  /-- An interval word with bit 11 set (R81). -/
  | intervalBit11Set
  deriving DecidableEq, Repr

/-- The reason a word that matches no row of R90 is refused (R81). -/
def whyNoWord (w : Word) : DecodeError :=
  if tagOf w = WordKind.ctrl.tag then .controlFixedBitClear
  else if tagOf w = WordKind.tintWave.tag ∨ tagOf w = WordKind.tintClk.tag then .intervalBit11Set
  else .unusedTag (tagOf w)

/-- The fields of a word of a known kind (layouts R74 to R79). -/
def readFields (k : WordKind) (w : Word) : Instr :=
  match k with
  | .ctrl =>
    .wCtrl
      { dac := w.getLsbD 10
        wave := .ofCode (w.extractLsb' 9 1)
        msb := w.getLsbD 8
        trig := .ofCode (w.extractLsb' 5 1)
        syncsel := .ofCode (w.extractLsb' 3 1)
        syncout := w.getLsbD 2 }
  | .nincr => .wNincr ((w.extractLsb' 0 12).setWidth 16)
  | .dfLo => .wDfLo (payloadOf w)
  | .dfHi => .wDfHi (payloadOf w)
  | .tintWave => .wTintWave ((w.extractLsb' 0 11).setWidth 16)
  | .tintClk => .wTintClk ((w.extractLsb' 0 11).setWidth 16)
  | .fsLo => .wFsLo (payloadOf w)
  | .fsHi => .wFsHi (payloadOf w)

/-- Decoding a word (R83). -/
def decodeWord (w : Word) : Except DecodeError Instr :=
  match classify w with
  | some k => .ok (readFields k w)
  | none => .error (whyNoWord w)

/-! ## Commands -/

/-- The command port: an opcode and every operand field of R30, as separate fields (R84, decision D12). A command
carries only some of them (R85). -/
structure CmdFields where
  op : Opcode
  refclk : Hertz := 0
  handle : Handle := 0
  freq : Hertz := 0
  delta : Hertz := 0
  ninc : Count := 0
  tint : Count := 0
  base : BitVec 1 := 0
  dir : BitVec 1 := 0
  wave : BitVec 1 := 0
  msb : BitVec 1 := 0
  trig : BitVec 1 := 0
  syncsel : BitVec 1 := 0
  syncout : BitVec 1 := 0
  deriving DecidableEq, Repr

/-- The opcode numbers (R85). -/
def opInit : Opcode := 0
/-- See `opInit`. -/
def opBind : Opcode := 1
/-- See `opInit`. -/
def opSingle : Opcode := 2
/-- See `opInit`. -/
def opSweep : Opcode := 3
/-- See `opInit`. -/
def opSelftest : Opcode := 4
/-- See `opInit`. -/
def opTrignow : Opcode := 5

/-- Decoding a command (R85, R86): only the operands the opcode carries are looked at. -/
def decodeCommand (f : CmdFields) : Except DecodeError Instr :=
  if f.op = opInit then .ok (.init f.refclk)
  else if f.op = opBind then .ok (.bind f.handle)
  else if f.op = opSingle then
    .ok (.single f.freq (.ofCode f.wave) (enableOfCode f.msb) (.ofCode f.trig))
  else if f.op = opSweep then
    .ok (.sweep ⟨f.freq, f.delta, f.ninc, f.tint, .ofCode f.base, .ofCode f.dir⟩ (.ofCode f.wave)
      (enableOfCode f.msb) (.ofCode f.trig) (.ofCode f.syncsel) (enableOfCode f.syncout))
  else if f.op = opSelftest then .ok .selftest
  else if f.op = opTrignow then .ok .trignow
  else .error (.reservedOpcode f.op)

/-! ## Both formats -/

/-- A bit pattern of either format: a command word (W16) or a command record (CMD). -/
inductive Raw where
  | word (w : Word)
  | command (f : CmdFields)
  deriving DecidableEq, Repr

/-- The decoder, total on both formats. -/
def decode : Raw → Except DecodeError Instr
  | .word w => decodeWord w
  | .command f => decodeCommand f

/-- The encoder, from the bit layouts R70, R74 to R79 and the records of R85; operands a command does not carry are
zero. The bits are written in order, bit 15 first. -/
def encode : Instr → Raw
  | .wCtrl f =>
    .word (0x0#4 ++ 1#1 ++ enableCode f.dac ++ f.wave.code ++ enableCode f.msb ++ 0b11#2 ++ f.trig.code ++ 1#1
      ++ f.syncsel.code ++ enableCode f.syncout ++ 0b11#2)
  | .wNincr n => .word (0x1#4 ++ n.setWidth 12)
  | .wDfLo p => .word (0x2#4 ++ p)
  | .wDfHi p => .word (0x3#4 ++ p)
  | .wTintWave t => .word (0x4#4 ++ 0#1 ++ t.setWidth 11)
  | .wTintClk t => .word (0x6#4 ++ 0#1 ++ t.setWidth 11)
  | .wFsLo p => .word (0xC#4 ++ p)
  | .wFsHi p => .word (0xD#4 ++ p)
  | .init c => .command { op := opInit, refclk := c }
  | .bind h => .command { op := opBind, handle := h }
  | .single freq wave msb trig =>
    .command { op := opSingle, freq := freq, wave := wave.code, msb := enableCode msb, trig := trig.code }
  | .sweep cfg wave msb trig syncsel syncout =>
    .command
      { op := opSweep, freq := cfg.freq, delta := cfg.delta, ninc := cfg.ninc, tint := cfg.tint,
        base := cfg.base.code, dir := cfg.dir.code, wave := wave.code, msb := enableCode msb, trig := trig.code,
        syncsel := syncsel.code, syncout := enableCode syncout }
  | .selftest => .command { op := opSelftest }
  | .trignow => .command { op := opTrignow }

/-- The bit pattern of a row of the opcode table given as `nbits` bits: sixteen bits are a command word, eight (the three
opcode bits in a whole byte) are a command whose operand fields are zero. The opcode field has three bits, so a byte above
7 is no command. Log 15. -/
def rawOfTableWord (nbits w : Nat) : Option Raw :=
  if nbits = 16 then (if w < 65536 then some (.word (BitVec.ofNat 16 w)) else none)
  else if nbits ≤ 8 then (if w < 8 then some (.command { op := BitVec.ofNat 3 w }) else none)
  else none

/-- What the decoder reads from the bits of a row of the opcode table. -/
def decodeTableWord (nbits w : Nat) : Option Instr :=
  match rawOfTableWord nbits w with
  | some r => (decode r).toOption
  | none => none

end Sys2Proof
end

