-- ==== Sys2Proof/Machine/State.lean ====
section
/-! DEFINITION. Everything the spec gives the block (spec/10_state.md), the hidden conditions and the ghost state it
names (R40 to R42), and the input ports (R44), as plain data. -/

namespace Sys2Proof.Machine

/-- The lifecycle phase (R25). -/
inductive Phase where
  | uninitialized
  | idle
  | configured
  | armed
  | running
  deriving DecidableEq, Repr

/-- The result status (R36, R88). -/
inductive Status where
  | ok
  | paramError
  | transportBusy
  | transportError
  deriving DecidableEq, Repr

/-- The four output lines (R38). -/
inductive Pin where
  | fs
  | trig
  | int
  | stby
  deriving DecidableEq, Repr

/-- The transport's answer to one `Xfer` (R54, R55). -/
inductive Answer where
  | ok
  | busy
  | error (code : ErrCode)
  deriving DecidableEq, Repr

/-- What `Shift` returns once the poll found the link ready (R171): an answer that is not `Busy`. -/
inductive ShiftAnswer where
  | ok
  | error (code : ErrCode)
  deriving DecidableEq, Repr

/-- The externally visible events, in the words of R42. A transfer also shows the handle that R54 presents with the
word (log 9). -/
inductive Event where
  | xfer (handle : Handle) (w : Word) (answer : Answer)
  | pin (line : Pin) (level : Bool)
  | delay (us : Nat)
  | result (op : Opcode) (status : Status) (step : BitVec 3) (code : ErrCode)
  deriving DecidableEq, Repr

/-- What is known of a chip register that was written (R41, R60): its payload, or nothing after an `Error`. -/
inductive RegView where
  | known (p : Payload)
  | unknown
  deriving DecidableEq, Repr

/-- The ghost copy of the chip register space (R41, R50): what is known of each address (tag), strictly rising; an
address not listed was never written. The datum has 12 bits, so the cells are not bytes (log 8). -/
abbrev Memory := List (Nat × RegView)

/-- The canonical form: addresses strictly rising, each one of the sixteen tag values (R50). -/
def Memory.wf : Memory → Bool
  | [] => true
  | [c] => c.1 < 16
  | c :: d :: m => c.1 < d.1 && Memory.wf (d :: m)

/-- The operand latches (R30). `msb` and `syncout` are enables, true is 1. -/
structure Latches where
  op : Opcode
  refclk : Hertz
  handle : Handle
  freq : Hertz
  delta : Hertz
  ninc : Count
  tint : Count
  base : IntervalBase
  dir : Direction
  wave : Waveform
  msb : Bool
  trig : TriggerSource
  syncsel : SyncPolicy
  syncout : Bool
  deriving DecidableEq, Repr

/-- One statement of an operation that is still to be performed (the pseudocode of R174, R176, R190, R192, R196, R200,
R206): a pin write, a word of a register group, the trigger pulse, and what INIT and BIND write before they complete. -/
inductive Action where
  | pin (line : Pin) (level : Bool)
  | word (w : Word)
  | pulse
  | newContext
  | attach
  deriving DecidableEq, Repr

/-- Where a statement stands that takes more than one step (R40, R170, R176): nothing is begun; a word of a known kind was
handed to the transport and is not answered, its frame open; it is answered and its frame still open; the trigger line is
high and the delay pending; the delay is over and the line still high; an error was raised and the completion is to come. -/
inductive Pending where
  | none
  | shift (k : WordKind) (w : Word)
  | frameEnd (k : WordKind) (r : ShiftAnswer)
  | hold
  | pulseEnd
  | raise (status : Status) (step : BitVec 3) (code : ErrCode)
  deriving DecidableEq, Repr

/-- The state of the block. One-bit registers are Bool, true for 1 or the high level. -/
structure State where
  /-- `ctx.refclk` (R21). -/
  refclk : Hertz
  /-- `ctx.handle` (R22). -/
  handle : Handle
  /-- `ctx.bound` (R22). -/
  bound : Bool
  /-- `ctx.last` (R23). -/
  last : Word
  /-- `phase` (R25). -/
  phase : Phase
  /-- The operand latches `x[...]` (R30). -/
  x : Latches
  /-- `busy` (R33). -/
  busy : Bool
  /-- `cur_op` (R34). -/
  curOp : Opcode
  /-- `seq_idx`, the program counter `pc` (R34, R35). -/
  seqIdx : BitVec 3
  /-- `res_status` (R36). -/
  resStatus : Status
  /-- `res_step` (R36). -/
  resStep : BitVec 3
  /-- `res_code` (R36). -/
  resCode : ErrCode
  /-- `Pin.FS` (R38). -/
  pinFs : Bool
  /-- `Pin.TRIG` (R38). -/
  pinTrig : Bool
  /-- `Pin.INT` (R38). -/
  pinInt : Bool
  /-- `Pin.STBY` (R38). -/
  pinStby : Bool
  /-- The ghost `chip[t]` (R41). -/
  chip : Memory
  /-- The ghost history, oldest event first (R42). -/
  history : List Event
  /-- Hidden: the statements of the operation in progress that are still to be begun; after the last one the operation
  completes with Ok (log 10). -/
  plan : List Action
  /-- Hidden: the statement that is begun and not ended (R40, log 10). -/
  pending : Pending
  /-- Input port: hardware reset is asserted (R44, R261, log 5). -/
  rst : Bool
  /-- Input port: the commands the caller presents, in order, each taken when the one before has completed (R33, R44,
  log 4). -/
  commands : List CmdFields
  /-- Input port: the results of the readiness polls to come, true for ready (R171, log 2). -/
  polls : List Bool
  /-- Input port: the answers of the word shifts to come (R171, log 2). -/
  shifts : List ShiftAnswer
  /-- Input port: how many times the delay collaborator will complete a delay (R44, R250, log 3). -/
  delays : Nat
  /-- How many steps of R8, beyond the first, the block may perform before the outside world looks at it again: 0 is the
  grain of R8 itself (log 1). No rule reads it and no step changes it. -/
  pace : Nat
  deriving DecidableEq, Repr

/-- Why the machine stops with a fault. -/
inductive Fault where
  /-- Raised by the meaning of a command word executed while another statement is begun and not ended, such as a word
  whose frame is open: a transfer must not begin before the framing of the one before it completes (R173). No step raises
  it, since a step begins a word only when nothing is pending (log 11). Safe: the machine stops where the block never
  goes. -/
  | transferNotReentrant
  deriving DecidableEq, Repr

/-- Why an instruction or a bit pattern has no effect. -/
inductive Refusal where
  /-- Raised by the dispatcher alone, for an instruction without a meaning; no arm does so now. Safe. -/
  | notModelled (mnemonic : String)
  /-- Raised by the meaning of a command executed while `busy` = 1: it has no move (R33, decision D24, U13). No step
  raises it, since a step takes a command only when `busy` = 0. Safe. -/
  | commandWhileBusy
  /-- Raised by the step when the next word to write has none of the eight tags (R81, U5). Safe: the block never sends
  one. -/
  | unusedTag (tag : Tag)
  /-- Raised by the step when the next word to write is a control word with a fixed bit clear (R81, U4). Safe: the block
  never sends one. -/
  | controlFixedBitClear
  /-- Raised by the step when the next word to write is an interval word with bit 11 set (R81). Safe: the block never
  sends one. -/
  | intervalBit11Set
  deriving DecidableEq, Repr

/-- The operand latches after reset. The spec leaves them unspecified (R43): all zero, DESIGN CHOICE, log 6. -/
def Latches.reset : Latches :=
  { op := 0, refclk := 0, handle := 0, freq := 0, delta := 0, ninc := 0, tint := 0, base := .waveCyclesBased,
    dir := .incremental, wave := .triangle, msb := false, trig := .automatic, syncsel := .endOfScan, syncout := false }

/-- The block after hardware reset at power-on (R43). The handle, the latches and the four pins, unspecified there, are
0 (DESIGN CHOICE, log 6); no input is present, and the block goes by single steps of R8 (log 1). -/
def State.reset : State :=
  { refclk := 0, handle := 0, bound := false, last := 0, phase := .uninitialized, x := Latches.reset,
    busy := false, curOp := 0, seqIdx := 0, resStatus := .ok, resStep := 0, resCode := 0,
    pinFs := false, pinTrig := false, pinInt := false, pinStby := false, chip := [], history := [],
    plan := [], pending := .none, rst := false, commands := [], polls := [], shifts := [], delays := 0,
    pace := 0 }

end Sys2Proof.Machine
end

