-- ==== Sys2Proof/Machine/Flags.lean ====
section
/-! DEFINITION. The control-word encoder (spec/41_control_word_encoder.md): the packing of the six flags and the six
fixed bits. The block has no condition flags (R37). Also the numeric codes of the phase and the status (R25, R88). -/

namespace Sys2Proof.Machine

/-- `CTRL_FIXED_ONES`: bits 0, 1, 4, 6, 7 and 11 (R10, R123). -/
def ctrlFixedOnes : Word := 0x08D3

/-- One flag at its bit position. -/
def flagAt (code : BitVec 1) (bit : Nat) : Word := code.setWidth 16 <<< bit

/-- `Enc(flags)` (R120): cannot fail, bits 15:12 are 0. -/
def encodeFlags (f : ControlFlags) : Word :=
  ctrlFixedOnes
    ||| flagAt (enableCode f.syncout) 2
    ||| flagAt f.syncsel.code 3
    ||| flagAt f.trig.code 5
    ||| flagAt (enableCode f.msb) 8
    ||| flagAt f.wave.code 9
    ||| flagAt (enableCode f.dac) 10

/-- The 3-bit encoding of the phase (R25); 5, 6 and 7 never occur. -/
def Phase.code : Phase → BitVec 3
  | .uninitialized => 0
  | .idle => 1
  | .configured => 2
  | .armed => 3
  | .running => 4

/-- The 2-bit encoding of the result status (R88). -/
def Status.code : Status → BitVec 2
  | .ok => 0
  | .paramError => 1
  | .transportBusy => 2
  | .transportError => 3

end Sys2Proof.Machine
end

