-- ==== Sys2Proof/Machine/Operands.lean ====
section
/-! DEFINITION. The pure functions of the operands: the frequency converter (spec/40_frequency_converter.md), the eight
word builders and the pairs (spec/42_register_command_builder.md), the validation predicates (R194) and the words of each
operation (R196, R200). `none` is `raise ParamError`. -/

namespace Sys2Proof.Machine

/-- `DIR_BIT`, the place of the direction bit in the delta-high payload (R77, decision D3). -/
def dirBit : Nat := 11

/-- The exact quotient `floor(f * 2^24 / c)` (R100, R102, R103). -/
def quotient (f c : Hertz) : Nat := f.toNat * 2 ^ Config.twShift / c.toNat

/-- `Conv(f, c, z)` (R100): `z` says whether a zero frequency is legal. The result is the low 24 bits of the quotient
(R104). -/
def conv (f c : Hertz) (z : Bool) : Option Tuning :=
  if c.toNat = 0 then none
  else if f.toNat > Config.freqMax then none
  else if f.toNat = 0 ∧ z = false then none
  else some (BitVec.ofNat 24 (quotient f c))

/-- `(tag << 12) | payload` (R80). -/
def tagged (k : WordKind) (p : Payload) : Word := (k.tag.setWidth 16 <<< 12) ||| p.setWidth 16

/-- Bits 11:0 of a tuning word (R75). -/
def lowHalf (tw : Tuning) : Payload := tw.extractLsb' 0 12

/-- Bits 23:12 of a tuning word (R76). -/
def highHalf (tw : Tuning) : Payload := tw.extractLsb' 12 12

/-- `W_CTRL(flags)` (R141). -/
def buildCtrl (f : ControlFlags) : Word := tagged .ctrl (payloadOf (encodeFlags f))

/-- `W_FS_LO(TW)` (R142). -/
def buildFsLo (tw : Tuning) : Word := tagged .fsLo (lowHalf tw)

/-- `W_FS_HI(TW)` (R143). -/
def buildFsHi (tw : Tuning) : Word := tagged .fsHi (highHalf tw)

/-- `W_DF_LO(TWd)` (R144). -/
def buildDfLo (twd : Tuning) : Word := tagged .dfLo (lowHalf twd)

/-- The payload of layout DHI (R77): the high half with the direction bit or-ed in. -/
def deltaHighPayload (twd : Tuning) (dir : Direction) : Payload :=
  highHalf twd ||| (dir.code.setWidth 12 <<< dirBit)

/-- `W_DF_HI(TWd, dir)` (R145). -/
def buildDfHi (twd : Tuning) (dir : Direction) : Word := tagged .dfHi (deltaHighPayload twd dir)

/-- The range test of the increment count (R146). -/
def nincInRange (n : Count) : Bool := Config.nincrMin ≤ n.toNat && n.toNat ≤ Config.nincrMax

/-- The range test of the increment interval (R147, R148). -/
def tintInRange (t : Count) : Bool := Config.tintMin ≤ t.toNat && t.toNat ≤ Config.tintMax

/-- `W_NINCR(n)` (R146). -/
def buildNincr (n : Count) : Option Word :=
  if nincInRange n then some (tagged .nincr (n.setWidth 12)) else none

/-- The payload of layout TINT (R79): 11 bits, bit 11 is 0. -/
def intervalPayload (t : Count) : Payload := (t.setWidth 11).setWidth 12

/-- `W_TINT_WAVE(t)` (R147). -/
def buildTintWave (t : Count) : Option Word :=
  if tintInRange t then some (tagged .tintWave (intervalPayload t)) else none

/-- `W_TINT_CLK(t)` (R148). -/
def buildTintClk (t : Count) : Option Word :=
  if tintInRange t then some (tagged .tintClk (intervalPayload t)) else none

/-- `W_TINT(t, base)` (R149). -/
def buildTint (t : Count) (base : IntervalBase) : Option Word :=
  match base with
  | .waveCyclesBased => buildTintWave t
  | .clockCyclesBased => buildTintClk t

/-- `StartPair(f)` (R151), low word first. -/
def startPair (f c : Hertz) : Option (List Word) :=
  match conv f c false with
  | some tw => some [buildFsLo tw, buildFsHi tw]
  | none => none

/-- `DeltaPair(df, dir)` (R151), low word first. -/
def deltaPair (df c : Hertz) (dir : Direction) : Option (List Word) :=
  match conv df c true with
  | some twd => some [buildDfLo twd, buildDfHi twd dir]
  | none => none

/-- A start or single frequency in its range 1 to 2^31 − 1 (R194). -/
def freqInRange (f : Hertz) : Bool := 1 ≤ f.toNat && f.toNat ≤ Config.freqMax

/-- A delta frequency in its range 0 to 2^31 − 1 (R194). -/
def deltaInRange (f : Hertz) : Bool := f.toNat ≤ Config.freqMax

/-- `ValidSingle` (R194). -/
def validSingle (x : Latches) (c : Hertz) : Bool := c != 0 && freqInRange x.freq

/-- `ValidSweep` (R194). -/
def validSweep (x : Latches) (c : Hertz) : Bool :=
  c != 0 && freqInRange x.freq && deltaInRange x.delta && nincInRange x.ninc && tintInRange x.tint

/-- The control flags of SINGLE (R195). -/
def singleFlags (x : Latches) : ControlFlags :=
  { dac := true, wave := x.wave, msb := x.msb, trig := .external, syncsel := .endOfScan, syncout := false }

/-- The control flags of SWEEP (R199). -/
def sweepFlags (x : Latches) : ControlFlags :=
  { dac := true, wave := x.wave, msb := x.msb, trig := x.trig, syncsel := x.syncsel, syncout := x.syncout }

/-- The words of SINGLE, in write order (R196). -/
def singleWords (x : Latches) (c : Hertz) : Option (List Word) :=
  match startPair x.freq c with
  | some start => some (buildCtrl (singleFlags x) :: start)
  | none => none

/-- The words of SWEEP, in write order (R200): control, start pair, delta pair, interval, count. -/
def sweepWords (x : Latches) (c : Hertz) : Option (List Word) :=
  match startPair x.freq c, deltaPair x.delta c x.dir, buildTint x.tint x.base, buildNincr x.ninc with
  | some start, some delta, some tint, some ninc =>
    some (buildCtrl (sweepFlags x) :: (start ++ delta ++ [tint, ninc]))
  | _, _, _, _ => none

end Sys2Proof.Machine
end

