-- ==== Sys2Proof/Machine/Ops.lean ====
section
/-! DEFINITION. The shared operations: the ghost chip registers, events and pins, acceptance and completion (R33, R211),
raising an error (R230 to R234), the framed word write with what its answer does to the operation (R170, R174, R35,
R210), the trigger pulse (R176), one step of R8 of an operation in progress, and hardware reset (R260, R261).
The block has no exception entry and no return from one: an error is a result (R230, R242, R243). -/

namespace Sys2Proof.Machine

/-! ## The chip register space -/

/-- What is known of the chip register at an address; `none` is "never written" (R41). -/
def Memory.read (m : Memory) (a : Nat) : Option RegView :=
  match m with
  | [] => none
  | c :: rest => if c.1 = a then some c.2 else Memory.read rest a

/-- Write one register, keeping the addresses strictly rising. -/
def Memory.write (m : Memory) (a : Nat) (v : RegView) : Memory :=
  match m with
  | [] => [(a, v)]
  | c :: rest =>
    if a < c.1 then (a, v) :: c :: rest
    else if a = c.1 then (a, v) :: rest
    else c :: Memory.write rest a v

/-- The address of a kind of word: its tag (R50). -/
def addressOf (k : WordKind) : Nat := k.tag.toNat

/-! ## Events and pins -/

/-- Append one event to the history (R42). -/
def State.emit (s : State) (e : Event) : State := { s with history := s.history ++ [e] }

/-- Drive one line (R247): the line takes the level, the others do not move. -/
def State.setPin (s : State) (line : Pin) (level : Bool) : State :=
  match line with
  | .fs => { s.emit (.pin .fs level) with pinFs := level }
  | .trig => { s.emit (.pin .trig level) with pinTrig := level }
  | .int => { s.emit (.pin .int level) with pinInt := level }
  | .stby => { s.emit (.pin .stby level) with pinStby := level }

/-! ## Acceptance and completion -/

/-- What acceptance leaves pending: an operation without statements was refused, and its ParamError is to come. -/
def pendingOf : Option (List Action) → Pending
  | some _ => .none
  | none => .raise .paramError 0 0

/-- Acceptance of a command (R33): the operands it carries are latched, the operation begins with its statements, or with
none where it is refused. -/
def State.accept (s : State) (x : Latches) (program : Option (List Action)) : State :=
  { s with
    x := x, curOp := x.op, busy := true, seqIdx := 0, plan := program.getD [], pending := pendingOf program }

/-- Completion of the operation (R33, R36, R211). -/
def State.complete (s : State) (status : Status) (step : BitVec 3) (code : ErrCode) : State :=
  { s.emit (.result s.curOp status step code) with
    resStatus := status, resStep := step, resCode := code, busy := false, seqIdx := 0, plan := [], pending := .none }

/-- `complete Ok` (R12). -/
def State.completeOk (s : State) : State := s.complete .ok 0 0

/-- `raise ParamError` (R232). -/
def State.raiseParam (s : State) : State := s.complete .paramError 0 0

/-- `raise TransportBusy(step)` (R233). -/
def State.raiseBusy (s : State) (step : BitVec 3) : State := s.complete .transportBusy step 0

/-! ## The framed word write -/

/-- The fixed slot of a kind of word in the write order (R34). -/
def slotOf : WordKind → BitVec 3
  | .ctrl => 0
  | .fsLo => 1
  | .fsHi => 2
  | .dfLo => 3
  | .dfHi => 4
  | .tintWave => 5
  | .tintClk => 5
  | .nincr => 6

/-- The step code of the register group of a slot, `grp` (R34, R88). -/
def stepOfSlot (slot : BitVec 3) : BitVec 3 :=
  if slot = 0 then 1
  else if slot = 1 ∨ slot = 2 then 2
  else if slot = 3 ∨ slot = 4 then 3
  else if slot = 5 then 4
  else 5

/-- The step code reported when a word of this kind fails (R88). -/
def stepOf (k : WordKind) : BitVec 3 := stepOfSlot (slotOf k)

/-- Whether a word of this kind is the last one of the operation `op` (R210: slot 2 of SINGLE, slot 6 of SWEEP and
SELFTEST). -/
def isLastOf (k : WordKind) (op : Opcode) : Bool :=
  if op = opSingle then (slotOf k) == 2
  else if op = opSweep ∨ op = opSelftest then (slotOf k) == 6
  else false

/-- `seq_idx` after an `Ok` (R35): the next slot, but 7 after SINGLE's last word. -/
def nextSlot (k : WordKind) (op : Opcode) : BitVec 3 :=
  if isLastOf k op then 7 else (slotOf k) + 1

/-- The phase after a word of this kind is answered `Ok` (R210). -/
def phaseAfterOk (k : WordKind) (op : Opcode) (phase : Phase) : Phase :=
  if k = .ctrl then .configured else if isLastOf k op then .armed else phase

/-- The phase after a word of this kind is answered `Error` (R210). -/
def phaseAfterError (k : WordKind) (phase : Phase) : Phase := if k = .ctrl then .idle else phase

/-- What an answer of `Shift` says of the chip register (R41, R60). -/
def viewAfter (w : Word) : ShiftAnswer → RegView
  | .ok => .known (payloadOf w)
  | .error _ => .unknown

/-- The answer of the whole transfer (R171). -/
def ShiftAnswer.answer : ShiftAnswer → Answer
  | .ok => .ok
  | .error c => .error c

/-- `WriteWord(w)` (R170, R174) for a word of kind `k`, up to its first step. `ctx.last` is written first; without a
binding the operation ends with TransportBusy, with a busy link it is about to, and no pin moves. A ready link opens the
frame. Where the poll has no result yet the word stays to be written. -/
def State.beginWord (s : State) (k : WordKind) (w : Word) : State :=
  if s.bound = false then { s with last := w }.raiseBusy (stepOf k)
  else
    match s.polls with
    | [] => { s with last := w, plan := .word w :: s.plan }
    | false :: rest =>
      { { s with last := w, polls := rest }.emit (.xfer s.handle w .busy) with
        plan := [], pending := .raise .transportBusy (stepOf k) 0 }
    | true :: rest => { { s with last := w, polls := rest }.setPin .fs false with pending := .shift k w }

/-- The transport answers the word (R170): the event, and what is known of the chip register. After an `Error` no further
statement is performed (R175, R211). -/
def State.answered (s : State) (k : WordKind) (w : Word) (r : ShiftAnswer) : State :=
  { s.emit (.xfer s.handle w r.answer) with
    chip := s.chip.write (addressOf k) (viewAfter w r)
    plan := match r with | .ok => s.plan | .error _ => []
    pending := .frameEnd k r }

/-- The return of `Shift` (R170). While it has not returned, the frame stays open (R40). -/
def State.shiftReturns (s : State) (k : WordKind) (w : Word) : State :=
  match s.shifts with
  | [] => s
  | r :: rest => { s with shifts := rest }.answered k w r

/-- The end of the frame (R170) and what the answer does to the operation (R174, R35, R210): after `Ok` the sequencer
moves to the next slot, after `Error` TransportError is raised. -/
def State.frameEnds (s : State) (k : WordKind) (r : ShiftAnswer) : State :=
  match r with
  | .ok =>
    { s.setPin .fs true with
      pending := .none, seqIdx := nextSlot k s.curOp, phase := phaseAfterOk k s.curOp s.phase }
  | .error c =>
    { s.setPin .fs true with
      plan := [], pending := .raise .transportError (stepOf k) c, phase := phaseAfterError k s.phase }

/-- Whether the builder of a word of this kind makes the word: the counts have a range test (R146 to R148). -/
def built (k : WordKind) (w : Word) : Bool :=
  match k with
  | .nincr => nincInRange ((payloadOf w).setWidth 16)
  | .tintWave => tintInRange ((payloadOf w).setWidth 16)
  | .tintClk => tintInRange ((payloadOf w).setWidth 16)
  | .ctrl => true
  | .dfLo => true
  | .dfHi => true
  | .fsLo => true
  | .fsHi => true

/-! ## The trigger pulse -/

/-- The phase after the trigger pulse (R210): TRIGNOW reaches Running only from Armed or Running (R206). -/
def phaseAfterPulse (op : Opcode) (phase : Phase) : Phase :=
  if op = opTrignow then (if phase = .armed ∨ phase = .running then .running else phase) else .running

/-- The first step of `TriggerPulse()` (R176), at slot 7 (R35). -/
def State.pulseBegins (s : State) : State := { { s with seqIdx := 7 }.setPin .trig true with pending := .hold }

/-- The return of `DelayUs(100)` (R176). While the delay has not completed the line stays high (R40). -/
def State.holdReturns (s : State) : State :=
  match s.delays with
  | 0 => s
  | n + 1 => { { s with delays := n }.emit (.delay Config.trigHoldUs) with pending := .pulseEnd }

/-- The last step of `TriggerPulse()` (R176) and the phase after it (R210). -/
def State.pulseEnds (s : State) : State :=
  { s.setPin .trig false with pending := .none, phase := phaseAfterPulse s.curOp s.phase }

/-! ## One step of R8 of an operation in progress -/

/-- The first step of a statement. A word that no builder makes is left for the step to refuse; no operation has one
(R81). -/
def State.begin (s : State) (a : Action) : State :=
  match a with
  | .pin line level => s.setPin line level
  | .word w =>
    match classify w with
    | none => { s with plan := .word w :: s.plan }
    | some k => if built k w then s.beginWord k w else s.raiseParam
  | .pulse => s.pulseBegins
  | .newContext => { s with refclk := s.x.refclk, bound := false, last := 0, phase := .idle }.completeOk
  | .attach => { s with handle := s.x.handle, bound := true }.completeOk

/-- What a busy block does next: the statement that is begun goes on, or the next one begins, or the operation
completes. -/
def State.proceed (s : State) : State :=
  match s.pending with
  | .shift k w => s.shiftReturns k w
  | .frameEnd k r => s.frameEnds k r
  | .hold => s.holdReturns
  | .pulseEnd => s.pulseEnds
  | .raise status step code => s.complete status step code
  | .none =>
    match s.plan with
    | [] => s.completeOk
    | a :: rest => { s with plan := rest }.begin a

/-- One step of R8 (R8: one word write with its answer, one pin write, one completed delay, one completion). A block that
executes no operation does nothing by itself. -/
def State.tick (s : State) : State := if s.busy then s.proceed else s

/-- The next `n` steps of R8, as far as the operation goes. -/
def State.ticks : Nat → State → State
  | 0, s => s
  | n + 1, s => State.ticks n s.tick

/-- Whether a word is begun and not ended, or has failed: what follows belongs to the word's own write. -/
def Pending.isWrite : Pending → Bool
  | .shift _ _ => true
  | .frameEnd _ _ => true
  | .raise _ _ _ => true
  | .none => false
  | .hold => false
  | .pulseEnd => false

/-- The next `n` steps of R8, as far as the word's write goes. -/
def State.writeTicks : Nat → State → State
  | 0, s => s
  | n + 1, s => if s.pending.isWrite then State.writeTicks n s.tick else s

/-! ## Instructions -/

/-- A word instruction (R170, R173, R174): the framed write of its word in an operation, as far as the pace and the
transport let it go; a second transfer must not begin before the first one's framing completes. -/
def State.issueWord (s : State) (k : WordKind) (w : Word) : Host.Outcome State Fault Refusal :=
  if s.pending = .none then .next (({ s with busy := true }.beginWord k w).writeTicks s.pace)
  else .fault .transferNotReentrant

/-- A word instruction whose builder may raise ParamError (R146 to R148). -/
def State.issueBuilt (s : State) (k : WordKind) (w : Option Word) : Host.Outcome State Fault Refusal :=
  match w with
  | some w => s.issueWord k w
  | none => if s.pending = .none then .next s.raiseParam else .fault .transferNotReentrant

/-- A command (R33): accepted when the block is not busy (decision D24), and then performed as far as the pace and the
collaborators let it go. -/
def State.command (s : State) (x : Latches) (program : Option (List Action)) : Host.Outcome State Fault Refusal :=
  if s.busy then .refused .commandWhileBusy else .next ((s.accept x program).ticks s.pace)

/-! ## The statements of the operations -/

/-- INIT (R190): the pins to their idle levels in the listed order, then the new context. -/
def initProgram : List Action := [.pin .trig false, .pin .int false, .pin .fs true, .pin .stby false, .newContext]

/-- The trigger stage (R179): a pulse if the operand is Automatic. -/
def triggerProgram (trig : TriggerSource) : List Action :=
  match trig with
  | .automatic => [.pulse]
  | .external => []

/-- A register-writing operation (R193, R194, R196, R200): refused before INIT or with operands out of range, else the
words and then the trigger stage. -/
def operationProgram (phase : Phase) (valid : Bool) (words : Option (List Word)) (trig : TriggerSource) :
    Option (List Action) :=
  if phase = .uninitialized then none
  else if valid = false then none
  else
    match words with
    | none => none
    | some ws => some (ws.map .word ++ triggerProgram trig)

/-- The latches after the operands of SWEEP are loaded (R30). -/
def Latches.loadSweep (x : Latches) (cfg : SweepConfig) (wave : Waveform) (msb : Bool) (trig : TriggerSource)
    (syncsel : SyncPolicy) (syncout : Bool) : Latches :=
  { x with
    freq := cfg.freq, delta := cfg.delta, ninc := cfg.ninc, tint := cfg.tint, base := cfg.base, dir := cfg.dir,
    wave := wave, msb := msb, trig := trig, syncsel := syncsel, syncout := syncout }

/-- SINGLE, on its latched operands (R196). -/
def singleProgram (x : Latches) (s : State) : Option (List Action) :=
  operationProgram s.phase (validSingle x s.refclk) (singleWords x s.refclk) x.trig

/-- SWEEP, on its latched operands (R200). -/
def sweepProgram (x : Latches) (s : State) : Option (List Action) :=
  operationProgram s.phase (validSweep x s.refclk) (sweepWords x s.refclk) x.trig

/-- A reserved opcode (R86): accepted, then ParamError, with no other effect. -/
def State.runReserved (s : State) (op : Opcode) : State := (s.accept { s.x with op := op } none).ticks s.pace

/-! ## Hardware reset -/

/-- The ghost chip after hardware reset: nothing is known to be written (R43), but the register of a word that was being
shifted is unknown (R261, U2). -/
def State.chipAfterReset (s : State) : Memory :=
  match s.pending with
  | .shift k _ => [(addressOf k, .unknown)]
  | .none => []
  | .frameEnd _ _ => []
  | .hold => []
  | .pulseEnd => []
  | .raise _ _ _ => []

/-- Hardware reset (R260, R261): every piece of state as after reset, the operation ended without a result; what the other
input ports hold is the outside world's. -/
def State.hardwareReset (s : State) : State :=
  { State.reset with
    chip := s.chipAfterReset, commands := s.commands, polls := s.polls, shifts := s.shifts, delays := s.delays,
    pace := s.pace }

end Sys2Proof.Machine
end

