-- ==== Sys2Proof/Machine/Commands.lean ====
section
/-! DEFINITION. The meanings of the six commands (spec/44_sequencer_operations.md), each a whole operation: accepted with
its statements, which are performed as far as the pace and the collaborators let them go. -/

namespace Sys2Proof.Machine

/-- INIT (R190, R191): the pins to their idle levels, then a new Device Context, phase Idle. -/
def execInit (c : Hertz) (s : State) : Host.Outcome State Fault Refusal :=
  s.command { s.x with op := opInit, refclk := c } (some initProgram)

/-- BIND (R192): in every phase, changes no pin and no phase. -/
def execBind (h : Handle) (s : State) : Host.Outcome State Fault Refusal :=
  s.command { s.x with op := opBind, handle := h } (some [.attach])

/-- SINGLE (R193 to R197). -/
def execSingle (freq : Hertz) (wave : Waveform) (msb : Bool) (trig : TriggerSource) (s : State) :
    Host.Outcome State Fault Refusal :=
  let x := { s.x with op := opSingle, freq := freq, wave := wave, msb := msb, trig := trig }
  s.command x (singleProgram x s)

/-- SWEEP (R193, R194, R199 to R201). -/
def execSweep (cfg : SweepConfig) (wave : Waveform) (msb : Bool) (trig : TriggerSource) (syncsel : SyncPolicy)
    (syncout : Bool) (s : State) : Host.Outcome State Fault Refusal :=
  let x := { s.x with op := opSweep }.loadSweep cfg wave msb trig syncsel syncout
  s.command x (sweepProgram x s)

/-- The operands that SELFTEST loads: start, delta, count, interval, base, direction (R204). -/
def selftestConfig : SweepConfig := ⟨1000, 1000, 2, 2000, .waveCyclesBased, .incremental⟩

/-- SELFTEST (R204, R205): loads its fixed operands, then exactly as SWEEP. -/
def execSelftest (s : State) : Host.Outcome State Fault Refusal :=
  let x := { s.x with op := opSelftest }.loadSweep selftestConfig .sine true .automatic .endOfScan true
  s.command x (sweepProgram x s)

/-- TRIGNOW (R193, R206): the trigger pulse on request, refused before INIT. -/
def execTrignow (s : State) : Host.Outcome State Fault Refusal :=
  s.command { s.x with op := opTrignow } (if s.phase = .uninitialized then none else some [.pulse])

end Sys2Proof.Machine
end

