-- ==== Sys2Proof/Machine/Words.lean ====
section
/-! DEFINITION. The meanings of the eight command words (format W16): each is the framed write of its word to its
register (R141 to R148, R170, R174). The words carry their payload, so a frequency word's builder is the tagging alone. -/

namespace Sys2Proof.Machine

/-- W_CTRL (R141). -/
def execWCtrl (f : ControlFlags) (s : State) : Host.Outcome State Fault Refusal := s.issueWord .ctrl (buildCtrl f)

/-- W_NINCR (R146). -/
def execWNincr (n : Count) (s : State) : Host.Outcome State Fault Refusal := s.issueBuilt .nincr (buildNincr n)

/-- W_DF_LO (R144). -/
def execWDfLo (p : Payload) (s : State) : Host.Outcome State Fault Refusal := s.issueWord .dfLo (tagged .dfLo p)

/-- W_DF_HI (R145). -/
def execWDfHi (p : Payload) (s : State) : Host.Outcome State Fault Refusal := s.issueWord .dfHi (tagged .dfHi p)

/-- W_TINT_WAVE (R147). -/
def execWTintWave (t : Count) (s : State) : Host.Outcome State Fault Refusal := s.issueBuilt .tintWave (buildTintWave t)

/-- W_TINT_CLK (R148). -/
def execWTintClk (t : Count) (s : State) : Host.Outcome State Fault Refusal := s.issueBuilt .tintClk (buildTintClk t)

/-- W_FS_LO (R142). -/
def execWFsLo (p : Payload) (s : State) : Host.Outcome State Fault Refusal := s.issueWord .fsLo (tagged .fsLo p)

/-- W_FS_HI (R143). -/
def execWFsHi (p : Payload) (s : State) : Host.Outcome State Fault Refusal := s.issueWord .fsHi (tagged .fsHi p)

end Sys2Proof.Machine
end

