-- ==== Sys2Proof/Machine/Dispatch.lean ====
section
/-! DEFINITION. One arm per constructor of Instr, each one direct call of its meaning. -/

namespace Sys2Proof.Machine

def exec (i : Instr) (s : State) : Host.Outcome State Fault Refusal :=
  match i with
  | .wCtrl flags => Sys2Proof.Machine.execWCtrl flags s
  | .wNincr n => Sys2Proof.Machine.execWNincr n s
  | .wDfLo p => Sys2Proof.Machine.execWDfLo p s
  | .wDfHi p => Sys2Proof.Machine.execWDfHi p s
  | .wTintWave t => Sys2Proof.Machine.execWTintWave t s
  | .wTintClk t => Sys2Proof.Machine.execWTintClk t s
  | .wFsLo p => Sys2Proof.Machine.execWFsLo p s
  | .wFsHi p => Sys2Proof.Machine.execWFsHi p s
  | .init c => Sys2Proof.Machine.execInit c s
  | .bind h => Sys2Proof.Machine.execBind h s
  | .single freq wave msb trig => Sys2Proof.Machine.execSingle freq wave msb trig s
  | .sweep cfg wave msb trig syncsel syncout => Sys2Proof.Machine.execSweep cfg wave msb trig syncsel syncout s
  | .selftest => Sys2Proof.Machine.execSelftest s
  | .trignow => Sys2Proof.Machine.execTrignow s

end Sys2Proof.Machine
end

