-- ==== Sys2Proof/Machine/Fetch.lean ====
section
/-! DEFINITION. What the block does next: hardware reset, the next command when it is not busy, the next word of the
operation in progress, or whatever else that operation does next. -/

namespace Sys2Proof.Machine

/-- What a step has to do. -/
inductive Fetched where
  /-- Execute an instruction in a state from which its encoding has been taken. -/
  | run (i : Instr) (s : State)
  /-- Nothing is to be executed: this is the next state. -/
  | go (s : State)
  /-- A bit pattern that has no instruction. -/
  | stop (r : Refusal)
  deriving DecidableEq, Repr

/-- A bit pattern that does not decode: a reserved opcode has its effect (R86), a word the block never sends is refused
by its reason (R81). -/
def undecoded (e : DecodeError) (s : State) : Fetched :=
  match e with
  | .reservedOpcode op => .go (s.runReserved op)
  | .unusedTag tag => .stop (.unusedTag tag)
  | .controlFixedBitClear => .stop .controlFixedBitClear
  | .intervalBit11Set => .stop .intervalBit11Set

/-- A decoded instruction is run, anything else goes its way. -/
def decoded (d : Except DecodeError Instr) (s : State) : Fetched :=
  match d with
  | .ok i => .run i s
  | .error e => undecoded e s

/-- `busy` = 0: take the next command; with none presented the block does nothing (R33, R262). -/
def fetchCommand (s : State) : Fetched :=
  match s.commands with
  | [] => .go s
  | f :: rest => decoded (decode (.command f)) { s with commands := rest }

/-- An operation in progress goes on: one step of R8, and what is left of a word's write as far as the pace lets it. -/
def State.goesOn (s : State) : State := s.tick.writeTicks s.pace

/-- `busy` = 1: a statement that is begun goes on first; else the next one begins, a word by its own instruction. -/
def fetchBusy (s : State) : Fetched :=
  match s.pending, s.plan with
  | .none, .word w :: rest => decoded (decode (.word w)) { s with plan := rest }
  | _, _ => .go s.goesOn

/-- What the block does next. Reset comes first (R261). -/
def fetch (s : State) : Fetched :=
  if s.rst then .go s.hardwareReset else if s.busy then fetchBusy s else fetchCommand s

/-- Place a bit pattern of either format where the next step reads it: a word as the next word of an operation in
progress, a command as the next command of a block that is not busy. -/
def State.withRaw (s : State) (r : Raw) : State :=
  match r with
  | .word w => { s with rst := false, busy := true, pending := .none, plan := [.word w] }
  | .command f => { s with rst := false, busy := false, pending := .none, plan := [], commands := f :: s.commands }

end Sys2Proof.Machine
end

