-- ==== Sys2Proof/Machine/Step.lean ====
section
/-! DEFINITION. One step of the machine: what is fetched is executed. -/

namespace Sys2Proof.Machine

/-- One step: an instruction (a command, or the next word of an operation in progress), or whatever else the operation
in progress does next. At pace 0 that is one step of R8; at a higher pace a command, and the write of a word, go on for as
many more (log 1). -/
def step (s : State) : Host.Outcome State Fault Refusal :=
  match fetch s with
  | .run i t => exec i t
  | .go t => .next t
  | .stop r => .refused r

/-- The state with a row's bits placed where the next step reads them (log 4). -/
def State.withFetchWord (s : State) (nbits w : Nat) : State :=
  match rawOfTableWord nbits w with
  | some r => s.withRaw r
  | none => s

end Sys2Proof.Machine
end

