-- ==== Sys2Proof/Safety.lean ====
section
/-! DEFINITION. What claims about the block are stated in: the invariants of its lines, of its sequencer, of its result
registers and of the ghost chip, and the order of its external events. -/

namespace Sys2Proof.Machine

/-- The ghost chip registers: canonical form, and only registers with one of the eight tags were ever written (R51). -/
def ChipInv (s : State) : Prop :=
  s.chip.wf = true ∧ ∀ c ∈ s.chip, ∃ k : WordKind, c.1 = addressOf k

/-- The frame-sync level that goes with what is pending: low exactly while a frame is open (R172). -/
def fsLevel : Pending → Bool
  | .shift _ _ => false
  | .frameEnd _ _ => false
  | .none => true
  | .hold => true
  | .pulseEnd => true
  | .raise _ _ _ => true

/-- The trigger level that goes with what is pending: high exactly from the first to the last step of a pulse (R177). -/
def trigLevel : Pending → Bool
  | .hold => true
  | .pulseEnd => true
  | .none => false
  | .shift _ _ => false
  | .frameEnd _ _ => false
  | .raise _ _ _ => false

/-- The level of a line. -/
def State.level (s : State) : Pin → Bool
  | .fs => s.pinFs
  | .trig => s.pinTrig
  | .int => s.pinInt
  | .stby => s.pinStby

/-- What an idle line holds after INIT (R190). -/
def idleLevel : Pin → Bool
  | .fs => true
  | .trig => false
  | .int => false
  | .stby => false

/-- A statement that drives its line to its idle level, or drives none. -/
def Action.keepsIdle : Action → Bool
  | .pin line level => level == idleLevel line
  | .word _ => true
  | .pulse => true
  | .newContext => true
  | .attach => true

/-- A statement that an operation may have before the first INIT: it sends no word and pulses no line (R193). -/
def Action.beforeInit : Action → Bool
  | .pin _ _ => true
  | .newContext => true
  | .attach => true
  | .word _ => false
  | .pulse => false

/-- The lines (R172, R177, R190, R193, R248). Nothing is pending when no operation executes, and plans drive lines to idle
levels only. Before the first INIT no frame and no pulse is begun. From then on each line has the level that goes with what
is pending. Where a plan still has INIT's new context to build, it is the rest of INIT's program, and the lines driven by
its part already performed are idle. -/
def LinesInv (s : State) : Prop :=
  (s.busy = false → s.pending = .none) ∧
  (∀ a ∈ s.plan, a.keepsIdle = true) ∧
  (s.phase = .uninitialized →
    (s.pending = .none ∨ ∃ st g c, s.pending = .raise st g c) ∧ ∀ a ∈ s.plan, a.beforeInit = true) ∧
  (s.phase ≠ .uninitialized →
    s.pinFs = fsLevel s.pending ∧ s.pinTrig = trigLevel s.pending ∧ s.pinInt = false ∧ s.pinStby = false) ∧
  (Action.newContext ∈ s.plan →
    s.pending = .none ∧
    ∃ n, s.plan = initProgram.drop n ∧
      ∀ line level, Action.pin line level ∈ initProgram.take n → s.level line = level)

/-- A record that the result registers may hold (R88). -/
def LegalResult (status : Status) (step : BitVec 3) (code : ErrCode) : Prop :=
  match status with
  | .ok => step = 0 ∧ code = 0
  | .paramError => step = 0 ∧ code = 0
  | .transportBusy => 1 ≤ step.toNat ∧ step.toNat ≤ 5 ∧ code = 0
  | .transportError => 1 ≤ step.toNat ∧ step.toNat ≤ 5

/-- The result registers hold one of the records of R88, and so does an error that is raised and not yet reported. -/
def ResultInv (s : State) : Prop :=
  LegalResult s.resStatus s.resStep s.resCode ∧
  ∀ st g c, s.pending = .raise st g c → LegalResult st g c

/-- The slots an operation has still to write when its next slot is `i` (R34, R35). -/
def slotsLeft (op : Opcode) (i : BitVec 3) : List (BitVec 3) :=
  if op = opSingle then [0, 1, 2].filter (fun j => i.toNat ≤ j.toNat)
  else if op = opSweep ∨ op = opSelftest then [0, 1, 2, 3, 4, 5, 6].filter (fun j => i.toNat ≤ j.toNat)
  else []

/-- The slot of a word, if it is one of the eight kinds. -/
def slotOfWord (w : Word) : Option (BitVec 3) := (classify w).map slotOf

/-- The slot that a statement stands for (R34): that of its word, or 7 for the pulse. -/
def Action.slot : Action → Option (BitVec 3)
  | .word w => slotOfWord w
  | .pulse => some 7
  | .pin _ _ => none
  | .newContext => none
  | .attach => none

/-- Whether an operation writes registers: SINGLE, SWEEP or SELFTEST. -/
def writesRegisters (op : Opcode) : Prop := op = opSingle ∨ op = opSweep ∨ op = opSelftest

/-- The slots that a register-writing operation has still to begin when its next slot is `i`: its words and, if the
trigger operand is Automatic, the pulse (R35, R179). -/
def programSlots (op : Opcode) (trig : TriggerSource) (i : BitVec 3) : List (Option (BitVec 3)) :=
  (slotsLeft op i ++ (match trig with | .automatic => [7] | .external => [])).map some

/-- Whether the operation has a trigger pulse (R179, R206). -/
def pulses (s : State) : Prop := (writesRegisters s.curOp ∧ s.x.trig = .automatic) ∨ s.curOp = opTrignow

/-- Where an operation stands (R33 to R35, R190, R192, R206): the plan and `seq_idx` that go with what is pending. -/
def PlanInv (s : State) : Prop :=
  match s.pending with
  | .shift k w =>
    writesRegisters s.curOp ∧ classify w = some k ∧ slotOf k = s.seqIdx ∧
      slotOfWord w :: s.plan.map Action.slot = programSlots s.curOp s.x.trig s.seqIdx
  | .frameEnd k .ok =>
    writesRegisters s.curOp ∧ slotOf k = s.seqIdx ∧
      some (slotOf k) :: s.plan.map Action.slot = programSlots s.curOp s.x.trig s.seqIdx
  | .frameEnd k (.error _) => writesRegisters s.curOp ∧ slotOf k = s.seqIdx ∧ s.plan = []
  | .hold => pulses s ∧ s.seqIdx = 7 ∧ s.plan = []
  | .pulseEnd => pulses s ∧ s.seqIdx = 7 ∧ s.plan = []
  | .raise _ _ _ => s.plan = []
  | .none =>
    (s.curOp = opInit ∧ s.seqIdx = 0 ∧ ∃ n, n < 5 ∧ s.plan = initProgram.drop n) ∨
    (s.curOp = opBind ∧ s.seqIdx = 0 ∧ s.plan = [.attach]) ∨
    (s.curOp = opTrignow ∧ s.seqIdx = 0 ∧ s.plan = [.pulse]) ∨
    (pulses s ∧ s.seqIdx = 7 ∧ s.plan = []) ∨
    (writesRegisters s.curOp ∧ (s.seqIdx = 7 ∨ slotsLeft s.curOp s.seqIdx ≠ []) ∧
      s.plan.map Action.slot = programSlots s.curOp s.x.trig s.seqIdx)

/-- The sequencer (R33 to R35, R210). When no operation executes it rests at 0 with nothing to do. While one does, plan and
`seq_idx` go together; and in SINGLE, SWEEP and SELFTEST the phase is Configured from the control word to the last word,
and at slot 7 Armed, or Running once the pulse has ended. -/
def SequencerInv (s : State) : Prop :=
  (s.busy = false → s.pending = .none ∧ s.plan = [] ∧ s.seqIdx = 0) ∧
  (s.busy = true →
    PlanInv s ∧
    (writesRegisters s.curOp → 1 ≤ s.seqIdx.toNat → s.seqIdx.toNat ≤ 6 → s.phase = .configured) ∧
    (writesRegisters s.curOp → s.seqIdx = 7 →
      s.phase = .armed ∨ (s.phase = .running ∧ s.pending = .none ∧ s.plan = [] ∧ s.x.trig = .automatic)))

/-- Where the external events stand: between transactions, in a frame before or after its transfer, in a trigger pulse
before or after its hold, or out of order. -/
inductive WireState where
  | quiet
  | frameOpen
  | framed
  | trigHigh
  | held
  | broken
  deriving DecidableEq, Repr

/-- How one event moves it (R62, R170, R173, R176, R177): a transfer that is not `Busy` stands inside one low-high pair
of the frame-sync line, a delay of at least the hold stands inside one high-low pair of the trigger line, nothing else
happens in between, and lines may be driven to their idle level at any time between transactions (R190). -/
def WireState.next (w : WireState) (e : Event) : WireState :=
  match w, e with
  | .quiet, .pin .fs false => .frameOpen
  | .quiet, .pin .trig true => .trigHigh
  | .quiet, .pin .fs true => .quiet
  | .quiet, .pin .trig false => .quiet
  | .quiet, .pin .int false => .quiet
  | .quiet, .pin .stby false => .quiet
  | .quiet, .xfer _ _ .busy => .quiet
  | .quiet, .result _ _ _ _ => .quiet
  | .frameOpen, .xfer _ _ .ok => .framed
  | .frameOpen, .xfer _ _ (.error _) => .framed
  | .framed, .pin .fs true => .quiet
  | .trigHigh, .delay n => if Config.trigHoldUs ≤ n then .held else .broken
  | .held, .pin .trig false => .quiet
  | _, _ => .broken

/-- Where the events of a history stand (R42). -/
def wireAfter (h : List Event) : WireState := h.foldl WireState.next .quiet

/-- Where the events stand for what is pending. -/
def wireOf : Pending → WireState
  | .none => .quiet
  | .shift _ _ => .frameOpen
  | .frameEnd _ _ => .framed
  | .hold => .trigHigh
  | .pulseEnd => .held
  | .raise _ _ _ => .quiet

/-- The order of the external events (R62, R173, R179): the history is a sequence of whole transactions, but for the one
that is begun; none is when no operation executes, and plans drive lines to idle levels only. -/
def WireInv (s : State) : Prop :=
  (s.busy = false → s.pending = .none) ∧ (∀ a ∈ s.plan, a.keepsIdle = true) ∧
  wireAfter s.history = wireOf s.pending

/-- One event's effect on the ghost chip (R41, R60): an `Ok` transfer stores the payload under the tag, an `Error` makes
that register unknown, everything else leaves it. -/
def chipAfterEvent (m : Memory) (e : Event) : Memory :=
  match e with
  | .xfer _ w .ok => m.write (tagOf w).toNat (.known (payloadOf w))
  | .xfer _ w (.error _) => m.write (tagOf w).toNat .unknown
  | .xfer _ _ .busy => m
  | .pin _ _ => m
  | .delay _ => m
  | .result _ _ _ _ => m

/-- Whether an event is a transfer (a call of the transport). -/
def Event.isXfer : Event → Bool
  | .xfer _ _ _ => true
  | .pin _ _ => false
  | .delay _ => false
  | .result _ _ _ _ => false

/-- The word of a transfer that was not answered `Ok`. -/
def failedWord : Event → Option Word
  | .xfer _ w .busy => some w
  | .xfer _ w (.error _) => some w
  | .xfer _ _ .ok => none
  | .pin _ _ => none
  | .delay _ => none
  | .result _ _ _ _ => none

/-- Whether an event is a completion. -/
def Event.isResult : Event → Bool
  | .result _ _ _ _ => true
  | .xfer _ _ _ => false
  | .pin _ _ => false
  | .delay _ => false

/-! ## The words an instruction sends, and the states the rules give -/

/-- The word that a word instruction writes; none for a count its builder refuses, and for a command. -/
def sentBy : Instr → Option (WordKind × Word)
  | .wCtrl f => some (.ctrl, buildCtrl f)
  | .wNincr n => (buildNincr n).map (fun w => (.nincr, w))
  | .wDfLo p => some (.dfLo, tagged .dfLo p)
  | .wDfHi p => some (.dfHi, tagged .dfHi p)
  | .wTintWave t => (buildTintWave t).map (fun w => (.tintWave, w))
  | .wTintClk t => (buildTintClk t).map (fun w => (.tintClk, w))
  | .wFsLo p => some (.fsLo, tagged .fsLo p)
  | .wFsHi p => some (.fsHi, tagged .fsHi p)
  | .init _ => none
  | .bind _ => none
  | .single _ _ _ _ => none
  | .sweep _ _ _ _ _ _ => none
  | .selftest => none
  | .trignow => none

/-- Whether an instruction is one of the six commands. -/
def isCommand : Instr → Bool
  | .wCtrl _ => false
  | .wNincr _ => false
  | .wDfLo _ => false
  | .wDfHi _ => false
  | .wTintWave _ => false
  | .wTintClk _ => false
  | .wFsLo _ => false
  | .wFsHi _ => false
  | .init _ => true
  | .bind _ => true
  | .single _ _ _ _ => true
  | .sweep _ _ _ _ _ _ => true
  | .selftest => true
  | .trignow => true

/-- One whole frame of an answered transfer (R170). -/
def frameEvents (h : Handle) (w : Word) (a : Answer) : List Event := [.pin .fs false, .xfer h w a, .pin .fs true]

/-- The frames of a list of words, each answered `Ok`. -/
def okFrames (h : Handle) (ws : List Word) : List Event := ws.flatMap (fun w => frameEvents h w .ok)

/-- The events of a trigger pulse (R176). -/
def pulseEvents : List Event := [.pin .trig true, .delay 100, .pin .trig false]

/-- The ghost chip after a list of words, each answered `Ok` (R41). -/
def chipAfterWords (m : Memory) (ws : List Word) : Memory :=
  ws.foldl (fun m w => m.write (tagOf w).toNat (.known (payloadOf w))) m

/-- The state after one word is answered `Ok` (R170, R174): the frame's events, the chip register, `ctx.last`, one poll
and one answer used, and the sequencer at `slot` in `phase`, the operation going on; all else as it was. -/
def State.wroteOk (s : State) (w : Word) (ps : List Bool) (ss : List ShiftAnswer) (slot : BitVec 3) (phase : Phase) : State :=
  { s with
    last := w, polls := ps, shifts := ss, pinFs := true, busy := true, seqIdx := slot, phase := phase,
    chip := s.chip.write (tagOf w).toNat (.known (payloadOf w)), history := s.history ++ frameEvents s.handle w .ok }

/-- The state after an operation has ended with a result (R36, R211) and added `es` before it: no word is left, nothing
is outstanding; all else as it was. -/
def State.endedWith (s : State) (es : List Event) (st : Status) (g : BitVec 3) (c : ErrCode) : State :=
  { s with
    resStatus := st, resStep := g, resCode := c, busy := false, seqIdx := 0, plan := [], pending := .none,
    history := s.history ++ es ++ [.result s.curOp st g c] }

/-- The latches and the opcode after a register-writing command is accepted (R30, R33, R204), with the words its operation
writes (R196, R200); none for the other instructions. -/
def operationOf (i : Instr) (s : State) : Option (Latches × Option (List Word)) :=
  match i with
  | .single freq wave msb trig =>
    let x := { s.x with op := opSingle, freq := freq, wave := wave, msb := msb, trig := trig }
    some (x, singleWords x s.refclk)
  | .sweep cfg wave msb trig syncsel syncout =>
    let x := { s.x with op := opSweep }.loadSweep cfg wave msb trig syncsel syncout
    some (x, sweepWords x s.refclk)
  | .selftest =>
    let x := { s.x with op := opSelftest }.loadSweep selftestConfig .sine true .automatic .endOfScan true
    some (x, sweepWords x s.refclk)
  | .wCtrl _ => none
  | .wNincr _ => none
  | .wDfLo _ => none
  | .wDfHi _ => none
  | .wTintWave _ => none
  | .wTintClk _ => none
  | .wFsLo _ => none
  | .wFsHi _ => none
  | .init _ => none
  | .bind _ => none
  | .trignow => none

/-- The step code that a failing word reports, if it is one of the eight kinds (R88). -/
def wordStep (w : Word) : Option (BitVec 3) := (classify w).map stepOf

/-- The step codes of the seven words of a sweep, in write order (R34, R88); a single frequency writes the first three. -/
def stepCodes : List (BitVec 3) := [1, 2, 2, 3, 3, 4, 5]

end Sys2Proof.Machine
end

