-- ==== Sys2Proof/Certificates/Slice0/Obligations.lean ====
section
/-! DEFINITION. The statements about the block, for the provers. Each docstring names the rule of spec/ it formalises or the
sections and decisions it rests on; a decision D<n> of spec/92_eei_decisions.md is the spec's own choice, not KEPSZ's, and
a log is notes/assumptions/<n>.md. -/

open Sys2Proof Sys2Proof.Machine

/-! ## Encodings -/

/-- Every well-formed instruction is read back from its encoding, whatever its operands (sections 2 to 5 of
30_encoding.md; the numbers are decisions D2 and D12). -/
def Obligations.DecodeOfEncodeIsTheInstruction : Prop :=
  ∀ i : Instr, WellFormed i → decode (encode i) = .ok i

/-- A word that decodes is the encoding of what it decodes to, a well-formed instruction: no bit of it is dropped (section
4 of 30_encoding.md). -/
def Obligations.EncodeOfDecodedWordIsTheWord : Prop :=
  ∀ (w : Word) (i : Instr), decode (.word w) = .ok i → WellFormed i ∧ encode i = .word w

/-- A word decodes exactly if it matches one of the eight rows of the opcode table, and then only one (section 6 of
30_encoding.md). -/
def Obligations.WordDecodesIffItMatchesOneRow : Prop :=
  ∀ w : Word,
    ((∃ i, decode (.word w) = .ok i) ↔
      (w &&& 0xF8D3 = 0x08D3 ∨ w &&& 0xF000 = 0x1000 ∨ w &&& 0xF000 = 0x2000 ∨ w &&& 0xF000 = 0x3000 ∨
        w &&& 0xF800 = 0x4000 ∨ w &&& 0xF800 = 0x6000 ∨ w &&& 0xF000 = 0xC000 ∨ w &&& 0xF000 = 0xD000)) ∧
    (∀ r ∈ wordRows, ∀ q ∈ wordRows, w &&& r.mask = r.pattern → w &&& q.mask = q.pattern → r = q)

/-- Eight words and two commands written out from the test vectors decode to the instructions they stand for (S3 and the
programs P1, P2 and P3 of 95_test_vectors.md). -/
def Obligations.VectorWordsDecode : Prop :=
  decode (.word 0x0FD7) = .ok (.wCtrl ⟨true, .sine, true, .automatic, .endOfScan, true⟩) ∧
  decode (.word 0xC14F) = .ok (.wFsLo 0x14F) ∧
  decode (.word 0xD051) = .ok (.wFsHi 0x051) ∧
  decode (.word 0x2D1B) = .ok (.wDfLo 0xD1B) ∧
  decode (.word 0x3800) = .ok (.wDfHi 0x800) ∧
  decode (.word 0x47D0) = .ok (.wTintWave 2000) ∧
  decode (.word 0x61F4) = .ok (.wTintClk 500) ∧
  decode (.word 0x1064) = .ok (.wNincr 100) ∧
  decode (.command { op := 0, refclk := 0x02FAF080 }) = .ok (.init 50000000) ∧
  decode (.command { op := 2, freq := 0x190, wave := 0, msb := 0, trig := 1 }) = .ok (.single 400 .triangle false .external)

/-- What the block never sends or accepts as a command is refused by its reason: the reserved opcodes, the eight tags not
used, a control word with a fixed bit clear, an interval word with bit 11 set (section 4 of 30_encoding.md, D23). -/
def Obligations.ReservedPatternsAreRefusedByName : Prop :=
  (∀ f : CmdFields, 6 ≤ f.op.toNat → decode (.command f) = .error (.reservedOpcode f.op)) ∧
  (∀ w : Word, (∀ k : WordKind, tagOf w ≠ k.tag) → decode (.word w) = .error (.unusedTag (tagOf w))) ∧
  (∀ w : Word, tagOf w = 0x0 → w &&& 0xF8D3 ≠ 0x08D3 → decode (.word w) = .error .controlFixedBitClear) ∧
  (∀ w : Word, (tagOf w = 0x4 ∨ tagOf w = 0x6) → w.getLsbD 11 = true → decode (.word w) = .error .intervalBit11Set)

/-- The encoder of the decoder's file and the machine's word builders, written apart, give the same words. -/
def Obligations.EncoderAgreesWithTheBuilders : Prop :=
  ∀ (i : Instr) (k : WordKind) (w : Word), sentBy i = some (k, w) → encode i = .word w ∧ classify w = some k

/-! ## The frequency converter -/

/-- R103: the quotient is the floor of the exact `f * 2^24 / c`, nothing else is rounded or added to make the tuning word
(stated where it fits, `f < c`; above that it is cut, decision D4, stated on its own), and a zero clock fails before any
division. -/
def Obligations.TuningWordIsTheFloor : Prop :=
  (∀ f c : Hertz, c.toNat ≠ 0 →
    quotient f c * c.toNat ≤ f.toNat * 2 ^ 24 ∧ f.toNat * 2 ^ 24 < (quotient f c + 1) * c.toNat) ∧
  (∀ (f c : Hertz) (z : Bool) (tw : Tuning), f.toNat < c.toNat → conv f c z = some tw → tw.toNat = quotient f c) ∧
  (∀ (f : Hertz) (z : Bool), conv f 0 z = none)

/-- R101: when the conversion fails; a zero frequency fails as a start or single frequency and is legal as a delta, which
converts to 0; an operation whose conversions or builders would fail completes with ParamError and has sent nothing,
however far it has gone. -/
def Obligations.ConversionFailsExactlyOutOfRange : Prop :=
  (∀ (f c : Hertz) (z : Bool),
    conv f c z = none ↔ c.toNat = 0 ∨ f.toNat > 2147483647 ∨ (f.toNat = 0 ∧ z = false)) ∧
  (∀ c : Hertz, startPair 0 c = none) ∧
  (∀ (c : Hertz) (d : Direction), c.toNat ≠ 0 →
    conv 0 c true = some 0 ∧ deltaPair 0 c d = some [buildDfLo 0, buildDfHi 0 d]) ∧
  (∀ (i : Instr) (s : State) (x : Latches), operationOf i s = some (x, none) → s.busy = false →
    s.phase ≠ .uninitialized → 1 ≤ s.pace →
    exec i s = .next ({ s with x := x, curOp := x.op }.endedWith [] .paramError 0 0)) ∧
  (∀ (i : Instr) (s t : State) (x : Latches), operationOf i s = some (x, none) → exec i s = .next t →
    t.plan = [] ∧ (t.history = s.history ∨ t.history = s.history ++ [.result x.op .paramError 0 0]))

/-- The conversion of a frequency in range succeeds, also at or above the clock, with the low 24 bits of the quotient; the
quotient fits exactly below the clock, and a frequency below the resolution converts to 0 (sections 2 and 3 of
40_frequency_converter.md). The truncation is decision D4. -/
def Obligations.QuotientIsTruncatedAboveTheClock : Prop :=
  ∀ (f c : Hertz) (z : Bool), c.toNat ≠ 0 → 1 ≤ f.toNat → f.toNat ≤ 2147483647 →
    ∃ tw, conv f c z = some tw ∧
      tw.toNat = f.toNat * 2 ^ 24 / c.toNat % 2 ^ 24 ∧
      (f.toNat < c.toNat ↔ f.toNat * 2 ^ 24 / c.toNat < 2 ^ 24) ∧
      (f.toNat * 2 ^ 24 < c.toNat → tw = 0)

/-- Below the clock the conversion is monotone in the frequency; at the clock it is not: the last frequency below the clock
has a tuning word above 0, the clock itself has 0 (section 2 of 40_frequency_converter.md, conflict C13; the second part
rests on decision D4). -/
def Obligations.ConversionIsMonotoneOnlyBelowTheClock : Prop :=
  (∀ (f g c : Hertz) (z : Bool) (a b : Tuning), f.toNat ≤ g.toNat → g.toNat < c.toNat →
    conv f c z = some a → conv g c z = some b → a.toNat ≤ b.toNat) ∧
  (∀ c : Hertz, 2 ≤ c.toNat → c.toNat ≤ 2147483647 →
    (∃ tw, conv (c - 1) c false = some tw ∧ 0 < tw.toNat) ∧ conv c c false = some 0)

/-! ## The control-word encoder and the builders -/

/-- R120, R121, R123: every bit of the encoded control word, for every flag record. -/
def Obligations.ControlWordBits : Prop :=
  ∀ f : ControlFlags,
    encodeFlags f =
      0x0#4 ++ 1#1 ++ BitVec.ofBool f.dac ++ BitVec.ofBool (f.wave == .sine) ++ BitVec.ofBool f.msb ++ 0b11#2 ++
        BitVec.ofBool (f.trig == .external) ++ 1#1 ++ BitVec.ofBool (f.syncsel == .perIncrement) ++
        BitVec.ofBool f.syncout ++ 0b11#2

/-- The control words are exactly the words with the six fixed bits set and the top four clear, and each comes from one
flag record (section 2 of 41_control_word_encoder.md). -/
def Obligations.ControlWordImage : Prop :=
  (∀ w : Word, w &&& 0xF8D3 = 0x08D3 ↔ ∃ f, encodeFlags f = w) ∧
  (∀ f g : ControlFlags, encodeFlags f = encodeFlags g → f = g)

/-- R75, R76: the payloads of the frequency words are the two halves of the tuning word, unchanged. -/
def Obligations.FrequencyPayloadsAreTheHalves : Prop :=
  ∀ tw : Tuning,
    (payloadOf (buildFsLo tw)).toNat = tw.toNat % 4096 ∧
    (payloadOf (buildDfLo tw)).toNat = tw.toNat % 4096 ∧
    (payloadOf (buildFsHi tw)).toNat = tw.toNat / 4096

/-- The direction bit is or-ed into bit 11 of the delta-high payload: it shows when bit 23 of the delta tuning word is
clear and is lost when that bit is set (hazard of large deltas; the position and the or are decision D3). -/
def Obligations.DirectionBitSharesBit23 : Prop :=
  ∀ twd : Tuning,
    buildDfHi twd .incremental = 0x3#4 ++ twd.extractLsb' 12 12 ∧
    (twd.getLsbD 23 = true → buildDfHi twd .decremental = buildDfHi twd .incremental) ∧
    (twd.getLsbD 23 = false →
      (buildDfHi twd .decremental).toNat = (buildDfHi twd .incremental).toNat + 2048)

/-- R78, R79: the count words carry the operand whole, exactly for the legal operands, and bit 11 of an interval word is
0. -/
def Obligations.CountPayloadsLoseNothing : Prop :=
  (∀ n : Count, (2 ≤ n.toNat ∧ n.toNat ≤ 4095 →
      ∃ w, buildNincr n = some w ∧ (payloadOf w).toNat = n.toNat) ∧
    (n.toNat < 2 ∨ 4095 < n.toNat → buildNincr n = none)) ∧
  (∀ (t : Count) (b : IntervalBase), (2 ≤ t.toNat ∧ t.toNat ≤ 2047 →
      ∃ w, buildTint t b = some w ∧ (payloadOf w).toNat = t.toNat ∧ w.getLsbD 11 = false) ∧
    (t.toNat < 2 ∨ 2047 < t.toNat → buildTint t b = none))

/-- R150: the two interval words of one interval differ in their tag (and in nothing else). -/
def Obligations.IntervalWordsDifferInTheirTag : Prop :=
  ∀ (t : Count) (w v : Word), buildTintWave t = some w → buildTintClk t = some v →
    tagOf w ≠ tagOf v ∧ payloadOf w = payloadOf v

/-- R152: the range tests are the validation predicates; an operation that fails them completes with ParamError without
any other event, however far it has gone; and the words of one that passes are words that their builders make. -/
def Obligations.ValidationIsTheBuildersRangeTests : Prop :=
  (∀ (x : Latches) (c : Hertz), validSingle x c = true ↔ ∃ ws, singleWords x c = some ws) ∧
  (∀ (x : Latches) (c : Hertz), validSweep x c = true ↔ ∃ ws, sweepWords x c = some ws) ∧
  (∀ (i : Instr) (s t : State) (x : Latches) (ws : Option (List Word)), operationOf i s = some (x, ws) →
    (if x.op = opSingle then validSingle x s.refclk else validSweep x s.refclk) = false → exec i s = .next t →
    t.plan = [] ∧ (t.history = s.history ∨ t.history = s.history ++ [.result x.op .paramError 0 0])) ∧
  (∀ (i : Instr) (s : State) (x : Latches) (ws : List Word), operationOf i s = some (x, some ws) →
    ∀ w ∈ ws, ∃ k, classify w = some k ∧ built k w = true)

/-- The words of a sweep stand in the order control, start low, start high, delta low, delta high, interval, count; those
of a single frequency are control, start low, start high (sections 3 and 4 of 44_sequencer_operations.md); their step codes are those of their
groups (decision D10). -/
def Obligations.OperationWordsStandInWriteOrder : Prop :=
  (∀ (x : Latches) (c : Hertz) (ws : List Word), singleWords x c = some ws →
    ws.map classify = [some .ctrl, some .fsLo, some .fsHi] ∧ ws.map wordStep = [some 1, some 2, some 2]) ∧
  (∀ (x : Latches) (c : Hertz) (ws : List Word), sweepWords x c = some ws →
    ws.map classify =
      [some .ctrl, some .fsLo, some .fsHi, some .dfLo, some .dfHi,
        some (match x.base with | .waveCyclesBased => .tintWave | .clockCyclesBased => .tintClk), some .nincr] ∧
    ws.map wordStep = [some 1, some 2, some 2, some 3, some 3, some 4, some 5])

/-! ## The word instructions -/

/-- W_CTRL answered `Ok` writes its frame, its register and `ctx.last`, and leaves the sequencer at slot 1 in Configured;
nothing else changes. A frame is three steps of R8, so the pace is 2 or more here (log 1; sections 1 and 2 of 43_write_engine.md, section 8 of 44_sequencer_operations.md; phase D20). -/
def Obligations.ControlWordAnsweredOkCompletes : Prop :=
  ∀ (f : ControlFlags) (s : State) (ps : List Bool) (ss : List ShiftAnswer),
    s.pending = .none → s.bound = true → s.polls = true :: ps → s.shifts = .ok :: ss → 2 ≤ s.pace →
    exec (.wCtrl f) s = .next (s.wroteOk (buildCtrl f) ps ss 1 .configured)

/-- W_FS_LO, W_FS_HI, W_DF_LO and W_DF_HI answered `Ok`: as the control word, with their own slots; the high start word is
the last one of SINGLE and arms it (R35's slots; phase D20). -/
def Obligations.FrequencyWordsAnsweredOkComplete : Prop :=
  ∀ (p : Payload) (s : State) (ps : List Bool) (ss : List ShiftAnswer),
    s.pending = .none → s.bound = true → s.polls = true :: ps → s.shifts = .ok :: ss → 2 ≤ s.pace →
    exec (.wFsLo p) s = .next (s.wroteOk (0xC#4 ++ p) ps ss 2 s.phase) ∧
    exec (.wFsHi p) s =
      .next (if s.curOp = opSingle then s.wroteOk (0xD#4 ++ p) ps ss 7 .armed else s.wroteOk (0xD#4 ++ p) ps ss 3 s.phase) ∧
    exec (.wDfLo p) s = .next (s.wroteOk (0x2#4 ++ p) ps ss 4 s.phase) ∧
    exec (.wDfHi p) s = .next (s.wroteOk (0x3#4 ++ p) ps ss 5 s.phase)

/-- W_TINT_WAVE, W_TINT_CLK and W_NINCR with an operand in range, answered `Ok`: as the control word, with their own slots;
the count word is the last one of SWEEP and SELFTEST and arms it (phase D20). -/
def Obligations.CountWordsAnsweredOkComplete : Prop :=
  ∀ (n : Count) (s : State) (ps : List Bool) (ss : List ShiftAnswer),
    s.pending = .none → s.bound = true → s.polls = true :: ps → s.shifts = .ok :: ss → 2 ≤ s.pace → 2 ≤ n.toNat →
    (n.toNat ≤ 2047 →
      exec (.wTintWave n) s = .next (s.wroteOk (0x4#4 ++ n.setWidth 12) ps ss 6 s.phase) ∧
      exec (.wTintClk n) s = .next (s.wroteOk (0x6#4 ++ n.setWidth 12) ps ss 6 s.phase)) ∧
    (n.toNat ≤ 4095 →
      exec (.wNincr n) s =
        .next (s.wroteOk (0x1#4 ++ n.setWidth 12) ps ss 7
          (if s.curOp = opSweep ∨ s.curOp = opSelftest then .armed else s.phase)))

/-- A count word with an operand out of range raises ParamError and sends nothing (sections 5 and 6 of
42_register_command_builder.md). -/
def Obligations.CountWordsOutOfRangeRaiseParamError : Prop :=
  ∀ (n : Count) (s : State), s.pending = .none →
    (n.toNat < 2 ∨ 4095 < n.toNat → exec (.wNincr n) s = .next (s.endedWith [] .paramError 0 0)) ∧
    (n.toNat < 2 ∨ 2047 < n.toNat →
      exec (.wTintWave n) s = .next (s.endedWith [] .paramError 0 0) ∧
      exec (.wTintClk n) s = .next (s.endedWith [] .paramError 0 0))

/-- A word on a busy link, or with no transport bound, ends the operation with TransportBusy and the step of its group:
`ctx.last` is the word, no pin moves, no register changes, the phase stays; an unbound block does not call the transport.
On a busy link the transfer is one step and the completion the next (decisions D10, D17 to D20). For every word
instruction. -/
def Obligations.BusyWordEndsTheOperation : Prop :=
  ∀ (i : Instr) (k : WordKind) (w : Word) (s : State), sentBy i = some (k, w) → s.pending = .none →
    (s.bound = false → exec i s = .next ({ s with last := w }.endedWith [] .transportBusy (stepOf k) 0)) ∧
    (∀ ps, s.bound = true → s.polls = false :: ps → 1 ≤ s.pace →
      exec i s =
        .next ({ s with last := w, polls := ps }.endedWith [.xfer s.handle w .busy] .transportBusy (stepOf k) 0)) ∧
    (∀ ps, s.bound = true → s.polls = false :: ps → s.pace = 0 →
      exec i s =
        .next { s with
          last := w, polls := ps, busy := true, plan := [], pending := .raise .transportBusy (stepOf k) 0,
          history := s.history ++ [.xfer s.handle w .busy] })

/-- A word answered `Error(c)` ends the operation with TransportError, the step of its group and the code unchanged: its
frame is closed, its register is unknown, and after a control word the phase is Idle (decisions D18 to D20). For every
word instruction. -/
def Obligations.FailedWordEndsTheOperation : Prop :=
  ∀ (i : Instr) (k : WordKind) (w : Word) (s : State) (ps : List Bool) (ss : List ShiftAnswer) (c : ErrCode),
    sentBy i = some (k, w) → s.pending = .none → s.bound = true → s.polls = true :: ps → s.shifts = .error c :: ss →
    3 ≤ s.pace →
    exec i s =
      .next ({ s with
          last := w, polls := ps, shifts := ss, pinFs := true, chip := s.chip.write (tagOf w).toNat .unknown,
          phase := if k = WordKind.ctrl then .idle else s.phase }.endedWith
        (frameEvents s.handle w (.error c)) .transportError (stepOf k) c)

/-- While the poll has no result the word stays to be written; a ready link opens the frame, which is one step, and while
`Shift` has not returned the frame stays open and the word is outstanding (the model's inputs, log 2). For every word
instruction. -/
def Obligations.UnansweredWordWaits : Prop :=
  ∀ (i : Instr) (k : WordKind) (w : Word) (s : State), sentBy i = some (k, w) → s.pending = .none → s.bound = true →
    (s.polls = [] → exec i s = .next { s with last := w, busy := true, plan := .word w :: s.plan }) ∧
    (∀ ps, s.polls = true :: ps → s.shifts = [] ∨ s.pace = 0 →
      exec i s =
        .next { s with
          last := w, polls := ps, busy := true, pinFs := false, pending := .shift k w,
          history := s.history ++ [.pin .fs false] })

/-- No word instruction begins a second transfer while another statement is begun (the fault is the model's, log 11). -/
def Obligations.SecondTransferFaults : Prop :=
  ∀ (i : Instr) (s : State), isCommand i = false → s.pending ≠ .none → exec i s = .fault .transferNotReentrant

/-- The frame of the word instructions, whatever the answer and the pace: the Device Context but `ctx.last`, the operand latches, the
opcode, the trigger, interrupt-equivalent and standby lines, the delay and command ports, and every chip register but the
one the word addresses. -/
def Obligations.WordInstructionFrame : Prop :=
  ∀ (i : Instr) (s t : State), isCommand i = false → exec i s = .next t →
    t.refclk = s.refclk ∧ t.handle = s.handle ∧ t.bound = s.bound ∧ t.x = s.x ∧ t.curOp = s.curOp ∧
    t.pinTrig = s.pinTrig ∧ t.pinInt = s.pinInt ∧ t.pinStby = s.pinStby ∧
    t.rst = s.rst ∧ t.commands = s.commands ∧ t.delays = s.delays ∧ t.pace = s.pace ∧
    (∀ k w, sentBy i = some (k, w) → ∀ a, a ≠ (tagOf w).toNat → t.chip.read a = s.chip.read a) ∧
    (sentBy i = none → t.chip = s.chip)

/-! ## The commands -/

/-- INIT drives the four lines to their idle levels, records the clock whatever it is, drops the binding, clears
`ctx.last`, and completes with Ok in Idle; nothing else changes (decisions D16, D26). That the handle, unbound and unread
from then on, keeps its value is the model's choice (log 6). -/
def Obligations.InitBuildsAFreshContext : Prop :=
  ∀ (c : Hertz) (s : State), s.busy = false → 5 ≤ s.pace →
    exec (.init c) s =
      .next ({ s with
          x := { s.x with op := opInit, refclk := c }, curOp := opInit, refclk := c, bound := false, last := 0,
          phase := .idle, pinTrig := false, pinInt := false, pinFs := true, pinStby := false }.endedWith
        [.pin .trig false, .pin .int false, .pin .fs true, .pin .stby false] .ok 0 0)

/-- R192: BIND sets handle and binding in every phase, changes no phase and no pin and sends no word; an INIT after it
undoes it; while an operation executes it does not happen. -/
def Obligations.BindAttachesTheTransport : Prop :=
  ∀ (h : Handle) (s : State),
    (s.busy = false → 1 ≤ s.pace →
      exec (.bind h) s =
        .next ({ s with x := { s.x with op := opBind, handle := h }, curOp := opBind, handle := h, bound := true }.endedWith
          [] .ok 0 0)) ∧
    (5 ≤ s.pace → ∀ c t u, exec (.bind h) s = .next t → exec (.init c) t = .next u → u.bound = false) ∧
    (s.busy = true → ∀ t, exec (.bind h) s ≠ .next t)

/-- SINGLE, with operands in range and three `Ok` answers: the three words in order, then no pulse (External: Armed), a
whole pulse (Automatic: Running), or a pulse whose hold has not ended; all else as it was (control flags D7, phase D20). -/
def Obligations.SingleCompletes : Prop :=
  ∀ (freq : Hertz) (wave : Waveform) (msb : Bool) (trig : TriggerSource) (s : State) (ps : List Bool)
    (ss : List ShiftAnswer),
    s.busy = false → s.phase ≠ .uninitialized → s.bound = true → s.refclk ≠ 0 → 13 ≤ s.pace →
    1 ≤ freq.toNat → freq.toNat ≤ 2147483647 →
    s.polls = List.replicate 3 true ++ ps → s.shifts = List.replicate 3 .ok ++ ss →
    let tw := BitVec.ofNat 24 (freq.toNat * 2 ^ 24 / s.refclk.toNat)
    let ws := [buildCtrl ⟨true, wave, msb, .external, .endOfScan, false⟩, buildFsLo tw, buildFsHi tw]
    let t : State := { s with
      x := { s.x with op := opSingle, freq := freq, wave := wave, msb := msb, trig := trig }, curOp := opSingle,
      last := buildFsHi tw, polls := ps, shifts := ss, pinFs := true, chip := chipAfterWords s.chip ws }
    (trig = .external →
      exec (.single freq wave msb trig) s =
        .next ({ t with phase := .armed }.endedWith (okFrames s.handle ws) .ok 0 0)) ∧
    (∀ n, trig = .automatic → s.delays = n + 1 →
      exec (.single freq wave msb trig) s =
        .next ({ t with phase := .running, pinTrig := false, delays := n }.endedWith
          (okFrames s.handle ws ++ pulseEvents) .ok 0 0)) ∧
    (trig = .automatic → s.delays = 0 →
      exec (.single freq wave msb trig) s =
        .next { t with
          phase := .armed, pinTrig := true, busy := true, seqIdx := 7, plan := [], pending := .hold,
          history := s.history ++ okFrames s.handle ws ++ [.pin .trig true] })

/-- SWEEP, with operands in range and seven `Ok` answers: the seven words in order, then no pulse, a whole pulse, or a
pulse whose hold has not ended; all else as it was (control flags D8, phase D20). -/
def Obligations.SweepCompletes : Prop :=
  ∀ (cfg : SweepConfig) (wave : Waveform) (msb : Bool) (trig : TriggerSource) (syncsel : SyncPolicy) (syncout : Bool)
    (s : State) (ps : List Bool) (ss : List ShiftAnswer),
    s.busy = false → s.phase ≠ .uninitialized → s.bound = true → s.refclk ≠ 0 → 25 ≤ s.pace →
    1 ≤ cfg.freq.toNat → cfg.freq.toNat ≤ 2147483647 → cfg.delta.toNat ≤ 2147483647 →
    2 ≤ cfg.ninc.toNat → cfg.ninc.toNat ≤ 4095 → 2 ≤ cfg.tint.toNat → cfg.tint.toNat ≤ 2047 →
    s.polls = List.replicate 7 true ++ ps → s.shifts = List.replicate 7 .ok ++ ss →
    let tw := BitVec.ofNat 24 (cfg.freq.toNat * 2 ^ 24 / s.refclk.toNat)
    let twd := BitVec.ofNat 24 (cfg.delta.toNat * 2 ^ 24 / s.refclk.toNat)
    let tint : Word :=
      match cfg.base with
      | .waveCyclesBased => 0x4#4 ++ cfg.tint.setWidth 12
      | .clockCyclesBased => 0x6#4 ++ cfg.tint.setWidth 12
    let ninc : Word := 0x1#4 ++ cfg.ninc.setWidth 12
    let ws := [buildCtrl ⟨true, wave, msb, trig, syncsel, syncout⟩, buildFsLo tw, buildFsHi tw, buildDfLo twd,
      buildDfHi twd cfg.dir, tint, ninc]
    let t : State := { s with
      x := { s.x with op := opSweep }.loadSweep cfg wave msb trig syncsel syncout, curOp := opSweep,
      last := ninc, polls := ps, shifts := ss, pinFs := true, chip := chipAfterWords s.chip ws }
    (trig = .external →
      exec (.sweep cfg wave msb trig syncsel syncout) s =
        .next ({ t with phase := .armed }.endedWith (okFrames s.handle ws) .ok 0 0)) ∧
    (∀ n, trig = .automatic → s.delays = n + 1 →
      exec (.sweep cfg wave msb trig syncsel syncout) s =
        .next ({ t with phase := .running, pinTrig := false, delays := n }.endedWith
          (okFrames s.handle ws ++ pulseEvents) .ok 0 0)) ∧
    (trig = .automatic → s.delays = 0 →
      exec (.sweep cfg wave msb trig syncsel syncout) s =
        .next { t with
          phase := .armed, pinTrig := true, busy := true, seqIdx := 7, plan := [], pending := .hold,
          history := s.history ++ okFrames s.handle ws ++ [.pin .trig true] })

/-- SELFTEST with seven `Ok` answers: the fixed sweep, its control, interval and count words the same
in every run, then one pulse, Running, or a pulse whose hold has
not ended (the operands KEPSZ does not name are decision D9; phase D20). -/
def Obligations.SelftestCompletes : Prop :=
  ∀ (s : State) (ps : List Bool) (ss : List ShiftAnswer),
    s.busy = false → s.phase ≠ .uninitialized → s.bound = true → s.refclk ≠ 0 → 25 ≤ s.pace →
    s.polls = List.replicate 7 true ++ ps → s.shifts = List.replicate 7 .ok ++ ss →
    let tw := BitVec.ofNat 24 (1000 * 2 ^ 24 / s.refclk.toNat)
    let ws := [0x0FD7, buildFsLo tw, buildFsHi tw, buildDfLo tw, buildDfHi tw .incremental, 0x47D0, 0x1002]
    let t : State := { s with
      x := { s.x with
        op := opSelftest, freq := 1000, delta := 1000, ninc := 2, tint := 2000, base := .waveCyclesBased,
        dir := .incremental, wave := .sine, msb := true, trig := .automatic, syncsel := .endOfScan, syncout := true },
      curOp := opSelftest, last := 0x1002, polls := ps, shifts := ss, pinFs := true, chip := chipAfterWords s.chip ws }
    (∀ n, s.delays = n + 1 →
      exec .selftest s =
        .next ({ t with phase := .running, pinTrig := false, delays := n }.endedWith
          (okFrames s.handle ws ++ pulseEvents) .ok 0 0)) ∧
    (s.delays = 0 →
      exec .selftest s =
        .next { t with
          phase := .armed, pinTrig := true, busy := true, seqIdx := 7, plan := [], pending := .hold,
          history := s.history ++ okFrames s.handle ws ++ [.pin .trig true] })

/-- TRIGNOW in an initialised block: one whole pulse and Ok, Running from Armed or Running and the phase as it was
otherwise; while the hold has not ended the line stays high (decision D20). -/
def Obligations.TrignowPulses : Prop :=
  ∀ s : State, s.busy = false → s.phase ≠ .uninitialized → 4 ≤ s.pace →
    (∀ n, s.delays = n + 1 →
      exec .trignow s =
        .next ({ s with
            x := { s.x with op := opTrignow }, curOp := opTrignow, delays := n, pinTrig := false,
            phase := if s.phase = Phase.armed ∨ s.phase = Phase.running then .running else s.phase }.endedWith
          pulseEvents .ok 0 0)) ∧
    (s.delays = 0 →
      exec .trignow s =
        .next { s with
          x := { s.x with op := opTrignow }, curOp := opTrignow, busy := true, seqIdx := 7, pinTrig := true, plan := [],
          pending := .hold, history := s.history ++ [.pin .trig true] })

/-- Before the first INIT the register-writing commands and TRIGNOW complete with ParamError: no word, no pin, and nothing
changes but what acceptance latches and the result (decision D15; log 17). -/
def Obligations.CommandsBeforeInitAreRefused : Prop :=
  ∀ s : State, s.busy = false → s.phase = .uninitialized → 1 ≤ s.pace →
    (∀ i x ws, operationOf i s = some (x, ws) →
      exec i s = .next ({ s with x := x, curOp := x.op }.endedWith [] .paramError 0 0)) ∧
    exec .trignow s =
      .next ({ s with x := { s.x with op := opTrignow }, curOp := opTrignow }.endedWith [] .paramError 0 0)

/-- An operand out of range, or a zero clock, completes the operation with ParamError before any word: nothing changes but
what acceptance latches and the result, whatever the transport would answer (decision D6; log 17). -/
def Obligations.InvalidOperandsSendNothing : Prop :=
  ∀ s : State, s.busy = false → s.phase ≠ .uninitialized → 1 ≤ s.pace →
    (∀ freq wave msb trig, s.refclk = 0 ∨ freq.toNat = 0 ∨ 2147483647 < freq.toNat →
      exec (.single freq wave msb trig) s =
        .next ({ s with
            x := { s.x with op := opSingle, freq := freq, wave := wave, msb := msb, trig := trig },
            curOp := opSingle }.endedWith [] .paramError 0 0)) ∧
    (∀ cfg wave msb trig syncsel syncout,
      s.refclk = 0 ∨ cfg.freq.toNat = 0 ∨ 2147483647 < cfg.freq.toNat ∨ 2147483647 < cfg.delta.toNat ∨
        cfg.ninc.toNat < 2 ∨ 4095 < cfg.ninc.toNat ∨ cfg.tint.toNat < 2 ∨ 2047 < cfg.tint.toNat →
      exec (.sweep cfg wave msb trig syncsel syncout) s =
        .next ({ s with
            x := { s.x with op := opSweep }.loadSweep cfg wave msb trig syncsel syncout,
            curOp := opSweep }.endedWith [] .paramError 0 0)) ∧
    (s.refclk = 0 →
      exec .selftest s =
        .next ({ s with
            x := { s.x with op := opSelftest }.loadSweep selftestConfig .sine true .automatic .endOfScan true,
            curOp := opSelftest }.endedWith [] .paramError 0 0))

/-- R175: no retry and no rollback, over every step. After a transfer answered `Busy` or `Error` the step sends nothing
more, the operation has nothing left to do but to report the failure, and every other register holds what the transfers
before it gave it. The premise on an outstanding word is part of SequencerInv. -/
def Obligations.NothingIsSentAfterAFailedWord : Prop :=
  ∀ s t : State, s.rst = false → (∀ k w, s.pending = .shift k w → classify w = some k) → step s = .next t →
    ∃ es, t.history = s.history ++ es ∧
      ∀ before e after w, es = before ++ e :: after → failedWord e = some w →
        (∀ e' ∈ after, e'.isXfer = false) ∧ t.plan = [] ∧
        (t.busy = false ∨ (∃ k c, t.pending = .frameEnd k (.error c)) ∨ ∃ st g c, t.pending = .raise st g c) ∧
        ∀ a, a ≠ (tagOf w).toNat → t.chip.read a = (before.foldl chipAfterEvent s.chip).read a

/-- The whole state after such a failure: the result with the step of the word's group and the transport's code, `ctx.last`
the word that failed, Configured once the control word was written (and, for the control word itself, the phase as it was
after `Busy`, Idle after `Error`), no pulse (section 4 of 60_exceptions.md; decisions D10, D18, D19, D20). -/
def Obligations.FirstFailureFixesTheResult : Prop :=
  ∀ (i : Instr) (s : State) (x : Latches) (ws : List Word) (k : Nat) (ps : List Bool) (ss : List ShiftAnswer) (c : ErrCode),
    operationOf i s = some (x, some ws) → s.busy = false → s.phase ≠ .uninitialized → s.bound = true → 25 ≤ s.pace →
    k < ws.length →
    (s.polls = List.replicate k true ++ false :: ps → s.shifts = List.replicate k .ok ++ ss →
      exec i s =
        .next ({ s with
            x := x, curOp := x.op, last := ws.getD k 0, polls := ps, shifts := ss,
            pinFs := if k = 0 then s.pinFs else true, phase := if k = 0 then s.phase else .configured,
            chip := chipAfterWords s.chip (ws.take k) }.endedWith
          (okFrames s.handle (ws.take k) ++ [Event.xfer s.handle (ws.getD k 0) .busy]) .transportBusy (stepCodes.getD k 0) 0)) ∧
    (s.polls = List.replicate (k + 1) true ++ ps → s.shifts = List.replicate k .ok ++ .error c :: ss →
      exec i s =
        .next ({ s with
            x := x, curOp := x.op, last := ws.getD k 0, polls := ps, shifts := ss, pinFs := true,
            phase := if k = 0 then .idle else .configured,
            chip := (chipAfterWords s.chip (ws.take k)).write (tagOf (ws.getD k 0)).toNat .unknown }.endedWith
          (okFrames s.handle (ws.take k) ++ frameEvents s.handle (ws.getD k 0) (.error c)) .transportError
          (stepCodes.getD k 0) c))

/-- An operation whose polls have run out at word `k` stands waiting there: busy, at slot `k`, with the words from `k` on
and the trigger stage still to come, and nothing of word `k` on the wire (the model's inputs, log 2; phase D20). -/
def Obligations.OperationWaitsForThePoll : Prop :=
  ∀ (i : Instr) (s : State) (x : Latches) (ws : List Word) (k : Nat) (ss : List ShiftAnswer),
    operationOf i s = some (x, some ws) → s.busy = false → s.phase ≠ .uninitialized →
    s.bound = true → 25 ≤ s.pace → k < ws.length → s.polls = List.replicate k true → s.shifts = List.replicate k .ok ++ ss →
    exec i s =
      .next { s with
        x := x, curOp := x.op, busy := true, seqIdx := BitVec.ofNat 3 k, last := ws.getD k 0, polls := [], shifts := ss,
        plan := (ws.drop k).map .word ++ triggerProgram x.trig, pending := .none, pinFs := if k = 0 then s.pinFs else true, phase := if k = 0 then s.phase else .configured,
        chip := chipAfterWords s.chip (ws.take k), history := s.history ++ okFrames s.handle (ws.take k) }

/-- With no transport bound every register-writing operation that passes validation ends with TransportBusy(1), `ctx.last`
its control word, and no event but the result; and no step sends a word unless one was already outstanding (decision
D17). -/
def Obligations.UnboundOperationsEndBusy : Prop :=
  (∀ (i : Instr) (s : State) (x : Latches) (w : Word) (ws : List Word),
    operationOf i s = some (x, some (w :: ws)) → s.busy = false → s.phase ≠ .uninitialized → s.bound = false →
    1 ≤ s.pace →
    exec i s = .next ({ s with x := x, curOp := x.op, last := w }.endedWith [] .transportBusy 1 0)) ∧
  (∀ s t : State, s.rst = false → s.bound = false → (∀ k w, s.pending ≠ .shift k w) → step s = .next t →
    ∃ es, t.history = s.history ++ es ∧ ∀ e ∈ es, e.isXfer = false)

/-- Acceptance of a command: while an operation executes it has no move (decision D24, log 16); else it is one step, in
which the latches it carries and the opcode are written, the operation begins at slot 0, and nothing else changes; a
reserved opcode is accepted likewise. What each operation has then to do is its program. That a command refused before INIT
is latched all the same is the model's reading (log 17). -/
def Obligations.AcceptanceIsOneStepWhenIdle : Prop :=
  (∀ (i : Instr) (s : State), isCommand i = true → s.busy = true → exec i s = .refused .commandWhileBusy) ∧
  (∀ s : State, s.busy = false → s.pace = 0 →
    (∀ c, exec (.init c) s =
      .next { s with
        x := { s.x with op := opInit, refclk := c }, curOp := opInit, busy := true, seqIdx := 0,
        plan := [.pin .trig false, .pin .int false, .pin .fs true, .pin .stby false, .newContext], pending := .none }) ∧
    (∀ h, exec (.bind h) s =
      .next { s with
        x := { s.x with op := opBind, handle := h }, curOp := opBind, busy := true, seqIdx := 0, plan := [.attach],
        pending := .none }) ∧
    (∀ i x ws, operationOf i s = some (x, some ws) → s.phase ≠ .uninitialized →
      exec i s =
        .next { s with
          x := x, curOp := x.op, busy := true, seqIdx := 0, plan := ws.map .word ++ triggerProgram x.trig,
          pending := .none }) ∧
    (∀ i x, operationOf i s = some (x, none) ∨ (∃ ws, operationOf i s = some (x, ws) ∧ s.phase = .uninitialized) →
      exec i s =
        .next { s with
          x := x, curOp := x.op, busy := true, seqIdx := 0, plan := [], pending := .raise .paramError 0 0 }) ∧
    (s.phase ≠ .uninitialized →
      exec .trignow s =
        .next { s with
          x := { s.x with op := opTrignow }, curOp := opTrignow, busy := true, seqIdx := 0, plan := [.pulse],
          pending := .none }))

/-- Who writes what, over all instructions: the clock and the interrupt-equivalent and standby lines only INIT, the handle
only BIND, the binding only those two; no instruction writes the reset and command ports and the pace (sections 2
and 7 of 10_state.md). That the handle keeps its value through INIT is the model's choice (log 6). -/
def Obligations.ContextIsWrittenOnlyByInitAndBind : Prop :=
  ∀ (i : Instr) (s t : State), exec i s = .next t →
    ((∀ c, i ≠ .init c) → t.refclk = s.refclk ∧ t.pinInt = s.pinInt ∧ t.pinStby = s.pinStby) ∧
    ((∀ h, i ≠ .bind h) → t.handle = s.handle) ∧
    ((∀ c, i ≠ .init c) → (∀ h, i ≠ .bind h) → t.bound = s.bound) ∧
    t.rst = s.rst ∧ t.commands = s.commands ∧ t.pace = s.pace

/-- The frame of SINGLE, SWEEP and SELFTEST, whatever is answered and at every pace: the clock, the binding, the lines held low, and every
chip register that none of the operation's words addresses (so SINGLE leaves the delta, interval and count registers). That a command refused before INIT
is latched all the same is the model's reading (log 17). -/
def Obligations.OperationFrame : Prop :=
  ∀ (i : Instr) (s t : State) (x : Latches) (ws : Option (List Word)),
    operationOf i s = some (x, ws) → exec i s = .next t →
    t.x = x ∧ t.curOp = x.op ∧ t.refclk = s.refclk ∧ t.handle = s.handle ∧ t.bound = s.bound ∧
    t.pinInt = s.pinInt ∧ t.pinStby = s.pinStby ∧ t.rst = s.rst ∧ t.commands = s.commands ∧ t.pace = s.pace ∧
    (∀ a, (∀ w ∈ ws.getD [], (tagOf w).toNat ≠ a) → t.chip.read a = s.chip.read a)

/-- A command raises the trigger line only in TRIGNOW, or in an Automatic SINGLE, SWEEP or SELFTEST after the frames of all
its words, each answered `Ok`; the pulse is the last external act: after the rising edge come only the hold, the falling
edge and the result (section 3 of 43_write_engine.md). -/
def Obligations.PulseIsTheLastAct : Prop :=
  ∀ (i : Instr) (s t : State) (es : List Event), isCommand i = true → exec i s = .next t → t.history = s.history ++ es →
    Event.pin .trig true ∈ es →
    (i = .trignow ∧ s.phase ≠ .uninitialized ∧ ∃ tail, es = .pin .trig true :: tail ∧
      tail <+: [.delay 100, .pin .trig false, .result opTrignow .ok 0 0]) ∨
    (∃ x ws tail, operationOf i s = some (x, some ws) ∧ x.trig = .automatic ∧
      es = okFrames s.handle ws ++ .pin .trig true :: tail ∧
      tail <+: [.delay 100, .pin .trig false, .result x.op .ok 0 0])

/-! ## The step -/

/-- A step runs what is decoded: in a block that is not busy the instruction of the next command, taken from the port; in a
busy block with nothing begun that of the next word, taken from the plan (logs 1 and 4). -/
def Obligations.StepRunsTheDecodedInstruction : Prop :=
  ∀ (s : State) (i : Instr), s.rst = false →
    (∀ f rest, s.busy = false → s.commands = f :: rest → decode (.command f) = .ok i →
      step s = exec i { s with commands := rest }) ∧
    (∀ w rest, s.busy = true → s.pending = .none → s.plan = .word w :: rest → decode (.word w) = .ok i →
      step s = exec i { s with plan := rest })

/-- A step with nothing to run: an idle block with no command stays as it is, a reserved opcode is accepted and completes
with ParamError, and a word of no kind is refused (section 5 of 30_encoding.md, section 1 of 70_reset_and_hazards.md, D23).
That a reserved opcode too is latched at acceptance is the model's reading (log 17). -/
def Obligations.StepWithoutAnInstruction : Prop :=
  ∀ s : State, s.rst = false →
    (s.busy = false → s.commands = [] → step s = .next s) ∧
    (∀ f rest, s.busy = false → s.commands = f :: rest → 6 ≤ f.op.toNat →
      (s.pace = 0 →
        step s =
          .next { s with
            commands := rest, x := { s.x with op := f.op }, curOp := f.op, busy := true, seqIdx := 0, plan := [],
            pending := .raise .paramError 0 0 }) ∧
      (1 ≤ s.pace →
        step s =
          .next ({ s with commands := rest, x := { s.x with op := f.op }, curOp := f.op }.endedWith [] .paramError 0 0))) ∧
    (∀ w rest, s.busy = true → s.pending = .none → s.plan = .word w :: rest → classify w = none → ∃ r, step s = .refused r)

/-- A step of any pace is an unbroken run of steps at pace 0, the grain of R8, at most as many as the pace and one (decision
D1, log 1). -/
def Obligations.AStepIsARunOfSingleSteps : Prop :=
  ∀ s t : State, s.rst = false → step s = .next t →
    ∃ k, k ≤ s.pace + 1 ∧ core.run k { s with pace := 0 } = .next { t with pace := 0 }

/-- A word that is handed over: with no answer yet the block stands still; the answer is one step, the end of its frame
the next, and then the operation is at its next slot, or reports TransportError in one more; at a higher pace these steps
go together (the model's inputs and grain, logs 1 and 2; decisions D10, D20). -/
def Obligations.OutstandingShiftReturns : Prop :=
  ∀ (s : State) (k : WordKind), s.rst = false → s.busy = true →
    (∀ w, s.pending = .shift k w → classify w = some k →
      (s.shifts = [] → step s = .next s) ∧
      (∀ ss, s.shifts = .ok :: ss →
        let t : State := { s with
          shifts := ss, chip := s.chip.write (tagOf w).toNat (.known (payloadOf w)),
          history := s.history ++ [.xfer s.handle w .ok] }
        (s.pace = 0 → step s = .next { t with pending := .frameEnd k .ok }) ∧
        (1 ≤ s.pace →
          step s =
            .next { t with
              pinFs := true, pending := .none, seqIdx := nextSlot k s.curOp, phase := phaseAfterOk k s.curOp s.phase,
              history := t.history ++ [.pin .fs true] })) ∧
      (∀ ss c, s.shifts = .error c :: ss →
        let t : State := { s with
          shifts := ss, chip := s.chip.write (tagOf w).toNat .unknown, plan := [],
          history := s.history ++ [.xfer s.handle w (.error c)] }
        (s.pace = 0 → step s = .next { t with pending := .frameEnd k (.error c) }) ∧
        (2 ≤ s.pace →
          step s =
            .next ({ t with pinFs := true, phase := if k = WordKind.ctrl then .idle else s.phase }.endedWith
              [.pin .fs true] .transportError (stepOf k) c)))) ∧
    (s.pending = .frameEnd k .ok →
      step s =
        .next { s with
          pinFs := true, pending := .none, seqIdx := nextSlot k s.curOp, phase := phaseAfterOk k s.curOp s.phase,
          history := s.history ++ [.pin .fs true] }) ∧
    (∀ c, s.pending = .frameEnd k (.error c) → s.pace = 0 →
      step s =
        .next { s with
          pinFs := true, plan := [], pending := .raise .transportError (stepOf k) c,
          phase := if k = WordKind.ctrl then .idle else s.phase, history := s.history ++ [.pin .fs true] }) ∧
    (∀ st g c, s.pending = .raise st g c → step s = .next (s.endedWith [] st g c))

/-- The trigger pulse of an operation in progress, step by step at every pace: the line rises, the hold ends when the delay
collaborator completes it and not before, the line falls and the phase moves; and an operation with nothing left to do
completes with Ok, so an External one does so without a pulse (the model's inputs, log 3; phase D20). -/
def Obligations.TriggerPulseStepByStep : Prop :=
  ∀ s : State, s.rst = false → s.busy = true →
    (∀ rest, s.pending = .none → s.plan = .pulse :: rest →
      step s =
        .next { s with
          plan := rest, seqIdx := 7, pinTrig := true, pending := .hold, history := s.history ++ [.pin .trig true] }) ∧
    (s.pending = .hold → s.delays = 0 → step s = .next s) ∧
    (∀ n, s.pending = .hold → s.delays = n + 1 →
      step s = .next { s with delays := n, pending := .pulseEnd, history := s.history ++ [.delay 100] }) ∧
    (s.pending = .pulseEnd →
      step s =
        .next { s with
          pinTrig := false, pending := .none,
          phase := if s.curOp = opTrignow then (if s.phase = Phase.armed ∨ s.phase = Phase.running then .running else s.phase)
            else .running,
          history := s.history ++ [.pin .trig false] }) ∧
    (s.pending = .none → s.plan = [] → step s = .next (s.endedWith [] .ok 0 0))

/-- Hardware reset, also in the middle of an operation: every piece of state as after reset and no result; nothing is known
of the chip, and the register of a word in flight is unknown (decisions D14, D25, D29, log 5; the levels and operands left
unspecified take the values of log 6). -/
def Obligations.HardwareResetEndsTheOperation : Prop :=
  ∀ s : State, s.rst = true →
    ∃ m : Memory,
      step s =
        .next { State.reset with
          chip := m, commands := s.commands, polls := s.polls, shifts := s.shifts, delays := s.delays, pace := s.pace } ∧
      (∀ a k w, s.pending = .shift k w → m.read a = if a = addressOf k then some .unknown else none) ∧
      ((∀ k w, s.pending ≠ .shift k w) → m = [])

/-- What reset leaves: no context, no operation, no result, nothing known of the chip, and a block that does nothing until
a command comes (phase from KEPSZ, the other values decision D14). -/
def Obligations.ResetStateValues : Prop :=
  State.reset.phase = .uninitialized ∧ State.reset.refclk = 0 ∧ State.reset.bound = false ∧ State.reset.last = 0 ∧
  State.reset.busy = false ∧ State.reset.curOp = 0 ∧ State.reset.seqIdx = 0 ∧
  State.reset.resStatus = .ok ∧ State.reset.resStep = 0 ∧ State.reset.resCode = 0 ∧
  (∀ a, State.reset.chip.read a = none) ∧ State.reset.history = [] ∧ step State.reset = .next State.reset

/-! ## Invariants -/

/-- The five invariants hold after reset. -/
def Obligations.ResetMeetsTheInvariants : Prop :=
  ChipInv State.reset ∧ LinesInv State.reset ∧ ResultInv State.reset ∧ SequencerInv State.reset ∧ WireInv State.reset

/-- Every step keeps the chip registers in canonical form, with none written but the eight. -/
def Obligations.StepKeepsChipInv : Prop :=
  ∀ s t : State, ChipInv s → step s = .next t → ChipInv t

/-- Every step keeps the levels of the four lines (derived in sections 1 and 3 of 43_write_engine.md and section 7 of
60_exceptions.md). -/
def Obligations.StepKeepsLinesInv : Prop :=
  ∀ s t : State, LinesInv s → step s = .next t → LinesInv t

/-- Every step leaves a legal result record (section 5 of 30_encoding.md, D10, D11). -/
def Obligations.StepKeepsResultInv : Prop :=
  ∀ s t : State, ResultInv s → step s = .next t → ResultInv t

/-- Every step keeps the sequencer index, the words left, and the phase together (sections 5 of 10_state.md and 8 of
44_sequencer_operations.md, D1, D20). -/
def Obligations.StepKeepsSequencerInv : Prop :=
  ∀ s t : State, SequencerInv s → step s = .next t → SequencerInv t

/-- Every step keeps the external events in order: whole frames and whole pulses, one at a time (section 4 of
20_memory.md). -/
def Obligations.StepKeepsWireInv : Prop :=
  ∀ s t : State, WireInv s → step s = .next t → WireInv t

/-- The ghost chip is what the transfers say: without reset, a step adds events to the history and the chip registers
change by those events alone. The premise is part of SequencerInv. -/
def Obligations.ChipFollowsTheTransfers : Prop :=
  ∀ s t : State, s.rst = false → (∀ k w, s.pending = .shift k w → classify w = some k) → step s = .next t →
    ∃ es, t.history = s.history ++ es ∧ t.chip = es.foldl chipAfterEvent s.chip

/-- No step adds more events than its pace and one, so one step of R8 adds at most one; and none adds more than seven
transfers, one delay and one result. (Section 5 of 10_state.md, decision D1.) -/
def Obligations.StepSendsAtMostSevenWords : Prop :=
  ∀ s t : State, s.rst = false → step s = .next t →
    ∃ es, t.history = s.history ++ es ∧ es.length ≤ s.pace + 1 ∧ es.countP Event.isXfer ≤ 7 ∧
      es.countP Event.isResult ≤ 1 ∧
      es.countP (fun e => match e with | .delay _ => true | .xfer _ _ _ => false | .pin _ _ => false | .result _ _ _ _ => false) ≤ 1

/-- No step ends in a fault. -/
def Obligations.StepNeverFaults : Prop :=
  ∀ (s : State) (r : Fault), step s ≠ .fault r

/-- An operation completes when its collaborators answer: a busy block with enough polls, answers and one completed hold
ahead is idle again within twenty-five steps at any pace (section 8 of 44_sequencer_operations.md). -/
def Obligations.AnsweredOperationsComplete : Prop :=
  ∀ s : State, SequencerInv s → s.rst = false → s.busy = true →
    7 ≤ s.polls.length → 7 ≤ s.shifts.length → 1 ≤ s.delays →
    ∃ n t, n ≤ 25 ∧ core.run n s = .next t ∧ t.busy = false
end

