-- ==== Sys2Proof/Laws/Memory.lean ====
section
/-! SUPPORT. The laws of the ghost chip register space: read after write, and that a write keeps the canonical form. -/

namespace Sys2Proof.Machine

theorem Memory.read_write_same (m : Memory) (a : Nat) (v : RegView) : (m.write a v).read a = some v := by
  induction m with
  | nil => simp [Memory.write, Memory.read]
  | cons c rest ih =>
    unfold Memory.write
    split
    · simp [Memory.read]
    · split
      · simp [Memory.read]
      · rename_i h1 h2
        have : c.1 ≠ a := fun h => h2 h.symm
        simpa [Memory.read, this] using ih

theorem Memory.read_write_other (m : Memory) (a b : Nat) (v : RegView) (h : b ≠ a) :
    (m.write a v).read b = m.read b := by
  induction m with
  | nil => simp [Memory.write, Memory.read, h.symm]
  | cons c rest ih =>
    unfold Memory.write
    split
    · simp [Memory.read, h.symm]
    · split
      · rename_i h1 h2
        simp [Memory.read, h.symm, ← h2]
      · simp only [Memory.read, ih]

theorem Memory.mem_write (m : Memory) (a : Nat) (v : RegView) (c : Nat × RegView) (h : c ∈ m.write a v) :
    c.1 = a ∨ c ∈ m := by
  induction m with
  | nil => simp_all [Memory.write]
  | cons d rest ih =>
    unfold Memory.write at h
    split at h
    · rcases List.mem_cons.1 h with rfl | h
      · exact .inl rfl
      · exact .inr h
    · split at h
      · rcases List.mem_cons.1 h with rfl | h
        · exact .inl rfl
        · exact .inr (List.mem_cons_of_mem _ h)
      · rcases List.mem_cons.1 h with rfl | h
        · exact .inr (List.mem_cons_self ..)
        · exact (ih h).imp id (List.mem_cons_of_mem _)

/-- The canonical form, as a bound on the addresses and a strict order. -/
theorem Memory.wf_iff (m : Memory) :
    m.wf = true ↔ (∀ c ∈ m, c.1 < 16) ∧ m.Pairwise (fun c d => c.1 < d.1) := by
  induction m with
  | nil => simp [Memory.wf]
  | cons c m ih =>
    cases m with
    | nil => simp [Memory.wf]
    | cons d m =>
      simp only [Memory.wf, Bool.and_eq_true, decide_eq_true_eq, ih, List.pairwise_cons, List.forall_mem_cons]
      constructor
      · rintro ⟨h, ⟨hd, hm⟩, hp, hpm⟩
        exact ⟨⟨by omega, hd, hm⟩, ⟨h, fun e he => h.trans (hp e he)⟩, hp, hpm⟩
      · rintro ⟨⟨_, hd, hm⟩, ⟨h, _⟩, hp, hpm⟩
        exact ⟨h, ⟨hd, hm⟩, hp, hpm⟩

theorem Memory.write_wf (m : Memory) (a : Nat) (v : RegView) (ha : a < 16) (h : m.wf = true) :
    (m.write a v).wf = true := by
  rw [Memory.wf_iff] at h ⊢
  refine ⟨fun c hc => (Memory.mem_write m a v c hc).elim (· ▸ ha) (h.1 c), ?_⟩
  obtain ⟨-, hp⟩ := h
  induction m with
  | nil => simp [Memory.write]
  | cons d rest ih =>
    rw [List.pairwise_cons] at hp
    unfold Memory.write
    split
    · rename_i hlt
      refine List.pairwise_cons.2 ⟨fun e he => ?_, List.pairwise_cons.2 hp⟩
      rcases List.mem_cons.1 he with rfl | he
      · exact hlt
      · exact Nat.lt_trans hlt (hp.1 e he)
    · split
      · rename_i h1 h2
        exact List.pairwise_cons.2 ⟨fun e he => h2 ▸ hp.1 e he, hp.2⟩
      · rename_i h1 h2
        refine List.pairwise_cons.2 ⟨fun e he => ?_, ih hp.2⟩
        rcases Memory.mem_write rest a v e he with h | h
        · omega
        · exact hp.1 e h

theorem addressOf_lt (k : WordKind) : addressOf k < 16 := by cases k <;> decide

theorem addressOf_injective : ∀ k l : WordKind, addressOf k = addressOf l → k = l := by
  intro k l; cases k <;> cases l <;> decide

end Sys2Proof.Machine
end

