-- ==== Sys2Proof/Laws/Words.lean ====
section
/-! SUPPORT. The bits of the command words: tag and payload of a built word, the rows of R90, and that executing the
instruction a word decodes to is the framed write of that very word. -/

namespace Sys2Proof.Machine

/-! ## Tag and payload -/

/-- The bits of a tag followed by a payload. -/
theorem getLsbD_word (t : Tag) (p : Payload) (i : Nat) :
    BitVec.getLsbD (w := 16) (t ++ p) i = if i < 12 then p.getLsbD i else t.getLsbD (i - 12) := by
  exact (BitVec.getLsbD_append (x := t) (y := p) (i := i)).trans (by simp)

/-- A word of a kind is the kind's tag followed by the payload. -/
theorem tagged_eq_append (k : WordKind) (p : Payload) : tagged k p = k.tag ++ p := by
  apply BitVec.eq_of_getLsbD_eq
  intro i hi
  rw [getLsbD_word, tagged]
  by_cases h : i < 12
  · simp [h, hi]
  · have h4 : i - 12 < 4 := by omega
    have hp : p.getLsbD i = false := BitVec.getLsbD_of_ge p i (by omega)
    simp [h, hi, hp]

theorem tagOf_append (t : Tag) (p : Payload) : tagOf (t ++ p) = t := by
  apply BitVec.eq_of_getLsbD_eq
  intro i hi
  rw [tagOf, BitVec.getLsbD_extractLsb', getLsbD_word]
  simp [hi]

theorem payloadOf_append (t : Tag) (p : Payload) : payloadOf (t ++ p) = p := by
  apply BitVec.eq_of_getLsbD_eq
  intro i hi
  rw [payloadOf, BitVec.getLsbD_extractLsb', getLsbD_word]
  simp [hi]

theorem tagOf_tagged (k : WordKind) (p : Payload) : tagOf (tagged k p) = k.tag := by
  rw [tagged_eq_append, tagOf_append]

theorem payloadOf_tagged (k : WordKind) (p : Payload) : payloadOf (tagged k p) = p := by
  rw [tagged_eq_append, payloadOf_append]

/-- A word is its tag followed by its payload (R70). -/
theorem tagOf_append_payloadOf (w : Word) : tagOf w ++ payloadOf w = w := by
  apply BitVec.eq_of_getLsbD_eq
  intro i hi
  rw [getLsbD_word]
  split
  · simp [payloadOf, *]
  · have : 12 + (i - 12) = i := by omega
    have h2 : i - 12 < 4 := by omega
    simp [tagOf, this, h2]

theorem tagged_payloadOf (k : WordKind) (w : Word) (h : tagOf w = k.tag) : tagged k (payloadOf w) = w := by
  rw [tagged_eq_append, ← h]
  exact tagOf_append_payloadOf w

/-! ## The rows of R90 -/

/-- The mask of a kind's row. -/
def maskOf : WordKind → Word
  | .ctrl => 0xF8D3
  | .nincr => 0xF000
  | .dfLo => 0xF000
  | .dfHi => 0xF000
  | .tintWave => 0xF800
  | .tintClk => 0xF800
  | .fsLo => 0xF000
  | .fsHi => 0xF000

/-- The pattern of a kind's row. -/
def patternOf : WordKind → Word
  | .ctrl => 0x08D3
  | .nincr => 0x1000
  | .dfLo => 0x2000
  | .dfHi => 0x3000
  | .tintWave => 0x4000
  | .tintClk => 0x6000
  | .fsLo => 0xC000
  | .fsHi => 0xD000

/-- Two rows never match one word: their patterns differ in a bit both masks keep. -/
theorem rows_disjoint (k l : WordKind) (w : Word) (hk : w &&& maskOf k = patternOf k) (hl : w &&& maskOf l = patternOf l) :
    k = l := by
  have h : patternOf k &&& maskOf l = patternOf l &&& maskOf k := by
    rw [← hk, ← hl, BitVec.and_assoc, BitVec.and_assoc, BitVec.and_comm (maskOf k)]
  revert h
  cases k <;> cases l <;> decide

/-- The kind of a word is the one row it matches. -/
theorem classify_iff (w : Word) (k : WordKind) : classify w = some k ↔ w &&& maskOf k = patternOf k := by
  constructor
  · intro h
    unfold classify at h
    obtain ⟨r, hr, rfl⟩ := Option.map_eq_some_iff.1 h
    have hm := List.mem_of_find?_eq_some hr
    have hp : w &&& r.mask = r.pattern := by simpa using List.find?_some hr
    simp only [wordRows, List.mem_cons, List.not_mem_nil, or_false] at hm
    rcases hm with rfl | rfl | rfl | rfl | rfl | rfl | rfl | rfl <;> exact hp
  · intro h
    cases hc : classify w with
    | none =>
      unfold classify at hc
      rw [Option.map_eq_none_iff, List.find?_eq_none] at hc
      have := hc ⟨k, patternOf k, maskOf k⟩ (by cases k <;> simp [wordRows, patternOf, maskOf])
      simp [h] at this
    | some l =>
      have hl : w &&& maskOf l = patternOf l := by
        unfold classify at hc
        obtain ⟨r, hr, rfl⟩ := Option.map_eq_some_iff.1 hc
        have hm := List.mem_of_find?_eq_some hr
        have hp : w &&& r.mask = r.pattern := by simpa using List.find?_some hr
        simp only [wordRows, List.mem_cons, List.not_mem_nil, or_false] at hm
        rcases hm with rfl | rfl | rfl | rfl | rfl | rfl | rfl | rfl <;> exact hp
      rw [rows_disjoint k l w h hl]

/-- One bit of a matching word that its row fixes. -/
theorem fixed_bit (w : Word) (k : WordKind) (h : classify w = some k) (i : Nat) (hm : (maskOf k).getLsbD i = true) :
    w.getLsbD i = (patternOf k).getLsbD i := by
  rw [← (classify_iff w k).1 h, BitVec.getLsbD_and, hm, Bool.and_true]

theorem tagOf_of_classify (w : Word) (k : WordKind) (h : classify w = some k) : tagOf w = k.tag := by
  apply BitVec.eq_of_getLsbD_eq
  intro i hi
  have hb := fixed_bit w k h (12 + i)
  simp only [tagOf, BitVec.getLsbD_extractLsb', hi, decide_true, Bool.true_and]
  have : i = 0 ∨ i = 1 ∨ i = 2 ∨ i = 3 := by omega
  rcases this with rfl | rfl | rfl | rfl <;> (rw [hb (by cases k <;> decide)]; cases k <;> decide)

/-- The one place where the tag decides alone: five kinds fix nothing but the tag. -/
theorem classify_tagged (k : WordKind) (hk : maskOf k = 0xF000) (p : Payload) : classify (tagged k p) = some k := by
  rw [classify_iff]
  apply BitVec.eq_of_getLsbD_eq
  intro i hi
  rw [BitVec.getLsbD_and, tagged_eq_append, getLsbD_word, hk]
  by_cases h : i < 12
  · have : ∀ j, j < 12 → (0xF000#16).getLsbD j = false ∧ (patternOf k).getLsbD j = false := by
      cases k <;> first | decide | (simp [maskOf] at hk)
    simp [h, (this i h).1, (this i h).2]
  · have : ∀ j, j < 16 → ¬ j < 12 → (k.tag.getLsbD (j - 12) && (0xF000#16).getLsbD j) = (patternOf k).getLsbD j := by
      cases k <;> decide
    simp only [h, if_false]
    exact this i hi h

theorem decode_word_of_classify (w : Word) (k : WordKind) (h : classify w = some k) :
    decode (.word w) = .ok (readFields k w) := by simp [decode, decodeWord, h]

theorem decode_word_of_no_kind (w : Word) (h : classify w = none) : decode (.word w) = .error (whyNoWord w) := by
  simp [decode, decodeWord, h]

/-! ## What a decoded word builds -/

theorem waveform_code_ofCode (b : BitVec 1) : (Waveform.ofCode b).code = b := by revert b; decide

theorem triggerSource_code_ofCode (b : BitVec 1) : (TriggerSource.ofCode b).code = b := by revert b; decide

theorem syncPolicy_code_ofCode (b : BitVec 1) : (SyncPolicy.ofCode b).code = b := by revert b; decide

/-- The sixteen bits of the control word (R74), as its builder makes them. -/
theorem buildCtrl_bits (f : ControlFlags) (i : Nat) (hi : i < 16) :
    (buildCtrl f).getLsbD i =
      if i = 2 then f.syncout
      else if i = 3 then f.syncsel.code.getLsbD 0
      else if i = 5 then f.trig.code.getLsbD 0
      else if i = 8 then f.msb
      else if i = 9 then f.wave.code.getLsbD 0
      else if i = 10 then f.dac
      else (0x08D3#16).getLsbD i := by
  obtain ⟨dac, wave, msb, trig, syncsel, syncout⟩ := f
  revert i
  cases dac <;> cases wave <;> cases msb <;> cases trig <;> cases syncsel <;> cases syncout <;> decide

/-- The flags read from a control word build that word. -/
theorem buildCtrl_readFields (w : Word) (h : classify w = some .ctrl) :
    ∃ f, readFields .ctrl w = .wCtrl f ∧ buildCtrl f = w := by
  refine ⟨_, rfl, ?_⟩
  apply BitVec.eq_of_getLsbD_eq
  intro i hi
  rw [buildCtrl_bits _ i hi]
  have hb := fixed_bit w .ctrl h i
  simp only [waveform_code_ofCode, triggerSource_code_ofCode, syncPolicy_code_ofCode, BitVec.getLsbD_extractLsb']
  interval_cases i <;> first | (rw [hb (by decide)]; rfl) | simp

theorem setWidth_payload (w : Word) : ((w.extractLsb' 0 12).setWidth 16).setWidth 12 = payloadOf w := by
  rw [payloadOf]
  apply BitVec.eq_of_getLsbD_eq
  intro i hi
  simp [hi]

theorem intervalPayload_readFields (w : Word) (h : w.getLsbD 11 = false) :
    intervalPayload ((w.extractLsb' 0 11).setWidth 16) = payloadOf w := by
  rw [payloadOf, intervalPayload]
  apply BitVec.eq_of_getLsbD_eq
  intro i hi
  simp only [BitVec.getLsbD_setWidth, BitVec.getLsbD_extractLsb', hi, decide_true, Bool.true_and, Nat.zero_add]
  by_cases hlt : i < 11
  · have : i < 16 := by omega
    simp [hlt, this]
  · obtain rfl : i = 11 := by omega
    rw [h]
    rfl

/-- Executing the instruction that a word decodes to is the framed write of that word, but for a count below 2, which its
builder answers with ParamError (R146 to R148, R170). -/
theorem exec_readFields (w : Word) (k : WordKind) (s : State) (h : classify w = some k) (hp : s.pending = .none) :
    exec (readFields k w) s =
      .next (if built k w then ({ s with busy := true }.beginWord k w).writeTicks s.pace else s.raiseParam) := by
  have ht := tagOf_of_classify w k h
  have hw := tagged_payloadOf k w ht
  have interval : w.getLsbD 11 = false → ((w.extractLsb' 0 11).setWidth 16 : BitVec 16) = (payloadOf w).setWidth 16 := by
    intro h11
    rw [← intervalPayload_readFields w h11, intervalPayload]
    apply BitVec.eq_of_getLsbD_eq
    intro i hi
    by_cases h1 : i < 11
    · simp [h1, hi]
    · simp [h1]
  have same (k : WordKind) (ht : tagOf w = k.tag) (h11 : w.getLsbD 11 = false) :
      tagged k (intervalPayload ((payloadOf w).setWidth 16)) = w := by
    rw [← interval h11, intervalPayload_readFields w h11, tagged_payloadOf k w ht]
  cases k with
  | ctrl =>
    obtain ⟨f, hf, hb⟩ := buildCtrl_readFields w h
    simp [hf, exec, execWCtrl, hb, State.issueWord, hp, built]
  | dfLo => simp [readFields, exec, execWDfLo, hw, State.issueWord, hp, built]
  | dfHi => simp [readFields, exec, execWDfHi, hw, State.issueWord, hp, built]
  | fsLo => simp [readFields, exec, execWFsLo, hw, State.issueWord, hp, built]
  | fsHi => simp [readFields, exec, execWFsHi, hw, State.issueWord, hp, built]
  | nincr =>
    simp only [readFields, exec, execWNincr, buildNincr, setWidth_payload, hw, built]
    rw [show w.extractLsb' 0 12 = payloadOf w from rfl]
    split <;> rename_i hr <;> simp [hr, State.issueBuilt, State.issueWord, hp]
  | tintWave =>
    have h11 : w.getLsbD 11 = false := by rw [fixed_bit w _ h 11 (by decide)]; decide
    simp only [readFields, exec, execWTintWave, buildTintWave, built, interval h11, same _ ht h11]
    split <;> rename_i hr <;> simp [hr, State.issueBuilt, State.issueWord, hp]
  | tintClk =>
    have h11 : w.getLsbD 11 = false := by rw [fixed_bit w _ h 11 (by decide)]; decide
    simp only [readFields, exec, execWTintClk, buildTintClk, built, interval h11, same _ ht h11]
    split <;> rename_i hr <;> simp [hr, State.issueBuilt, State.issueWord, hp]

end Sys2Proof.Machine
end

