-- ==== Sys2Proof/Laws/Operands.lean ====
section
/-! SUPPORT. The operand functions, said once: what a successful conversion gives, the range tests as inequalities, the
words of the builders as tag and payload with their kinds, and the words of an operation whose operands are in range. -/

namespace Sys2Proof.Machine

/-! ## Conversion and ranges (R100, R101, R146, R147, R194) -/

/-- A conversion that succeeds was in range, and its result is the quotient's low 24 bits. -/
theorem conv_some (f c : Hertz) (z : Bool) (tw : Tuning) (h : conv f c z = some tw) :
    c.toNat ≠ 0 ∧ f.toNat ≤ 2147483647 ∧ ¬ (f.toNat = 0 ∧ z = false) ∧ tw = BitVec.ofNat 24 (quotient f c) := by
  unfold conv Config.freqMax at h
  split at h
  · cases h
  · split at h
    · cases h
    · split at h
      · cases h
      · cases h
        exact ⟨‹_›, by omega, ‹_›, rfl⟩

/-- A conversion in range succeeds. -/
theorem conv_of_range (f c : Hertz) (z : Bool) (hc : c.toNat ≠ 0) (hf : f.toNat ≤ 2147483647)
    (hz : ¬ (f.toNat = 0 ∧ z = false)) : conv f c z = some (BitVec.ofNat 24 (quotient f c)) := by
  unfold conv Config.freqMax
  rw [if_neg hc, if_neg (by omega), if_neg hz]

theorem freqInRange_iff (f : Hertz) : freqInRange f = true ↔ 1 ≤ f.toNat ∧ f.toNat ≤ 2147483647 := by
  unfold freqInRange; rw [Bool.and_eq_true, decide_eq_true_iff, decide_eq_true_iff]; rfl

theorem deltaInRange_iff (f : Hertz) : deltaInRange f = true ↔ f.toNat ≤ 2147483647 := by
  unfold deltaInRange; rw [decide_eq_true_iff]; rfl

theorem nincInRange_iff (n : Count) : nincInRange n = true ↔ 2 ≤ n.toNat ∧ n.toNat ≤ 4095 := by
  unfold nincInRange; rw [Bool.and_eq_true, decide_eq_true_iff, decide_eq_true_iff]; rfl

theorem tintInRange_iff (t : Count) : tintInRange t = true ↔ 2 ≤ t.toNat ∧ t.toNat ≤ 2047 := by
  unfold tintInRange; rw [Bool.and_eq_true, decide_eq_true_iff, decide_eq_true_iff]; rfl

theorem clock_ne_zero (c : Hertz) : (c != 0) = true ↔ c.toNat ≠ 0 := by simp [BitVec.toNat_eq]

/-! ## The builders' words (R141 to R149) -/

/-- The control word is the encoder's word: its top four bits are zero already. -/
theorem buildCtrl_eq (f : ControlFlags) : buildCtrl f = encodeFlags f := by
  obtain ⟨dac, wave, msb, trig, syncsel, syncout⟩ := f
  cases dac <;> cases wave <;> cases msb <;> cases trig <;> cases syncsel <;> cases syncout <;> decide

theorem classify_buildCtrl (f : ControlFlags) : classify (buildCtrl f) = some .ctrl := by
  obtain ⟨dac, wave, msb, trig, syncsel, syncout⟩ := f
  cases dac <;> cases wave <;> cases msb <;> cases trig <;> cases syncsel <;> cases syncout <;> decide

theorem classify_buildFsLo (tw : Tuning) : classify (buildFsLo tw) = some .fsLo := classify_tagged _ rfl _

theorem classify_buildFsHi (tw : Tuning) : classify (buildFsHi tw) = some .fsHi := classify_tagged _ rfl _

theorem classify_buildDfLo (twd : Tuning) : classify (buildDfLo twd) = some .dfLo := classify_tagged _ rfl _

theorem classify_buildDfHi (twd : Tuning) (d : Direction) : classify (buildDfHi twd d) = some .dfHi :=
  classify_tagged _ rfl _

theorem intervalPayload_eq (t : Count) (h : t.toNat ≤ 2047) : intervalPayload t = t.setWidth 12 := by
  apply BitVec.eq_of_toNat_eq
  simp [intervalPayload]
  omega

/-- The kind of interval word that a base selects (R149). -/
def intervalKind : IntervalBase → WordKind
  | .waveCyclesBased => .tintWave
  | .clockCyclesBased => .tintClk

/-- The interval word of an interval in range. -/
theorem buildTint_of_range (t : Count) (b : IntervalBase) (h : tintInRange t = true) :
    buildTint t b = some ((intervalKind b).tag ++ t.setWidth 12) := by
  have h2 := ((tintInRange_iff t).1 h).2
  unfold buildTint buildTintWave buildTintClk
  cases b <;> simp only [h, if_true, tagged_eq_append, intervalPayload_eq _ h2] <;> rfl

/-- The count word of a count in range. -/
theorem buildNincr_of_range (n : Count) (h : nincInRange n = true) : buildNincr n = some (0x1#4 ++ n.setWidth 12) := by
  unfold buildNincr
  rw [if_pos h, tagged_eq_append]; rfl

/-! ## The words of an operation (R196, R200) -/

/-- The three words of SINGLE with its operand in range. -/
theorem singleWords_of_valid (x : Latches) (c : Hertz) (h : validSingle x c = true) :
    singleWords x c =
      some [buildCtrl (singleFlags x), buildFsLo (BitVec.ofNat 24 (quotient x.freq c)),
        buildFsHi (BitVec.ofNat 24 (quotient x.freq c))] := by
  rw [validSingle, Bool.and_eq_true, clock_ne_zero, freqInRange_iff] at h
  simp only [singleWords, startPair, conv_of_range x.freq c false h.1 h.2.2 (by omega)]

/-- The seven words of SWEEP with its operands in range. -/
theorem sweepWords_of_valid (x : Latches) (c : Hertz) (h : validSweep x c = true) :
    sweepWords x c =
      some [buildCtrl (sweepFlags x), buildFsLo (BitVec.ofNat 24 (quotient x.freq c)),
        buildFsHi (BitVec.ofNat 24 (quotient x.freq c)), buildDfLo (BitVec.ofNat 24 (quotient x.delta c)),
        buildDfHi (BitVec.ofNat 24 (quotient x.delta c)) x.dir, (intervalKind x.base).tag ++ x.tint.setWidth 12,
        0x1#4 ++ x.ninc.setWidth 12] := by
  simp only [validSweep, Bool.and_eq_true, clock_ne_zero, freqInRange_iff, deltaInRange_iff] at h
  obtain ⟨⟨⟨⟨hc, hf⟩, hd⟩, hn⟩, ht⟩ := h
  simp only [sweepWords, startPair, deltaPair, conv_of_range x.freq c false hc hf.2 (by omega),
    conv_of_range x.delta c true hc hd (by simp), buildTint_of_range _ _ ht, buildNincr_of_range _ hn, List.cons_append,
    List.nil_append]

end Sys2Proof.Machine
end

