-- ==== Sys2Proof/Laws/State.lean ====
section
/-! SUPPORT. What each shared update of the state does to each field, once and for all: one lemma per field and update,
true by unfolding, so that no later proof unfolds an update. -/

namespace Sys2Proof.Machine

/-! ## The names of the completions -/

@[simp] theorem completeOk_eq (s : State) : s.completeOk = s.complete .ok 0 0 := rfl
@[simp] theorem raiseParam_eq (s : State) : s.raiseParam = s.complete .paramError 0 0 := rfl
@[simp] theorem raiseBusy_eq (s : State) (g : BitVec 3) : s.raiseBusy g = s.complete .transportBusy g 0 := rfl

/-! ## Appending an event -/

@[simp] theorem emit_refclk (s : State) (e : Event) : (s.emit e).refclk = s.refclk := rfl
@[simp] theorem emit_handle (s : State) (e : Event) : (s.emit e).handle = s.handle := rfl
@[simp] theorem emit_bound (s : State) (e : Event) : (s.emit e).bound = s.bound := rfl
@[simp] theorem emit_last (s : State) (e : Event) : (s.emit e).last = s.last := rfl
@[simp] theorem emit_phase (s : State) (e : Event) : (s.emit e).phase = s.phase := rfl
@[simp] theorem emit_x (s : State) (e : Event) : (s.emit e).x = s.x := rfl
@[simp] theorem emit_busy (s : State) (e : Event) : (s.emit e).busy = s.busy := rfl
@[simp] theorem emit_curOp (s : State) (e : Event) : (s.emit e).curOp = s.curOp := rfl
@[simp] theorem emit_seqIdx (s : State) (e : Event) : (s.emit e).seqIdx = s.seqIdx := rfl
@[simp] theorem emit_resStatus (s : State) (e : Event) : (s.emit e).resStatus = s.resStatus := rfl
@[simp] theorem emit_resStep (s : State) (e : Event) : (s.emit e).resStep = s.resStep := rfl
@[simp] theorem emit_resCode (s : State) (e : Event) : (s.emit e).resCode = s.resCode := rfl
@[simp] theorem emit_pinFs (s : State) (e : Event) : (s.emit e).pinFs = s.pinFs := rfl
@[simp] theorem emit_pinTrig (s : State) (e : Event) : (s.emit e).pinTrig = s.pinTrig := rfl
@[simp] theorem emit_pinInt (s : State) (e : Event) : (s.emit e).pinInt = s.pinInt := rfl
@[simp] theorem emit_pinStby (s : State) (e : Event) : (s.emit e).pinStby = s.pinStby := rfl
@[simp] theorem emit_chip (s : State) (e : Event) : (s.emit e).chip = s.chip := rfl
@[simp] theorem emit_history (s : State) (e : Event) : (s.emit e).history = s.history ++ [e] := rfl
@[simp] theorem emit_plan (s : State) (e : Event) : (s.emit e).plan = s.plan := rfl
@[simp] theorem emit_pending (s : State) (e : Event) : (s.emit e).pending = s.pending := rfl
@[simp] theorem emit_rst (s : State) (e : Event) : (s.emit e).rst = s.rst := rfl
@[simp] theorem emit_commands (s : State) (e : Event) : (s.emit e).commands = s.commands := rfl
@[simp] theorem emit_polls (s : State) (e : Event) : (s.emit e).polls = s.polls := rfl
@[simp] theorem emit_shifts (s : State) (e : Event) : (s.emit e).shifts = s.shifts := rfl
@[simp] theorem emit_delays (s : State) (e : Event) : (s.emit e).delays = s.delays := rfl
@[simp] theorem emit_pace (s : State) (e : Event) : (s.emit e).pace = s.pace := rfl

/-! ## Driving a line (R247: the others do not move) -/

@[simp] theorem setPin_refclk (s : State) (l : Pin) (b : Bool) : (s.setPin l b).refclk = s.refclk := by cases l <;> rfl
@[simp] theorem setPin_handle (s : State) (l : Pin) (b : Bool) : (s.setPin l b).handle = s.handle := by cases l <;> rfl
@[simp] theorem setPin_bound (s : State) (l : Pin) (b : Bool) : (s.setPin l b).bound = s.bound := by cases l <;> rfl
@[simp] theorem setPin_last (s : State) (l : Pin) (b : Bool) : (s.setPin l b).last = s.last := by cases l <;> rfl
@[simp] theorem setPin_phase (s : State) (l : Pin) (b : Bool) : (s.setPin l b).phase = s.phase := by cases l <;> rfl
@[simp] theorem setPin_x (s : State) (l : Pin) (b : Bool) : (s.setPin l b).x = s.x := by cases l <;> rfl
@[simp] theorem setPin_busy (s : State) (l : Pin) (b : Bool) : (s.setPin l b).busy = s.busy := by cases l <;> rfl
@[simp] theorem setPin_curOp (s : State) (l : Pin) (b : Bool) : (s.setPin l b).curOp = s.curOp := by cases l <;> rfl
@[simp] theorem setPin_seqIdx (s : State) (l : Pin) (b : Bool) : (s.setPin l b).seqIdx = s.seqIdx := by cases l <;> rfl
@[simp] theorem setPin_resStatus (s : State) (l : Pin) (b : Bool) : (s.setPin l b).resStatus = s.resStatus := by cases l <;> rfl
@[simp] theorem setPin_resStep (s : State) (l : Pin) (b : Bool) : (s.setPin l b).resStep = s.resStep := by cases l <;> rfl
@[simp] theorem setPin_resCode (s : State) (l : Pin) (b : Bool) : (s.setPin l b).resCode = s.resCode := by cases l <;> rfl
@[simp] theorem setPin_pinFs (s : State) (l : Pin) (b : Bool) : (s.setPin l b).pinFs = if l = .fs then b else s.pinFs := by cases l <;> rfl
@[simp] theorem setPin_pinTrig (s : State) (l : Pin) (b : Bool) : (s.setPin l b).pinTrig = if l = .trig then b else s.pinTrig := by cases l <;> rfl
@[simp] theorem setPin_pinInt (s : State) (l : Pin) (b : Bool) : (s.setPin l b).pinInt = if l = .int then b else s.pinInt := by cases l <;> rfl
@[simp] theorem setPin_pinStby (s : State) (l : Pin) (b : Bool) : (s.setPin l b).pinStby = if l = .stby then b else s.pinStby := by cases l <;> rfl
@[simp] theorem setPin_chip (s : State) (l : Pin) (b : Bool) : (s.setPin l b).chip = s.chip := by cases l <;> rfl
@[simp] theorem setPin_history (s : State) (l : Pin) (b : Bool) : (s.setPin l b).history = s.history ++ [.pin l b] := by cases l <;> rfl
@[simp] theorem setPin_plan (s : State) (l : Pin) (b : Bool) : (s.setPin l b).plan = s.plan := by cases l <;> rfl
@[simp] theorem setPin_pending (s : State) (l : Pin) (b : Bool) : (s.setPin l b).pending = s.pending := by cases l <;> rfl
@[simp] theorem setPin_rst (s : State) (l : Pin) (b : Bool) : (s.setPin l b).rst = s.rst := by cases l <;> rfl
@[simp] theorem setPin_commands (s : State) (l : Pin) (b : Bool) : (s.setPin l b).commands = s.commands := by cases l <;> rfl
@[simp] theorem setPin_polls (s : State) (l : Pin) (b : Bool) : (s.setPin l b).polls = s.polls := by cases l <;> rfl
@[simp] theorem setPin_shifts (s : State) (l : Pin) (b : Bool) : (s.setPin l b).shifts = s.shifts := by cases l <;> rfl
@[simp] theorem setPin_delays (s : State) (l : Pin) (b : Bool) : (s.setPin l b).delays = s.delays := by cases l <;> rfl
@[simp] theorem setPin_pace (s : State) (l : Pin) (b : Bool) : (s.setPin l b).pace = s.pace := by cases l <;> rfl

/-! ## Acceptance (R33) -/

@[simp] theorem accept_refclk (s : State) (x : Latches) (p : Option (List Action)) : (s.accept x p).refclk = s.refclk := rfl
@[simp] theorem accept_handle (s : State) (x : Latches) (p : Option (List Action)) : (s.accept x p).handle = s.handle := rfl
@[simp] theorem accept_bound (s : State) (x : Latches) (p : Option (List Action)) : (s.accept x p).bound = s.bound := rfl
@[simp] theorem accept_last (s : State) (x : Latches) (p : Option (List Action)) : (s.accept x p).last = s.last := rfl
@[simp] theorem accept_phase (s : State) (x : Latches) (p : Option (List Action)) : (s.accept x p).phase = s.phase := rfl
@[simp] theorem accept_x (s : State) (x : Latches) (p : Option (List Action)) : (s.accept x p).x = x := rfl
@[simp] theorem accept_busy (s : State) (x : Latches) (p : Option (List Action)) : (s.accept x p).busy = true := rfl
@[simp] theorem accept_curOp (s : State) (x : Latches) (p : Option (List Action)) : (s.accept x p).curOp = x.op := rfl
@[simp] theorem accept_seqIdx (s : State) (x : Latches) (p : Option (List Action)) : (s.accept x p).seqIdx = 0 := rfl
@[simp] theorem accept_resStatus (s : State) (x : Latches) (p : Option (List Action)) : (s.accept x p).resStatus = s.resStatus := rfl
@[simp] theorem accept_resStep (s : State) (x : Latches) (p : Option (List Action)) : (s.accept x p).resStep = s.resStep := rfl
@[simp] theorem accept_resCode (s : State) (x : Latches) (p : Option (List Action)) : (s.accept x p).resCode = s.resCode := rfl
@[simp] theorem accept_pinFs (s : State) (x : Latches) (p : Option (List Action)) : (s.accept x p).pinFs = s.pinFs := rfl
@[simp] theorem accept_pinTrig (s : State) (x : Latches) (p : Option (List Action)) : (s.accept x p).pinTrig = s.pinTrig := rfl
@[simp] theorem accept_pinInt (s : State) (x : Latches) (p : Option (List Action)) : (s.accept x p).pinInt = s.pinInt := rfl
@[simp] theorem accept_pinStby (s : State) (x : Latches) (p : Option (List Action)) : (s.accept x p).pinStby = s.pinStby := rfl
@[simp] theorem accept_chip (s : State) (x : Latches) (p : Option (List Action)) : (s.accept x p).chip = s.chip := rfl
@[simp] theorem accept_history (s : State) (x : Latches) (p : Option (List Action)) : (s.accept x p).history = s.history := rfl
@[simp] theorem accept_plan (s : State) (x : Latches) (p : Option (List Action)) : (s.accept x p).plan = p.getD [] := rfl
@[simp] theorem accept_pending (s : State) (x : Latches) (p : Option (List Action)) : (s.accept x p).pending = pendingOf p := rfl
@[simp] theorem accept_rst (s : State) (x : Latches) (p : Option (List Action)) : (s.accept x p).rst = s.rst := rfl
@[simp] theorem accept_commands (s : State) (x : Latches) (p : Option (List Action)) : (s.accept x p).commands = s.commands := rfl
@[simp] theorem accept_polls (s : State) (x : Latches) (p : Option (List Action)) : (s.accept x p).polls = s.polls := rfl
@[simp] theorem accept_shifts (s : State) (x : Latches) (p : Option (List Action)) : (s.accept x p).shifts = s.shifts := rfl
@[simp] theorem accept_delays (s : State) (x : Latches) (p : Option (List Action)) : (s.accept x p).delays = s.delays := rfl
@[simp] theorem accept_pace (s : State) (x : Latches) (p : Option (List Action)) : (s.accept x p).pace = s.pace := rfl

/-! ## Completion (R33, R36) -/

@[simp] theorem complete_refclk (s : State) (st : Status) (g : BitVec 3) (c : ErrCode) : (s.complete st g c).refclk = s.refclk := rfl
@[simp] theorem complete_handle (s : State) (st : Status) (g : BitVec 3) (c : ErrCode) : (s.complete st g c).handle = s.handle := rfl
@[simp] theorem complete_bound (s : State) (st : Status) (g : BitVec 3) (c : ErrCode) : (s.complete st g c).bound = s.bound := rfl
@[simp] theorem complete_last (s : State) (st : Status) (g : BitVec 3) (c : ErrCode) : (s.complete st g c).last = s.last := rfl
@[simp] theorem complete_phase (s : State) (st : Status) (g : BitVec 3) (c : ErrCode) : (s.complete st g c).phase = s.phase := rfl
@[simp] theorem complete_x (s : State) (st : Status) (g : BitVec 3) (c : ErrCode) : (s.complete st g c).x = s.x := rfl
@[simp] theorem complete_busy (s : State) (st : Status) (g : BitVec 3) (c : ErrCode) : (s.complete st g c).busy = false := rfl
@[simp] theorem complete_curOp (s : State) (st : Status) (g : BitVec 3) (c : ErrCode) : (s.complete st g c).curOp = s.curOp := rfl
@[simp] theorem complete_seqIdx (s : State) (st : Status) (g : BitVec 3) (c : ErrCode) : (s.complete st g c).seqIdx = 0 := rfl
@[simp] theorem complete_resStatus (s : State) (st : Status) (g : BitVec 3) (c : ErrCode) : (s.complete st g c).resStatus = st := rfl
@[simp] theorem complete_resStep (s : State) (st : Status) (g : BitVec 3) (c : ErrCode) : (s.complete st g c).resStep = g := rfl
@[simp] theorem complete_resCode (s : State) (st : Status) (g : BitVec 3) (c : ErrCode) : (s.complete st g c).resCode = c := rfl
@[simp] theorem complete_pinFs (s : State) (st : Status) (g : BitVec 3) (c : ErrCode) : (s.complete st g c).pinFs = s.pinFs := rfl
@[simp] theorem complete_pinTrig (s : State) (st : Status) (g : BitVec 3) (c : ErrCode) : (s.complete st g c).pinTrig = s.pinTrig := rfl
@[simp] theorem complete_pinInt (s : State) (st : Status) (g : BitVec 3) (c : ErrCode) : (s.complete st g c).pinInt = s.pinInt := rfl
@[simp] theorem complete_pinStby (s : State) (st : Status) (g : BitVec 3) (c : ErrCode) : (s.complete st g c).pinStby = s.pinStby := rfl
@[simp] theorem complete_chip (s : State) (st : Status) (g : BitVec 3) (c : ErrCode) : (s.complete st g c).chip = s.chip := rfl
@[simp] theorem complete_history (s : State) (st : Status) (g : BitVec 3) (c : ErrCode) : (s.complete st g c).history = s.history ++ [.result s.curOp st g c] := rfl
@[simp] theorem complete_plan (s : State) (st : Status) (g : BitVec 3) (c : ErrCode) : (s.complete st g c).plan = [] := rfl
@[simp] theorem complete_pending (s : State) (st : Status) (g : BitVec 3) (c : ErrCode) : (s.complete st g c).pending = .none := rfl
@[simp] theorem complete_rst (s : State) (st : Status) (g : BitVec 3) (c : ErrCode) : (s.complete st g c).rst = s.rst := rfl
@[simp] theorem complete_commands (s : State) (st : Status) (g : BitVec 3) (c : ErrCode) : (s.complete st g c).commands = s.commands := rfl
@[simp] theorem complete_polls (s : State) (st : Status) (g : BitVec 3) (c : ErrCode) : (s.complete st g c).polls = s.polls := rfl
@[simp] theorem complete_shifts (s : State) (st : Status) (g : BitVec 3) (c : ErrCode) : (s.complete st g c).shifts = s.shifts := rfl
@[simp] theorem complete_delays (s : State) (st : Status) (g : BitVec 3) (c : ErrCode) : (s.complete st g c).delays = s.delays := rfl
@[simp] theorem complete_pace (s : State) (st : Status) (g : BitVec 3) (c : ErrCode) : (s.complete st g c).pace = s.pace := rfl

/-! ## The answer to a word (R170) -/

@[simp] theorem answered_refclk (s : State) (k : WordKind) (w : Word) (r : ShiftAnswer) : (s.answered k w r).refclk = s.refclk := rfl
@[simp] theorem answered_handle (s : State) (k : WordKind) (w : Word) (r : ShiftAnswer) : (s.answered k w r).handle = s.handle := rfl
@[simp] theorem answered_bound (s : State) (k : WordKind) (w : Word) (r : ShiftAnswer) : (s.answered k w r).bound = s.bound := rfl
@[simp] theorem answered_last (s : State) (k : WordKind) (w : Word) (r : ShiftAnswer) : (s.answered k w r).last = s.last := rfl
@[simp] theorem answered_phase (s : State) (k : WordKind) (w : Word) (r : ShiftAnswer) : (s.answered k w r).phase = s.phase := rfl
@[simp] theorem answered_x (s : State) (k : WordKind) (w : Word) (r : ShiftAnswer) : (s.answered k w r).x = s.x := rfl
@[simp] theorem answered_busy (s : State) (k : WordKind) (w : Word) (r : ShiftAnswer) : (s.answered k w r).busy = s.busy := rfl
@[simp] theorem answered_curOp (s : State) (k : WordKind) (w : Word) (r : ShiftAnswer) : (s.answered k w r).curOp = s.curOp := rfl
@[simp] theorem answered_seqIdx (s : State) (k : WordKind) (w : Word) (r : ShiftAnswer) : (s.answered k w r).seqIdx = s.seqIdx := rfl
@[simp] theorem answered_resStatus (s : State) (k : WordKind) (w : Word) (r : ShiftAnswer) : (s.answered k w r).resStatus = s.resStatus := rfl
@[simp] theorem answered_resStep (s : State) (k : WordKind) (w : Word) (r : ShiftAnswer) : (s.answered k w r).resStep = s.resStep := rfl
@[simp] theorem answered_resCode (s : State) (k : WordKind) (w : Word) (r : ShiftAnswer) : (s.answered k w r).resCode = s.resCode := rfl
@[simp] theorem answered_pinFs (s : State) (k : WordKind) (w : Word) (r : ShiftAnswer) : (s.answered k w r).pinFs = s.pinFs := rfl
@[simp] theorem answered_pinTrig (s : State) (k : WordKind) (w : Word) (r : ShiftAnswer) : (s.answered k w r).pinTrig = s.pinTrig := rfl
@[simp] theorem answered_pinInt (s : State) (k : WordKind) (w : Word) (r : ShiftAnswer) : (s.answered k w r).pinInt = s.pinInt := rfl
@[simp] theorem answered_pinStby (s : State) (k : WordKind) (w : Word) (r : ShiftAnswer) : (s.answered k w r).pinStby = s.pinStby := rfl
@[simp] theorem answered_chip (s : State) (k : WordKind) (w : Word) (r : ShiftAnswer) : (s.answered k w r).chip = s.chip.write (addressOf k) (viewAfter w r) := rfl
@[simp] theorem answered_history (s : State) (k : WordKind) (w : Word) (r : ShiftAnswer) : (s.answered k w r).history = s.history ++ [.xfer s.handle w r.answer] := rfl
@[simp] theorem answered_plan (s : State) (k : WordKind) (w : Word) (r : ShiftAnswer) : (s.answered k w r).plan = match r with | .ok => s.plan | .error _ => [] := rfl
@[simp] theorem answered_pending (s : State) (k : WordKind) (w : Word) (r : ShiftAnswer) : (s.answered k w r).pending = .frameEnd k r := rfl
@[simp] theorem answered_rst (s : State) (k : WordKind) (w : Word) (r : ShiftAnswer) : (s.answered k w r).rst = s.rst := rfl
@[simp] theorem answered_commands (s : State) (k : WordKind) (w : Word) (r : ShiftAnswer) : (s.answered k w r).commands = s.commands := rfl
@[simp] theorem answered_polls (s : State) (k : WordKind) (w : Word) (r : ShiftAnswer) : (s.answered k w r).polls = s.polls := rfl
@[simp] theorem answered_shifts (s : State) (k : WordKind) (w : Word) (r : ShiftAnswer) : (s.answered k w r).shifts = s.shifts := rfl
@[simp] theorem answered_delays (s : State) (k : WordKind) (w : Word) (r : ShiftAnswer) : (s.answered k w r).delays = s.delays := rfl
@[simp] theorem answered_pace (s : State) (k : WordKind) (w : Word) (r : ShiftAnswer) : (s.answered k w r).pace = s.pace := rfl

/-! ## The end of a frame answered Ok (R170, R174, R35) -/

@[simp] theorem frameEnds_ok_refclk (s : State) (k : WordKind) : (s.frameEnds k .ok).refclk = s.refclk := rfl
@[simp] theorem frameEnds_ok_handle (s : State) (k : WordKind) : (s.frameEnds k .ok).handle = s.handle := rfl
@[simp] theorem frameEnds_ok_bound (s : State) (k : WordKind) : (s.frameEnds k .ok).bound = s.bound := rfl
@[simp] theorem frameEnds_ok_last (s : State) (k : WordKind) : (s.frameEnds k .ok).last = s.last := rfl
@[simp] theorem frameEnds_ok_phase (s : State) (k : WordKind) : (s.frameEnds k .ok).phase = phaseAfterOk k s.curOp s.phase := rfl
@[simp] theorem frameEnds_ok_x (s : State) (k : WordKind) : (s.frameEnds k .ok).x = s.x := rfl
@[simp] theorem frameEnds_ok_busy (s : State) (k : WordKind) : (s.frameEnds k .ok).busy = s.busy := rfl
@[simp] theorem frameEnds_ok_curOp (s : State) (k : WordKind) : (s.frameEnds k .ok).curOp = s.curOp := rfl
@[simp] theorem frameEnds_ok_seqIdx (s : State) (k : WordKind) : (s.frameEnds k .ok).seqIdx = nextSlot k s.curOp := rfl
@[simp] theorem frameEnds_ok_resStatus (s : State) (k : WordKind) : (s.frameEnds k .ok).resStatus = s.resStatus := rfl
@[simp] theorem frameEnds_ok_resStep (s : State) (k : WordKind) : (s.frameEnds k .ok).resStep = s.resStep := rfl
@[simp] theorem frameEnds_ok_resCode (s : State) (k : WordKind) : (s.frameEnds k .ok).resCode = s.resCode := rfl
@[simp] theorem frameEnds_ok_pinFs (s : State) (k : WordKind) : (s.frameEnds k .ok).pinFs = true := rfl
@[simp] theorem frameEnds_ok_pinTrig (s : State) (k : WordKind) : (s.frameEnds k .ok).pinTrig = s.pinTrig := rfl
@[simp] theorem frameEnds_ok_pinInt (s : State) (k : WordKind) : (s.frameEnds k .ok).pinInt = s.pinInt := rfl
@[simp] theorem frameEnds_ok_pinStby (s : State) (k : WordKind) : (s.frameEnds k .ok).pinStby = s.pinStby := rfl
@[simp] theorem frameEnds_ok_chip (s : State) (k : WordKind) : (s.frameEnds k .ok).chip = s.chip := rfl
@[simp] theorem frameEnds_ok_history (s : State) (k : WordKind) : (s.frameEnds k .ok).history = s.history ++ [.pin .fs true] := rfl
@[simp] theorem frameEnds_ok_plan (s : State) (k : WordKind) : (s.frameEnds k .ok).plan = s.plan := rfl
@[simp] theorem frameEnds_ok_pending (s : State) (k : WordKind) : (s.frameEnds k .ok).pending = .none := rfl
@[simp] theorem frameEnds_ok_rst (s : State) (k : WordKind) : (s.frameEnds k .ok).rst = s.rst := rfl
@[simp] theorem frameEnds_ok_commands (s : State) (k : WordKind) : (s.frameEnds k .ok).commands = s.commands := rfl
@[simp] theorem frameEnds_ok_polls (s : State) (k : WordKind) : (s.frameEnds k .ok).polls = s.polls := rfl
@[simp] theorem frameEnds_ok_shifts (s : State) (k : WordKind) : (s.frameEnds k .ok).shifts = s.shifts := rfl
@[simp] theorem frameEnds_ok_delays (s : State) (k : WordKind) : (s.frameEnds k .ok).delays = s.delays := rfl
@[simp] theorem frameEnds_ok_pace (s : State) (k : WordKind) : (s.frameEnds k .ok).pace = s.pace := rfl

/-! ## The end of a frame answered Error (R170, R174) -/

@[simp] theorem frameEnds_error_refclk (s : State) (k : WordKind) (c : ErrCode) : (s.frameEnds k (.error c)).refclk = s.refclk := rfl
@[simp] theorem frameEnds_error_handle (s : State) (k : WordKind) (c : ErrCode) : (s.frameEnds k (.error c)).handle = s.handle := rfl
@[simp] theorem frameEnds_error_bound (s : State) (k : WordKind) (c : ErrCode) : (s.frameEnds k (.error c)).bound = s.bound := rfl
@[simp] theorem frameEnds_error_last (s : State) (k : WordKind) (c : ErrCode) : (s.frameEnds k (.error c)).last = s.last := rfl
@[simp] theorem frameEnds_error_phase (s : State) (k : WordKind) (c : ErrCode) : (s.frameEnds k (.error c)).phase = phaseAfterError k s.phase := rfl
@[simp] theorem frameEnds_error_x (s : State) (k : WordKind) (c : ErrCode) : (s.frameEnds k (.error c)).x = s.x := rfl
@[simp] theorem frameEnds_error_busy (s : State) (k : WordKind) (c : ErrCode) : (s.frameEnds k (.error c)).busy = s.busy := rfl
@[simp] theorem frameEnds_error_curOp (s : State) (k : WordKind) (c : ErrCode) : (s.frameEnds k (.error c)).curOp = s.curOp := rfl
@[simp] theorem frameEnds_error_seqIdx (s : State) (k : WordKind) (c : ErrCode) : (s.frameEnds k (.error c)).seqIdx = s.seqIdx := rfl
@[simp] theorem frameEnds_error_resStatus (s : State) (k : WordKind) (c : ErrCode) : (s.frameEnds k (.error c)).resStatus = s.resStatus := rfl
@[simp] theorem frameEnds_error_resStep (s : State) (k : WordKind) (c : ErrCode) : (s.frameEnds k (.error c)).resStep = s.resStep := rfl
@[simp] theorem frameEnds_error_resCode (s : State) (k : WordKind) (c : ErrCode) : (s.frameEnds k (.error c)).resCode = s.resCode := rfl
@[simp] theorem frameEnds_error_pinFs (s : State) (k : WordKind) (c : ErrCode) : (s.frameEnds k (.error c)).pinFs = true := rfl
@[simp] theorem frameEnds_error_pinTrig (s : State) (k : WordKind) (c : ErrCode) : (s.frameEnds k (.error c)).pinTrig = s.pinTrig := rfl
@[simp] theorem frameEnds_error_pinInt (s : State) (k : WordKind) (c : ErrCode) : (s.frameEnds k (.error c)).pinInt = s.pinInt := rfl
@[simp] theorem frameEnds_error_pinStby (s : State) (k : WordKind) (c : ErrCode) : (s.frameEnds k (.error c)).pinStby = s.pinStby := rfl
@[simp] theorem frameEnds_error_chip (s : State) (k : WordKind) (c : ErrCode) : (s.frameEnds k (.error c)).chip = s.chip := rfl
@[simp] theorem frameEnds_error_history (s : State) (k : WordKind) (c : ErrCode) : (s.frameEnds k (.error c)).history = s.history ++ [.pin .fs true] := rfl
@[simp] theorem frameEnds_error_plan (s : State) (k : WordKind) (c : ErrCode) : (s.frameEnds k (.error c)).plan = [] := rfl
@[simp] theorem frameEnds_error_pending (s : State) (k : WordKind) (c : ErrCode) : (s.frameEnds k (.error c)).pending = .raise .transportError (stepOf k) c := rfl
@[simp] theorem frameEnds_error_rst (s : State) (k : WordKind) (c : ErrCode) : (s.frameEnds k (.error c)).rst = s.rst := rfl
@[simp] theorem frameEnds_error_commands (s : State) (k : WordKind) (c : ErrCode) : (s.frameEnds k (.error c)).commands = s.commands := rfl
@[simp] theorem frameEnds_error_polls (s : State) (k : WordKind) (c : ErrCode) : (s.frameEnds k (.error c)).polls = s.polls := rfl
@[simp] theorem frameEnds_error_shifts (s : State) (k : WordKind) (c : ErrCode) : (s.frameEnds k (.error c)).shifts = s.shifts := rfl
@[simp] theorem frameEnds_error_delays (s : State) (k : WordKind) (c : ErrCode) : (s.frameEnds k (.error c)).delays = s.delays := rfl
@[simp] theorem frameEnds_error_pace (s : State) (k : WordKind) (c : ErrCode) : (s.frameEnds k (.error c)).pace = s.pace := rfl

/-! ## The first step of a pulse (R176) -/

@[simp] theorem pulseBegins_refclk (s : State) : (s.pulseBegins).refclk = s.refclk := rfl
@[simp] theorem pulseBegins_handle (s : State) : (s.pulseBegins).handle = s.handle := rfl
@[simp] theorem pulseBegins_bound (s : State) : (s.pulseBegins).bound = s.bound := rfl
@[simp] theorem pulseBegins_last (s : State) : (s.pulseBegins).last = s.last := rfl
@[simp] theorem pulseBegins_phase (s : State) : (s.pulseBegins).phase = s.phase := rfl
@[simp] theorem pulseBegins_x (s : State) : (s.pulseBegins).x = s.x := rfl
@[simp] theorem pulseBegins_busy (s : State) : (s.pulseBegins).busy = s.busy := rfl
@[simp] theorem pulseBegins_curOp (s : State) : (s.pulseBegins).curOp = s.curOp := rfl
@[simp] theorem pulseBegins_seqIdx (s : State) : (s.pulseBegins).seqIdx = 7 := rfl
@[simp] theorem pulseBegins_resStatus (s : State) : (s.pulseBegins).resStatus = s.resStatus := rfl
@[simp] theorem pulseBegins_resStep (s : State) : (s.pulseBegins).resStep = s.resStep := rfl
@[simp] theorem pulseBegins_resCode (s : State) : (s.pulseBegins).resCode = s.resCode := rfl
@[simp] theorem pulseBegins_pinFs (s : State) : (s.pulseBegins).pinFs = s.pinFs := rfl
@[simp] theorem pulseBegins_pinTrig (s : State) : (s.pulseBegins).pinTrig = true := rfl
@[simp] theorem pulseBegins_pinInt (s : State) : (s.pulseBegins).pinInt = s.pinInt := rfl
@[simp] theorem pulseBegins_pinStby (s : State) : (s.pulseBegins).pinStby = s.pinStby := rfl
@[simp] theorem pulseBegins_chip (s : State) : (s.pulseBegins).chip = s.chip := rfl
@[simp] theorem pulseBegins_history (s : State) : (s.pulseBegins).history = s.history ++ [.pin .trig true] := rfl
@[simp] theorem pulseBegins_plan (s : State) : (s.pulseBegins).plan = s.plan := rfl
@[simp] theorem pulseBegins_pending (s : State) : (s.pulseBegins).pending = .hold := rfl
@[simp] theorem pulseBegins_rst (s : State) : (s.pulseBegins).rst = s.rst := rfl
@[simp] theorem pulseBegins_commands (s : State) : (s.pulseBegins).commands = s.commands := rfl
@[simp] theorem pulseBegins_polls (s : State) : (s.pulseBegins).polls = s.polls := rfl
@[simp] theorem pulseBegins_shifts (s : State) : (s.pulseBegins).shifts = s.shifts := rfl
@[simp] theorem pulseBegins_delays (s : State) : (s.pulseBegins).delays = s.delays := rfl
@[simp] theorem pulseBegins_pace (s : State) : (s.pulseBegins).pace = s.pace := rfl

/-! ## The last step of a pulse (R176, R210) -/

@[simp] theorem pulseEnds_refclk (s : State) : (s.pulseEnds).refclk = s.refclk := rfl
@[simp] theorem pulseEnds_handle (s : State) : (s.pulseEnds).handle = s.handle := rfl
@[simp] theorem pulseEnds_bound (s : State) : (s.pulseEnds).bound = s.bound := rfl
@[simp] theorem pulseEnds_last (s : State) : (s.pulseEnds).last = s.last := rfl
@[simp] theorem pulseEnds_phase (s : State) : (s.pulseEnds).phase = phaseAfterPulse s.curOp s.phase := rfl
@[simp] theorem pulseEnds_x (s : State) : (s.pulseEnds).x = s.x := rfl
@[simp] theorem pulseEnds_busy (s : State) : (s.pulseEnds).busy = s.busy := rfl
@[simp] theorem pulseEnds_curOp (s : State) : (s.pulseEnds).curOp = s.curOp := rfl
@[simp] theorem pulseEnds_seqIdx (s : State) : (s.pulseEnds).seqIdx = s.seqIdx := rfl
@[simp] theorem pulseEnds_resStatus (s : State) : (s.pulseEnds).resStatus = s.resStatus := rfl
@[simp] theorem pulseEnds_resStep (s : State) : (s.pulseEnds).resStep = s.resStep := rfl
@[simp] theorem pulseEnds_resCode (s : State) : (s.pulseEnds).resCode = s.resCode := rfl
@[simp] theorem pulseEnds_pinFs (s : State) : (s.pulseEnds).pinFs = s.pinFs := rfl
@[simp] theorem pulseEnds_pinTrig (s : State) : (s.pulseEnds).pinTrig = false := rfl
@[simp] theorem pulseEnds_pinInt (s : State) : (s.pulseEnds).pinInt = s.pinInt := rfl
@[simp] theorem pulseEnds_pinStby (s : State) : (s.pulseEnds).pinStby = s.pinStby := rfl
@[simp] theorem pulseEnds_chip (s : State) : (s.pulseEnds).chip = s.chip := rfl
@[simp] theorem pulseEnds_history (s : State) : (s.pulseEnds).history = s.history ++ [.pin .trig false] := rfl
@[simp] theorem pulseEnds_plan (s : State) : (s.pulseEnds).plan = s.plan := rfl
@[simp] theorem pulseEnds_pending (s : State) : (s.pulseEnds).pending = .none := rfl
@[simp] theorem pulseEnds_rst (s : State) : (s.pulseEnds).rst = s.rst := rfl
@[simp] theorem pulseEnds_commands (s : State) : (s.pulseEnds).commands = s.commands := rfl
@[simp] theorem pulseEnds_polls (s : State) : (s.pulseEnds).polls = s.polls := rfl
@[simp] theorem pulseEnds_shifts (s : State) : (s.pulseEnds).shifts = s.shifts := rfl
@[simp] theorem pulseEnds_delays (s : State) : (s.pulseEnds).delays = s.delays := rfl
@[simp] theorem pulseEnds_pace (s : State) : (s.pulseEnds).pace = s.pace := rfl

end Sys2Proof.Machine
end

