-- ==== Sys2Proof/Laws/Ops.lean ====
section
/-! SUPPORT. What each shared operation can do, said once: the outcomes of one step of R8, and how a property is carried
through the steps of an operation. -/

namespace Sys2Proof.Machine

/-! ## The framed word write (R170, R174) -/

/-- With no transport bound nothing is sent and the operation ends with TransportBusy (R170, decision D17). -/
theorem beginWord_unbound (s : State) (k : WordKind) (w : Word) (h : s.bound = false) :
    s.beginWord k w = { s with last := w }.complete .transportBusy (stepOf k) 0 := by
  simp [State.beginWord, h]

/-- While the poll has no result the word stays to be written. -/
theorem beginWord_unpolled (s : State) (k : WordKind) (w : Word) (h : s.bound = true) (hp : s.polls = []) :
    s.beginWord k w = { s with last := w, plan := .word w :: s.plan } := by
  simp [State.beginWord, h, hp]

/-- A busy link: nothing is sent, no pin moves, TransportBusy is raised (R170, R171, R233). -/
theorem beginWord_busy (s : State) (k : WordKind) (w : Word) (ps : List Bool) (h : s.bound = true)
    (hp : s.polls = false :: ps) :
    s.beginWord k w =
      { { s with last := w, polls := ps }.emit (.xfer s.handle w .busy) with
        plan := [], pending := .raise .transportBusy (stepOf k) 0 } := by
  simp [State.beginWord, h, hp]

/-- A ready link: the frame is open (R170). -/
theorem beginWord_ready (s : State) (k : WordKind) (w : Word) (ps : List Bool) (h : s.bound = true)
    (hp : s.polls = true :: ps) :
    s.beginWord k w = { { s with last := w, polls := ps }.setPin .fs false with pending := .shift k w } := by
  simp [State.beginWord, h, hp]

/-- A property of every outcome of the first step of a word write. -/
theorem beginWord_induct {P : State → Prop} (s : State) (k : WordKind) (w : Word)
    (hunbound : s.bound = false → P ({ s with last := w }.complete .transportBusy (stepOf k) 0))
    (hunpolled : s.bound = true → s.polls = [] → P { s with last := w, plan := .word w :: s.plan })
    (hbusy : ∀ ps, s.bound = true → s.polls = false :: ps →
      P { { s with last := w, polls := ps }.emit (.xfer s.handle w .busy) with
        plan := [], pending := .raise .transportBusy (stepOf k) 0 })
    (hready : ∀ ps, s.bound = true → s.polls = true :: ps →
      P { { s with last := w, polls := ps }.setPin .fs false with pending := .shift k w }) :
    P (s.beginWord k w) := by
  cases hb : s.bound with
  | false => rw [beginWord_unbound s k w hb]; exact hunbound hb
  | true =>
    match hp : s.polls with
    | [] => rw [beginWord_unpolled s k w hb hp]; exact hunpolled hb hp
    | false :: ps => rw [beginWord_busy s k w ps hb hp]; exact hbusy ps hb hp
    | true :: ps => rw [beginWord_ready s k w ps hb hp]; exact hready ps hb hp

/-! ## One step of R8 -/

/-- With nothing begun and nothing left to do the operation completes. -/
theorem proceed_done (s : State) (hp : s.pending = .none) (hl : s.plan = []) : s.proceed = s.complete .ok 0 0 := by
  simp [State.proceed, hp, hl]

/-- With nothing begun the next statement begins. -/
theorem proceed_begin (s : State) (a : Action) (rest : List Action) (hp : s.pending = .none) (hl : s.plan = a :: rest) :
    s.proceed = { s with plan := rest }.begin a := by
  simp [State.proceed, hp, hl]

/-- A word at the head of the plan, with nothing begun. -/
theorem proceed_word (s : State) (w : Word) (rest : List Action) (k : WordKind) (hp : s.pending = .none)
    (hl : s.plan = .word w :: rest) (hk : classify w = some k) :
    s.proceed = if built k w then { s with plan := rest }.beginWord k w else { s with plan := rest }.raiseParam := by
  simp [State.proceed, hp, hl, State.begin, hk]

/-- A property of every outcome of one step of R8 in a busy block. The cases are: a collaborator that has not answered,
the answer to a word, the two ends of its frame, the end of the hold, the end of the pulse, a raised error, the end of
the program, a pin write, a word no builder makes or with a count out of range, the four beginnings of a word, the
beginning of a pulse, and the two completions that write the context. -/
theorem proceed_induct {P : State → Prop} (s : State)
    (hwait : P s)
    (hanswer : ∀ k w r rest, s.pending = .shift k w → s.shifts = r :: rest →
      P ({ s with shifts := rest }.answered k w r))
    (hframeOk : ∀ k, s.pending = .frameEnd k .ok → P (s.frameEnds k .ok))
    (hframeError : ∀ k c, s.pending = .frameEnd k (.error c) → P (s.frameEnds k (.error c)))
    (hhold : ∀ n, s.pending = .hold → s.delays = n + 1 →
      P { { s with delays := n }.emit (.delay Config.trigHoldUs) with pending := .pulseEnd })
    (hpulseEnd : s.pending = .pulseEnd → P s.pulseEnds)
    (hraise : ∀ st g c, s.pending = .raise st g c → P (s.complete st g c))
    (hdone : s.pending = .none → s.plan = [] → P (s.complete .ok 0 0))
    (hpin : ∀ l b rest, s.pending = .none → s.plan = .pin l b :: rest → P ({ s with plan := rest }.setPin l b))
    (hunbuilt : ∀ w rest k, s.pending = .none → s.plan = .word w :: rest → classify w = some k → built k w = false →
      P ({ s with plan := rest }.complete .paramError 0 0))
    (hunbound : ∀ w rest k, s.pending = .none → s.plan = .word w :: rest → classify w = some k → s.bound = false →
      P ({ s with plan := rest, last := w }.complete .transportBusy (stepOf k) 0))
    (hunpolled : ∀ w rest k, s.pending = .none → s.plan = .word w :: rest → classify w = some k → s.bound = true →
      s.polls = [] → P { s with last := w })
    (hbusy : ∀ w rest k ps, s.pending = .none → s.plan = .word w :: rest → classify w = some k → s.bound = true →
      s.polls = false :: ps →
      P { { s with last := w, polls := ps }.emit (.xfer s.handle w .busy) with
        plan := [], pending := .raise .transportBusy (stepOf k) 0 })
    (hready : ∀ w rest k ps, s.pending = .none → s.plan = .word w :: rest → classify w = some k → s.bound = true →
      s.polls = true :: ps →
      P { { s with plan := rest, last := w, polls := ps }.setPin .fs false with pending := .shift k w })
    (hpulse : ∀ rest, s.pending = .none → s.plan = .pulse :: rest → P { s with plan := rest }.pulseBegins)
    (hnewContext : ∀ rest, s.pending = .none → s.plan = .newContext :: rest →
      P ({ s with plan := rest, refclk := s.x.refclk, bound := false, last := 0, phase := .idle }.complete .ok 0 0))
    (hattach : ∀ rest, s.pending = .none → s.plan = .attach :: rest →
      P ({ s with plan := rest, handle := s.x.handle, bound := true }.complete .ok 0 0)) :
    P s.proceed := by
  cases hp : s.pending with
  | shift k w =>
    simp only [State.proceed, hp, State.shiftReturns]
    split
    · exact hwait
    · exact hanswer k w _ _ hp ‹_›
  | frameEnd k r =>
    simp only [State.proceed, hp]
    cases r with
    | ok => exact hframeOk k hp
    | error c => exact hframeError k c hp
  | hold =>
    simp only [State.proceed, hp, State.holdReturns]
    split
    · exact hwait
    · exact hhold _ hp ‹_›
  | pulseEnd => simpa only [State.proceed, hp] using hpulseEnd hp
  | raise st g c => simpa only [State.proceed, hp] using hraise st g c hp
  | none =>
    have hsame : ∀ l, s.plan = l → ({ s with plan := l } : State) = s := fun l h => by rw [← h]
    cases hl : s.plan with
    | nil => rw [proceed_done s hp hl]; exact hdone hp hl
    | cons a rest =>
      cases a with
      | pin l b => rw [proceed_begin s _ rest hp hl]; exact hpin l b rest hp hl
      | pulse => rw [proceed_begin s _ rest hp hl]; exact hpulse rest hp hl
      | newContext => rw [proceed_begin s _ rest hp hl]; exact hnewContext rest hp hl
      | attach => rw [proceed_begin s _ rest hp hl]; exact hattach rest hp hl
      | word w =>
        cases hk : classify w with
        | none =>
          have he : s.proceed = { s with plan := .word w :: rest } := by
            rw [proceed_begin s _ rest hp hl]; simp [State.begin, hk]
          rw [he, hsame _ hl]
          exact hwait
        | some k =>
          rw [proceed_word s w rest k hp hl hk]
          cases hb : built k w with
          | false => exact hunbuilt w rest k hp hl hk hb
          | true =>
            simp only [if_true]
            refine beginWord_induct _ k w ?_ ?_ ?_ ?_
            · exact hunbound w rest k hp hl hk
            · intro h1 h2
              have := hunpolled w rest k hp hl hk h1 h2
              have he : ({ s with last := w } : State) = { s with last := w, plan := .word w :: rest } := by rw [← hl]
              rwa [he] at this
            · exact fun ps => hbusy w rest k ps hp hl hk
            · exact fun ps => hready w rest k ps hp hl hk

@[simp] theorem tick_idle (s : State) (h : s.busy = false) : s.tick = s := by simp [State.tick, h]

theorem tick_busy (s : State) (h : s.busy = true) : s.tick = s.proceed := by simp [State.tick, h]

/-! ## Many steps of R8 -/

@[simp] theorem ticks_zero (s : State) : s.ticks 0 = s := rfl

theorem ticks_succ (s : State) (n : Nat) : s.ticks (n + 1) = s.tick.ticks n := rfl

theorem ticks_add (s : State) (m n : Nat) : s.ticks (m + n) = (s.ticks m).ticks n := by
  induction m generalizing s with
  | zero => rw [Nat.zero_add]; rfl
  | succ m ih => rw [Nat.succ_add, ticks_succ, ticks_succ, ih]

@[simp] theorem ticks_idle (s : State) (n : Nat) (h : s.busy = false) : s.ticks n = s := by
  induction n with
  | zero => rfl
  | succ n ih => rw [ticks_succ, tick_idle s h, ih]

/-- What a step of R8 does not change, any number of them does not. -/
theorem ticks_keep {P : State → Prop} (hP : ∀ s, P s → P s.tick) (s : State) (n : Nat) (h : P s) : P (s.ticks n) := by
  induction n generalizing s with
  | zero => exact h
  | succ n ih => exact ih s.tick (hP s h)

/-- The steps of a word's write are steps of R8. -/
theorem writeTicks_eq_ticks (s : State) (n : Nat) : ∃ k, k ≤ n ∧ s.writeTicks n = s.ticks k := by
  induction n generalizing s with
  | zero => exact ⟨0, Nat.le_refl 0, rfl⟩
  | succ n ih =>
    unfold State.writeTicks
    split
    · obtain ⟨k, hk, he⟩ := ih s.tick
      exact ⟨k + 1, by omega, he⟩
    · exact ⟨0, by omega, rfl⟩

/-- The same, with what is known of a word that is begun. -/
theorem writeTicks_keep {P : State → Prop} (hP : ∀ s, P s → s.pending.isWrite = true → P s.tick) (s : State) (n : Nat)
    (h : P s) : P (s.writeTicks n) := by
  induction n generalizing s with
  | zero => exact h
  | succ n ih =>
    unfold State.writeTicks
    split
    · exact ih s.tick (hP s h ‹_›)
    · exact h

theorem writeTicks_stop (s : State) (n : Nat) (h : s.pending.isWrite = false) : s.writeTicks n = s := by
  cases n with
  | zero => rfl
  | succ n => simp [State.writeTicks, h]

theorem writeTicks_succ (s : State) (n : Nat) (h : s.pending.isWrite = true) :
    s.writeTicks (n + 1) = s.tick.writeTicks n := by simp [State.writeTicks, h]

end Sys2Proof.Machine
end

