-- ==== Sys2Proof/Laws/Operation.lean ====
section
/-! SUPPORT. How an operation goes through its words: the closed forms of one word's outcomes, and the state after the
first words of an operation were answered `Ok`. -/

namespace Sys2Proof.Machine

/-! ## Closed forms (R170, R174, R211) -/

theorem complete_eq_endedWith (s : State) (st : Status) (g : BitVec 3) (c : ErrCode) :
    s.complete st g c = s.endedWith [] st g c := by
  simp [State.complete, State.endedWith, State.emit]

/-- The chip address of a word is that of its kind. -/
theorem tagOf_toNat (k : WordKind) (w : Word) (h : classify w = some k) : (tagOf w).toNat = addressOf k := by
  rw [tagOf_of_classify w k h]; rfl

/-- The three steps of a word answered `Ok`, in closed form, from the state in which its frame is opened. -/
theorem word_ok_closed (s : State) (k : WordKind) (w : Word) (ps : List Bool) (ss : List ShiftAnswer)
    (hk : classify w = some k) (hbusy : s.busy = true) (hpend : s.pending = .none) (hb : s.bound = true)
    (hp : s.polls = true :: ps) (hs : s.shifts = .ok :: ss) :
    (s.beginWord k w).tick.tick = s.wroteOk w ps ss (nextSlot k s.curOp) (phaseAfterOk k s.curOp s.phase) ∧
    (s.beginWord k w).pending = .shift k w ∧ (s.beginWord k w).tick.pending = .frameEnd k .ok ∧
    (s.beginWord k w).busy = true := by
  rw [beginWord_ready s k w ps hb hp]
  simp [State.tick, hbusy, State.proceed, State.shiftReturns, hs, State.answered, State.frameEnds, State.setPin,
    State.emit, State.wroteOk, viewAfter, ShiftAnswer.answer, frameEvents, tagOf_toNat k w hk, hpend]

/-- The steps of a word answered `Error`, up to the completion. -/
theorem word_error_closed (s : State) (k : WordKind) (w : Word) (ps : List Bool) (ss : List ShiftAnswer) (c : ErrCode)
    (hk : classify w = some k) (hbusy : s.busy = true) (hb : s.bound = true)
    (hp : s.polls = true :: ps) (hs : s.shifts = .error c :: ss) :
    (s.beginWord k w).tick.tick.tick =
      { s with
          last := w, polls := ps, shifts := ss, pinFs := true, chip := s.chip.write (tagOf w).toNat .unknown,
          phase := if k = WordKind.ctrl then .idle else s.phase }.endedWith
        (frameEvents s.handle w (.error c)) .transportError (stepOf k) c ∧
    (s.beginWord k w).pending = .shift k w ∧ (s.beginWord k w).tick.pending = .frameEnd k (.error c) ∧
    (s.beginWord k w).tick.tick.pending = .raise .transportError (stepOf k) c := by
  rw [beginWord_ready s k w ps hb hp]
  simp [State.tick, hbusy, State.proceed, State.shiftReturns, hs, State.answered, State.frameEnds, State.setPin,
    State.emit, State.endedWith, State.complete, viewAfter, ShiftAnswer.answer, frameEvents, tagOf_toNat k w hk,
    phaseAfterError]

/-- The two steps of a word answered `Busy`. -/
theorem word_busy_closed (s : State) (k : WordKind) (w : Word) (ps : List Bool) (hbusy : s.busy = true)
    (hb : s.bound = true) (hp : s.polls = false :: ps) :
    (s.beginWord k w).tick =
      { s with last := w, polls := ps }.endedWith [.xfer s.handle w .busy] .transportBusy (stepOf k) 0 ∧
    (s.beginWord k w).pending = .raise .transportBusy (stepOf k) 0 := by
  rw [beginWord_busy s k w ps hb hp]
  simp [State.tick, hbusy, State.proceed, State.emit, State.endedWith, State.complete]

/-- A whole write of a word answered `Ok`, at every pace that lets its frame end. -/
theorem writeTicks_ok (s : State) (k : WordKind) (w : Word) (ps : List Bool) (ss : List ShiftAnswer) (n : Nat) (hn : 2 ≤ n)
    (hk : classify w = some k) (hbusy : s.busy = true) (hpend : s.pending = .none) (hb : s.bound = true)
    (hp : s.polls = true :: ps) (hs : s.shifts = .ok :: ss) :
    (s.beginWord k w).writeTicks n = s.wroteOk w ps ss (nextSlot k s.curOp) (phaseAfterOk k s.curOp s.phase) := by
  obtain ⟨m, rfl⟩ : ∃ m, n = m + 1 + 1 := ⟨n - 2, by omega⟩
  obtain ⟨a, b, c, _⟩ := word_ok_closed s k w ps ss hk hbusy hpend hb hp hs
  rw [writeTicks_succ _ _ (by rw [b]; rfl), writeTicks_succ _ _ (by rw [c]; rfl), a, writeTicks_stop]
  show s.pending.isWrite = false
  rw [hpend]; rfl

/-- A whole write of a word answered `Error`, at every pace that lets the operation complete. -/
theorem writeTicks_error (s : State) (k : WordKind) (w : Word) (ps : List Bool) (ss : List ShiftAnswer) (c : ErrCode)
    (n : Nat) (hn : 3 ≤ n) (hk : classify w = some k) (hbusy : s.busy = true) (hb : s.bound = true)
    (hp : s.polls = true :: ps) (hs : s.shifts = .error c :: ss) :
    (s.beginWord k w).writeTicks n =
      { s with
          last := w, polls := ps, shifts := ss, pinFs := true, chip := s.chip.write (tagOf w).toNat .unknown,
          phase := if k = WordKind.ctrl then .idle else s.phase }.endedWith
        (frameEvents s.handle w (.error c)) .transportError (stepOf k) c := by
  obtain ⟨m, rfl⟩ : ∃ m, n = m + 1 + 1 + 1 := ⟨n - 3, by omega⟩
  obtain ⟨a, b, d, e⟩ := word_error_closed s k w ps ss c hk hbusy hb hp hs
  rw [writeTicks_succ _ _ (by rw [b]; rfl), writeTicks_succ _ _ (by rw [d]; rfl), writeTicks_succ _ _ (by rw [e]; rfl), a,
    writeTicks_stop _ _ rfl]

/-- A whole write of a word answered `Busy`. -/
theorem writeTicks_busy (s : State) (k : WordKind) (w : Word) (ps : List Bool) (n : Nat) (hn : 1 ≤ n)
    (hbusy : s.busy = true) (hb : s.bound = true) (hp : s.polls = false :: ps) :
    (s.beginWord k w).writeTicks n =
      { s with last := w, polls := ps }.endedWith [.xfer s.handle w .busy] .transportBusy (stepOf k) 0 := by
  obtain ⟨m, rfl⟩ : ∃ m, n = m + 1 := ⟨n - 1, by omega⟩
  obtain ⟨a, b⟩ := word_busy_closed s k w ps hbusy hb hp
  rw [writeTicks_succ _ _ (by rw [b]; rfl), a, writeTicks_stop _ _ rfl]

/-- The word instruction that sends a word is the framed write of it. -/
theorem exec_of_sentBy (i : Instr) (k : WordKind) (w : Word) (s : State) (h : sentBy i = some (k, w)) :
    exec i s = s.issueWord k w := by
  cases i <;> simp only [sentBy, Option.some.injEq, Prod.mk.injEq, Option.map_eq_some_iff, reduceCtorEq] at h
  case wNincr n => obtain ⟨v, hv, rfl, rfl⟩ := h; simp only [exec, execWNincr, hv, State.issueBuilt]
  case wTintWave n => obtain ⟨v, hv, rfl, rfl⟩ := h; simp only [exec, execWTintWave, hv, State.issueBuilt]
  case wTintClk n => obtain ⟨v, hv, rfl, rfl⟩ := h; simp only [exec, execWTintClk, hv, State.issueBuilt]
  all_goals obtain ⟨rfl, rfl⟩ := h; rfl

/-! ## From word to word -/

/-- A word at the head of the plan begins. -/
theorem tick_word (s : State) (w : Word) (rest : List Action) (k : WordKind) (hbusy : s.busy = true)
    (hpend : s.pending = .none) (hl : s.plan = .word w :: rest) (hk : classify w = some k) (hbt : built k w = true) :
    s.tick = { s with plan := rest }.beginWord k w := by
  rw [tick_busy s hbusy, proceed_word s w rest k hpend hl hk, if_pos hbt]

/-- An `Ok` word at the head of the plan takes three steps. -/
theorem ticks_word_ok (s : State) (w : Word) (rest : List Action) (k : WordKind) (ps : List Bool) (ss : List ShiftAnswer)
    (hbusy : s.busy = true) (hpend : s.pending = .none) (hl : s.plan = .word w :: rest) (hk : classify w = some k)
    (hbt : built k w = true) (hb : s.bound = true) (hp : s.polls = true :: ps) (hs : s.shifts = .ok :: ss) :
    s.ticks 3 = { s with plan := rest }.wroteOk w ps ss (nextSlot k s.curOp) (phaseAfterOk k s.curOp s.phase) := by
  have h := (word_ok_closed { s with plan := rest } k w ps ss hk hbusy hpend hb hp hs).1
  simp only [ticks_succ, ticks_zero, tick_word s w rest k hbusy hpend hl hk hbt]
  exact h

/-- What the sequencer needs of the kinds of an operation's words (R34, R35, R210): their slots and steps follow the write
order, the first one is the control word, and the last one is the operation's last. -/
def WriteOrder (op : Opcode) (kinds : List WordKind) : Prop :=
  ∀ k, k < kinds.length → ∀ kd, kinds[k]? = some kd →
    nextSlot kd op = (if k + 1 = kinds.length then 7 else BitVec.ofNat 3 (k + 1)) ∧
    stepOf kd = stepCodes.getD k 0 ∧ (kd = .ctrl ↔ k = 0) ∧
    (k ≠ 0 → isLastOf kd op = decide (k + 1 = kinds.length))

theorem writeOrder_single : WriteOrder opSingle [.ctrl, .fsLo, .fsHi] := by
  intro k hk kd h
  simp only [List.length] at hk
  interval_cases k <;> (cases h; decide)

theorem writeOrder_sweep (op : Opcode) (ho : op = opSweep ∨ op = opSelftest) (ti : WordKind)
    (ht : ti = .tintWave ∨ ti = .tintClk) : WriteOrder op [.ctrl, .fsLo, .fsHi, .dfLo, .dfHi, ti, .nincr] := by
  intro k hk kd h
  simp only [List.length] at hk
  rcases ho with rfl | rfl <;> rcases ht with rfl | rfl <;> interval_cases k <;> (cases h; decide)

/-- The state of an operation with the words `ws` and then `tail` after its first `k` words were answered `Ok`. -/
def State.afterWords (s : State) (ws : List Word) (tail : List Action) (k : Nat) (ps : List Bool) (ss : List ShiftAnswer) :
    State :=
  { s with
    last := if k = 0 then s.last else ws.getD (k - 1) 0
    polls := ps, shifts := ss
    pinFs := if k = 0 then s.pinFs else true
    seqIdx := if k = 0 then s.seqIdx else if k = ws.length then 7 else BitVec.ofNat 3 k
    phase := if k = 0 then s.phase else if k = ws.length then .armed else .configured
    plan := (ws.drop k).map .word ++ tail
    chip := chipAfterWords s.chip (ws.take k)
    history := s.history ++ okFrames s.handle (ws.take k) }

/-- An operation whose first `k` words are answered `Ok` has written them after three steps each. -/
theorem ticks_prefix (s : State) (ws : List Word) (tail : List Action) (kinds : List WordKind)
    (hsh : WriteOrder s.curOp kinds) (hlen : 2 ≤ kinds.length) (hkinds : ws.map classify = kinds.map some)
    (hbt : ∀ w ∈ ws, ∀ k, classify w = some k → built k w = true) (hbusy : s.busy = true) (hpend : s.pending = .none)
    (hplan : s.plan = ws.map .word ++ tail) (hb : s.bound = true) (k : Nat) :
    k ≤ ws.length → ∀ ps ss, s.polls = List.replicate k true ++ ps → s.shifts = List.replicate k .ok ++ ss →
    s.ticks (3 * k) = s.afterWords ws tail k ps ss := by
  have hl : ws.length = kinds.length := by have := congrArg List.length hkinds; simpa using this
  induction k with
  | zero =>
    intro _ ps ss h1 h2
    simp only [List.replicate, List.nil_append] at h1 h2
    simp [State.afterWords, ← h1, ← h2, ← hplan, chipAfterWords, okFrames]
  | succ k ih =>
    intro hk ps ss h1 h2
    rw [List.replicate_succ', List.append_assoc] at h1 h2
    rw [show 3 * (k + 1) = 3 * k + 3 by omega, ticks_add, ih (by omega) (true :: ps) (.ok :: ss) h1 h2]
    have hd : ws.drop k = ws[k] :: ws.drop (k + 1) := List.drop_eq_getElem_cons (by omega)
    have hkd : classify ws[k] = some kinds[k] := by
      have := congrArg (fun l => l[k]?) hkinds
      simpa [List.getElem?_map, List.getElem?_eq_getElem (show k < ws.length by omega),
        List.getElem?_eq_getElem (show k < kinds.length by omega)] using this
    rw [ticks_word_ok (s.afterWords ws tail k (true :: ps) (.ok :: ss)) ws[k] ((ws.drop (k + 1)).map .word ++ tail)
      kinds[k] ps ss hbusy hpend (by simp only [State.afterWords, hd, List.map_cons, List.cons_append]) hkd
      (hbt _ (List.getElem_mem _) _ hkd) hb rfl rfl]
    obtain ⟨a, _, c, d⟩ := hsh k (by omega) kinds[k] (List.getElem?_eq_getElem _)
    have htake : ws.take (k + 1) = ws.take k ++ [ws[k]] := by rw [List.take_append_getElem]
    have hget : ws.getD k 0 = ws[k] := by
      simp [List.getD, List.getElem?_eq_getElem (show k < ws.length by omega)]
    have hph : phaseAfterOk kinds[k] s.curOp (s.afterWords ws tail k (true :: ps) (.ok :: ss)).phase =
        if k + 1 = ws.length then .armed else .configured := by
      simp only [State.afterWords, phaseAfterOk]
      by_cases h0 : k = 0
      · rw [if_pos (c.2 h0), if_neg (by omega)]
      · rw [if_neg (fun h => h0 (c.1 h)), d h0, hl, if_neg h0, if_neg (show k ≠ kinds.length by omega)]
        by_cases hx : k + 1 = kinds.length <;> simp [hx]
    have hop : (s.afterWords ws tail k (true :: ps) (.ok :: ss)).curOp = s.curOp := rfl
    have hch : chipAfterWords s.chip (ws.take (k + 1)) =
        (chipAfterWords s.chip (ws.take k)).write (tagOf ws[k]).toNat (.known (payloadOf ws[k])) := by
      rw [htake, chipAfterWords, List.foldl_append]; rfl
    have hhi : s.history ++ okFrames s.handle (ws.take (k + 1)) =
        s.history ++ okFrames s.handle (ws.take k) ++ frameEvents s.handle ws[k] .ok := by
      rw [htake, okFrames, List.flatMap_append, List.append_assoc]; simp [okFrames]
    have hk0 : k + 1 ≠ 0 := by omega
    have hk1 : k + 1 - 1 = k := rfl
    rw [hop, hph, a, ← hl]
    unfold State.afterWords State.wroteOk
    simp only [hk1, hch, hhi, if_neg hk0, hget, hbusy]

/-! ## The end of an operation (R176, R179, R211) -/

/-- With nothing left the operation completes in one step, and stays completed. -/
theorem ticks_done (s : State) (n : Nat) (hn : 1 ≤ n) (hbusy : s.busy = true) (hpend : s.pending = .none)
    (hl : s.plan = []) : s.ticks n = s.endedWith [] .ok 0 0 := by
  obtain ⟨m, rfl⟩ : ∃ m, n = m + 1 := ⟨n - 1, by omega⟩
  rw [ticks_succ, tick_busy s hbusy, proceed_done s hpend hl, complete_eq_endedWith, ticks_idle _ _ rfl]

/-- A raised error completes in one step. -/
theorem ticks_raise (s : State) (n : Nat) (st : Status) (g : BitVec 3) (c : ErrCode) (hn : 1 ≤ n) (hbusy : s.busy = true)
    (hpend : s.pending = .raise st g c) : s.ticks n = s.endedWith [] st g c := by
  obtain ⟨m, rfl⟩ : ∃ m, n = m + 1 := ⟨n - 1, by omega⟩
  rw [ticks_succ, tick_busy s hbusy, ← complete_eq_endedWith]
  simp only [State.proceed, hpend]
  rw [ticks_idle _ _ rfl]

/-- A pulse whose hold ends, and the completion after it: four steps. -/
theorem ticks_pulse (s : State) (n d : Nat) (hn : 4 ≤ n) (hbusy : s.busy = true) (hpend : s.pending = .none)
    (hl : s.plan = [.pulse]) (hd : s.delays = d + 1) :
    s.ticks n =
      { s with pinTrig := false, delays := d, phase := phaseAfterPulse s.curOp s.phase }.endedWith pulseEvents .ok 0 0 := by
  obtain ⟨m, rfl⟩ : ∃ m, n = 4 + m := ⟨n - 4, by omega⟩
  rw [ticks_add]
  have : s.ticks 4 =
      { s with pinTrig := false, delays := d, phase := phaseAfterPulse s.curOp s.phase }.endedWith pulseEvents .ok 0 0 := by
    simp only [ticks_succ, ticks_zero]
    simp [State.tick, hbusy, State.proceed, hpend, hl, State.begin, State.pulseBegins, State.holdReturns, hd,
      State.pulseEnds, State.setPin, State.emit, State.completeOk, State.complete, State.endedWith, pulseEvents,
      Config.trigHoldUs]
  rw [this, ticks_idle _ _ rfl]

/-- A pulse whose hold does not end stands with the line high. -/
theorem ticks_pulse_held (s : State) (n : Nat) (hn : 1 ≤ n) (hbusy : s.busy = true) (hpend : s.pending = .none)
    (hl : s.plan = [.pulse]) (hd : s.delays = 0) :
    s.ticks n =
      { s with
        seqIdx := 7, pinTrig := true, plan := [], pending := .hold, history := s.history ++ [.pin .trig true] } := by
  obtain ⟨m, rfl⟩ : ∃ m, n = m + 1 := ⟨n - 1, by omega⟩
  rw [ticks_succ, tick_busy s hbusy, proceed_begin s _ _ hpend hl]
  have he : ({ s with plan := [] } : State).begin .pulse =
      { s with
        seqIdx := 7, pinTrig := true, plan := [], pending := .hold, history := s.history ++ [.pin .trig true] } := by
    simp [State.begin, State.pulseBegins, State.setPin, State.emit]
  rw [he]
  induction m with
  | zero => rfl
  | succ m ih =>
    rw [ticks_succ]
    have hs : ({ s with
        seqIdx := 7, pinTrig := true, plan := [], pending := .hold, history := s.history ++ [.pin .trig true] } : State).tick =
      { s with
        seqIdx := 7, pinTrig := true, plan := [], pending := .hold, history := s.history ++ [.pin .trig true] } := by
      simp [State.tick, hbusy, State.proceed, State.holdReturns, hd]
    rw [hs]
    exact ih (by omega)

/-! ## Commands -/

/-- A register-writing command is the acceptance of its operation (R196, R200, R204). -/
theorem exec_operation (i : Instr) (s : State) (x : Latches) (ws : Option (List Word))
    (h : operationOf i s = some (x, ws)) :
    isCommand i = true ∧
    ((x.op = opSingle ∧ ws = singleWords x s.refclk ∧ exec i s = s.command x (singleProgram x s)) ∨
     ((x.op = opSweep ∨ x.op = opSelftest) ∧ ws = sweepWords x s.refclk ∧ exec i s = s.command x (sweepProgram x s))) := by
  cases i <;> simp only [operationOf, Option.some.injEq, Prod.mk.injEq, reduceCtorEq] at h
  case single => obtain ⟨rfl, rfl⟩ := h; exact ⟨rfl, .inl ⟨rfl, rfl, rfl⟩⟩
  case sweep => obtain ⟨rfl, rfl⟩ := h; exact ⟨rfl, .inr ⟨.inl rfl, rfl, rfl⟩⟩
  case selftest => obtain ⟨rfl, rfl⟩ := h; exact ⟨rfl, .inr ⟨.inr rfl, rfl, rfl⟩⟩

/-- A command of a block that is not busy. -/
theorem command_idle (s : State) (x : Latches) (p : Option (List Action)) (h : s.busy = false) :
    s.command x p = .next ((s.accept x p).ticks s.pace) := by simp [State.command, h]

/-- A refused command completes with ParamError in its second step (R193, R194, R232). -/
theorem command_refused (s : State) (x : Latches) (h : s.busy = false) (hp : 1 ≤ s.pace) :
    s.command x none = .next ({ s with x := x, curOp := x.op }.endedWith [] .paramError 0 0) := by
  rw [command_idle s x none h, ticks_raise (s.accept x none) s.pace .paramError 0 0 hp rfl rfl]
  rfl

/-! ## A word instruction (R170, R174) -/

/-- A word instruction with nothing begun. -/
theorem exec_word (i : Instr) (k : WordKind) (w : Word) (s : State) (h : sentBy i = some (k, w)) (hp : s.pending = .none) :
    exec i s = .next (({ s with busy := true }.beginWord k w).writeTicks s.pace) := by
  rw [exec_of_sentBy i k w s h]
  simp only [State.issueWord, hp, if_true]

end Sys2Proof.Machine
end

