-- ==== Sys2Proof/Laws/PerInstr.lean ====
section
/-! SUPPORT. The per-instruction family TableRow: the encoding of every instruction has the fixed bits of its row of
spec/opcode_table.json (R90). -/

namespace Sys2Proof.Laws.TableRow

open Sys2Proof.Machine

/-- The bits the table fixes: the word itself, or the opcode of a command. -/
def tableBits : Raw → Word
  | .word w => w
  | .command f => f.op.setWidth 16

/-- The `match` and `mask` of an instruction's row. -/
def tableRow : Instr → Word × Word
  | .wCtrl _ => (0x08D3, 0xF8D3)
  | .wNincr _ => (0x1000, 0xF000)
  | .wDfLo _ => (0x2000, 0xF000)
  | .wDfHi _ => (0x3000, 0xF000)
  | .wTintWave _ => (0x4000, 0xF800)
  | .wTintClk _ => (0x6000, 0xF800)
  | .wFsLo _ => (0xC000, 0xF000)
  | .wFsHi _ => (0xD000, 0xF000)
  | .init _ => (0, 7)
  | .bind _ => (1, 7)
  | .single _ _ _ _ => (2, 7)
  | .sweep _ _ _ _ _ _ => (3, 7)
  | .selftest => (4, 7)
  | .trignow => (5, 7)

/-- The encoding has the row's fixed bits. -/
def Statement (i : Instr) : Prop := tableBits (encode i) &&& (tableRow i).2 = (tableRow i).1

/-- A tag followed by any payload has the tag's bits. -/
theorem tag_row (k : WordKind) (hk : maskOf k = 0xF000) (p : Payload) : (k.tag ++ p) &&& 0xF000 = patternOf k := by
  rw [← hk, ← classify_iff, ← tagged_eq_append]
  exact classify_tagged k hk p

/-- A tag, a zero bit and any eleven bits have the tag's bits and bit 11 zero. -/
theorem interval_row (t : Tag) (q : BitVec 11) : (t ++ 0#1 ++ q) &&& 0xF800 = t ++ 0#12 := by
  apply BitVec.eq_of_getLsbD_eq
  intro i hi
  have happ : BitVec.getLsbD (w := 16) (t ++ 0#1 ++ q) i = if i < 11 then q.getLsbD i else (t ++ 0#1).getLsbD (i - 11) :=
    (BitVec.getLsbD_append (x := t ++ 0#1) (y := q) (i := i)).trans (by simp)
  have htag : BitVec.getLsbD (w := 5) (t ++ 0#1) (i - 11) = if i - 11 < 1 then false else t.getLsbD (i - 11 - 1) :=
    (BitVec.getLsbD_append (x := t) (y := 0#1) (i := i - 11)).trans (by simp)
  rw [BitVec.getLsbD_and, happ, getLsbD_word]
  have hm : ∀ j, j < 16 → (0xF800#16).getLsbD j = decide (11 ≤ j) := by decide
  have hmi := hm i hi
  by_cases h : i < 11
  · have : ¬ 11 ≤ i := by omega
    have h12 : i < 12 := by omega
    simp [hmi, this, h12]
  · have h11 : 11 ≤ i := by omega
    simp only [h, if_false, htag]
    by_cases h12 : i < 12
    · have : i - 11 < 1 := by omega
      simp [h12, this]
    · have h1 : ¬ i - 11 < 1 := by omega
      have h2 : i - 11 - 1 = i - 12 := by omega
      have hb : BitVec.getLsbD (w := 16) 63488 i = true := hmi.trans (by simp [h11])
      simp only [h12, h1, if_false, h2]
      exact (congrArg (t.getLsbD (i - 12) && ·) hb).trans (by simp)

theorem wCtrl (flags : ControlFlags) : Statement (.wCtrl flags) := by
  obtain ⟨dac, wave, msb, trig, syncsel, syncout⟩ := flags
  unfold Statement
  cases dac <;> cases wave <;> cases msb <;> cases trig <;> cases syncsel <;> cases syncout <;> decide

theorem wNincr (n : Count) : Statement (.wNincr n) := tag_row .nincr rfl _

theorem wDfLo (p : Payload) : Statement (.wDfLo p) := tag_row .dfLo rfl p

theorem wDfHi (p : Payload) : Statement (.wDfHi p) := tag_row .dfHi rfl p

theorem wTintWave (t : Count) : Statement (.wTintWave t) := interval_row 0x4 _

theorem wTintClk (t : Count) : Statement (.wTintClk t) := interval_row 0x6 _

theorem wFsLo (p : Payload) : Statement (.wFsLo p) := tag_row .fsLo rfl p

theorem wFsHi (p : Payload) : Statement (.wFsHi p) := tag_row .fsHi rfl p

theorem init (refclk : Hertz) : Statement (.init refclk) := by
  show opInit.setWidth 16 &&& 7 = (0 : Word)
  decide

theorem bind (handle : Handle) : Statement (.bind handle) := by
  show opBind.setWidth 16 &&& 7 = (1 : Word)
  decide

theorem single (freq : Hertz) (wave : Waveform) (msb : Bool) (trig : TriggerSource) :
    Statement (.single freq wave msb trig) := by
  show opSingle.setWidth 16 &&& 7 = (2 : Word)
  decide

theorem sweep (config : SweepConfig) (wave : Waveform) (msb : Bool) (trig : TriggerSource) (syncsel : SyncPolicy)
    (syncout : Bool) : Statement (.sweep config wave msb trig syncsel syncout) := by
  show opSweep.setWidth 16 &&& 7 = (3 : Word)
  decide

theorem selftest : Statement .selftest := by
  show opSelftest.setWidth 16 &&& 7 = (4 : Word)
  decide

theorem trignow : Statement .trignow := by
  show opTrignow.setWidth 16 &&& 7 = (5 : Word)
  decide

end Sys2Proof.Laws.TableRow
end

