-- ==== Sys2Proof/Laws/Step.lean ====
section
/-! SUPPORT. What one step can do, said once: every invariant is derived from this inversion, and no later proof unfolds
the step. -/

namespace Sys2Proof.Machine

/-- What a block in state `s` may accept: the operands latched and the program of the operation, for INIT, BIND, TRIGNOW, a
register-writing command, and a refused command (R86, R190, R192, R193, R196, R200, R206). -/
def Accepts (s : State) (x : Latches) (p : Option (List Action)) : Prop :=
  (x.op = opInit ∧ p = some initProgram) ∨
  (x.op = opBind ∧ p = some [.attach]) ∨
  (x.op = opTrignow ∧ s.phase ≠ .uninitialized ∧ p = some [.pulse]) ∨
  (x.op = opSingle ∧ s.phase ≠ .uninitialized ∧ ∃ ws, validSingle x s.refclk = true ∧ singleWords x s.refclk = some ws ∧
    p = some (ws.map .word ++ triggerProgram x.trig)) ∨
  ((x.op = opSweep ∨ x.op = opSelftest) ∧ s.phase ≠ .uninitialized ∧ ∃ ws, validSweep x s.refclk = true ∧
    sweepWords x s.refclk = some ws ∧ p = some (ws.map .word ++ triggerProgram x.trig)) ∨
  p = none

/-- A register-writing operation is refused, or its program is its words and then the trigger stage (R193, R194). -/
theorem operationProgram_cases (phase : Phase) (valid : Bool) (words : Option (List Word)) (trig : TriggerSource) :
    operationProgram phase valid words trig = none ∨
    (phase ≠ .uninitialized ∧ valid = true ∧ ∃ ws, words = some ws ∧
      operationProgram phase valid words trig = some (ws.map .word ++ triggerProgram trig)) := by
  unfold operationProgram
  by_cases hp : phase = .uninitialized
  · simp [hp]
  · cases valid <;> cases words <;> simp [hp]

/-- Every command is an acceptance, or is refused because the block is busy. -/
theorem exec_command (i : Instr) (s : State) (hi : isCommand i = true) :
    ∃ x p, Accepts s x p ∧ exec i s = s.command x p := by
  cases i
  all_goals try (simp [isCommand] at hi; done)
  case init c => exact ⟨_, _, .inl ⟨rfl, rfl⟩, rfl⟩
  case bind h => exact ⟨_, _, .inr (.inl ⟨rfl, rfl⟩), rfl⟩
  case trignow =>
    refine ⟨_, _, ?_, rfl⟩
    by_cases hp : s.phase = .uninitialized
    · rw [if_pos hp]; exact .inr (.inr (.inr (.inr (.inr rfl))))
    · rw [if_neg hp]; exact .inr (.inr (.inl ⟨rfl, hp, rfl⟩))
  case single freq wave msb trig =>
    refine ⟨_, _, ?_, rfl⟩
    rcases operationProgram_cases s.phase _ _ trig with h | ⟨hp, hv, ws, hw, h⟩
    · exact .inr (.inr (.inr (.inr (.inr h))))
    · exact .inr (.inr (.inr (.inl ⟨rfl, hp, ws, hv, hw, h⟩)))
  case sweep cfg wave msb trig syncsel syncout =>
    refine ⟨_, _, ?_, rfl⟩
    rcases operationProgram_cases s.phase _ _ trig with h | ⟨hp, hv, ws, hw, h⟩
    · exact .inr (.inr (.inr (.inr (.inr h))))
    · exact .inr (.inr (.inr (.inr (.inl ⟨.inl rfl, hp, ws, hv, hw, h⟩))))
  case selftest =>
    refine ⟨_, _, ?_, rfl⟩
    rcases operationProgram_cases s.phase _ _ .automatic with h | ⟨hp, hv, ws, hw, h⟩
    · exact .inr (.inr (.inr (.inr (.inr h))))
    · exact .inr (.inr (.inr (.inr (.inl ⟨.inr rfl, hp, ws, hv, hw, h⟩))))

/-- The next state of a command: accepted, and performed as far as the pace goes. -/
theorem exec_command_next (i : Instr) (s t : State) (hi : isCommand i = true) (h : exec i s = .next t) :
    s.busy = false ∧ ∃ x p, Accepts s x p ∧ t = (s.accept x p).ticks s.pace := by
  obtain ⟨x, p, ha, he⟩ := exec_command i s hi
  rw [he, State.command] at h
  cases hb : s.busy with
  | true => rw [if_pos hb] at h; cases h
  | false =>
    rw [if_neg (by rw [hb]; exact Bool.false_ne_true)] at h
    cases h
    exact ⟨rfl, x, p, ha, rfl⟩

/-- A command record decodes to a command, or to its reserved opcode. -/
theorem decodeCommand_cases (f : CmdFields) :
    (∃ i, decodeCommand f = .ok i ∧ isCommand i = true) ∨ decodeCommand f = .error (.reservedOpcode f.op) := by
  unfold decodeCommand
  split; · exact .inl ⟨_, rfl, rfl⟩
  split; · exact .inl ⟨_, rfl, rfl⟩
  split; · exact .inl ⟨_, rfl, rfl⟩
  split; · exact .inl ⟨_, rfl, rfl⟩
  split; · exact .inl ⟨_, rfl, rfl⟩
  split; · exact .inl ⟨_, rfl, rfl⟩
  exact .inr rfl

/-- A word is never refused as a reserved opcode. -/
theorem whyNoWord_cases (w : Word) :
    whyNoWord w = .controlFixedBitClear ∨ whyNoWord w = .intervalBit11Set ∨ whyNoWord w = .unusedTag (tagOf w) := by
  unfold whyNoWord
  split
  · exact .inl rfl
  · split
    · exact .inr (.inl rfl)
    · exact .inr (.inr rfl)

/-- A busy block reads the next word, or goes on. -/
theorem fetchBusy_cases (s : State) :
    (∃ w rest, s.pending = .none ∧ s.plan = .word w :: rest ∧
      fetchBusy s = decoded (decode (.word w)) { s with plan := rest }) ∨
    (fetchBusy s = .go s.goesOn ∧ ∀ w rest, s.pending = .none → s.plan ≠ .word w :: rest) := by
  unfold fetchBusy
  split
  · rename_i w rest hp hl; exact .inl ⟨w, rest, hp, hl, rfl⟩
  · rename_i h; exact .inr ⟨rfl, fun w rest hp hl => h w rest hp hl⟩

/-- What a busy block does next: it goes on; only a word of no kind is refused, and it runs no statement. -/
theorem step_busy (s : State) (hr : s.rst = false) (hb : s.busy = true) :
    (step s = .next s.goesOn ∧
      ∀ w rest, s.pending = .none → s.plan = .word w :: rest → ∃ k, classify w = some k) ∨
    (∃ w rest r, s.pending = .none ∧ s.plan = .word w :: rest ∧ classify w = none ∧ step s = .refused r) := by
  have hf : fetch s = fetchBusy s := by simp [fetch, hr, hb]
  unfold step
  rw [hf]
  rcases fetchBusy_cases s with ⟨w, rest, hp, hl, he⟩ | ⟨he, hn⟩
  · rw [he]
    cases hk : classify w with
    | none =>
      right
      rw [decode_word_of_no_kind w hk]
      rcases whyNoWord_cases w with hw | hw | hw <;> rw [hw] <;> exact ⟨w, rest, _, hp, hl, hk, rfl⟩
    | some k =>
      left
      rw [decode_word_of_classify w k hk]
      refine ⟨?_, fun w' rest' _ hl' => ⟨k, by cases hl.symm.trans hl'; exact hk⟩⟩
      show exec (readFields k w) { s with plan := rest } = _
      rw [exec_readFields w k { s with plan := rest } hk hp]
      have hbusy : ({ s with plan := rest, busy := true } : State) = { s with plan := rest } := by rw [← hb]
      unfold State.goesOn
      rw [tick_busy s hb, proceed_word s w rest k hp hl hk]
      cases built k w with
      | true => simp only [if_true, hbusy]
      | false => simp only [Bool.false_eq_true, if_false]; rw [writeTicks_stop _ _ rfl]
  · rw [he]
    exact .inl ⟨rfl, fun w rest hp hl => (hn w rest hp hl).elim⟩

/-- One step's next state: reset, an idle block, an accepted command performed as far as the pace goes, or a busy block
that goes on. -/
theorem step_cases (s t : State) (h : step s = .next t) :
    (s.rst = true ∧ t = s.hardwareReset) ∨
    (s.rst = false ∧ s.busy = false ∧ s.commands = [] ∧ t = s) ∨
    (∃ f rest x p, s.rst = false ∧ s.busy = false ∧ s.commands = f :: rest ∧ Accepts s x p ∧
      t = ({ s with commands := rest }.accept x p).ticks s.pace) ∨
    (s.rst = false ∧ s.busy = true ∧ t = s.goesOn) := by
  by_cases hr : s.rst = true
  · simp only [step, fetch, hr, if_true] at h
    cases h
    exact .inl ⟨hr, rfl⟩
  rw [Bool.not_eq_true] at hr
  right
  by_cases hb : s.busy = true
  · right; right
    rcases step_busy s hr hb with ⟨he, _⟩ | ⟨_, _, _, _, _, _, he⟩
    · rw [he] at h; cases h; exact ⟨hr, hb, rfl⟩
    · rw [he] at h; cases h
  rw [Bool.not_eq_true] at hb
  have hf : fetch s = fetchCommand s := by simp [fetch, hr, hb]
  unfold step at h
  rw [hf] at h
  unfold fetchCommand at h
  obtain ⟨l, hc⟩ : ∃ l, s.commands = l := ⟨_, rfl⟩
  cases l with
  | nil =>
    simp only [hc] at h
    cases h
    exact .inl ⟨hr, hb, hc, rfl⟩
  | cons f rest =>
    right; left
    simp only [hc, decode] at h
    rcases decodeCommand_cases f with ⟨i, hd, hi⟩ | hd
    · simp only [hd, decoded] at h
      obtain ⟨_, x, p, ha, rfl⟩ := exec_command_next i _ t hi h
      exact ⟨f, rest, x, p, hr, hb, hc, ha, rfl⟩
    · simp only [hd, decoded, undecoded] at h
      cases h
      exact ⟨f, rest, _, none, hr, hb, hc, .inr (.inr (.inr (.inr (.inr rfl)))), rfl⟩

/-- Packaged induction: what holds of the reset state of every kind, of an accepted state, and is kept by one step of R8
in a busy block, is kept by every step. -/
theorem step_keeps {P : State → Prop}
    (hreset : ∀ s, P s → P s.hardwareReset)
    (haccept : ∀ s x p rest, s.busy = false → Accepts s x p → P s → P ({ s with commands := rest }.accept x p))
    (hproceed : ∀ s, s.busy = true → P s → P s.proceed)
    (s t : State) (hs : P s) (h : step s = .next t) : P t := by
  have htick : ∀ u, P u → P u.tick := by
    intro u hu
    cases hb : u.busy with
    | true => rw [tick_busy u hb]; exact hproceed u hb hu
    | false => rw [tick_idle u hb]; exact hu
  rcases step_cases s t h with ⟨_, rfl⟩ | ⟨_, _, _, rfl⟩ | ⟨f, rest, x, p, _, hb, _, ha, rfl⟩ | ⟨_, _, rfl⟩
  · exact hreset s hs
  · exact hs
  · exact ticks_keep htick _ _ (haccept s x p rest hb ha hs)
  · exact writeTicks_keep (fun u hu _ => htick u hu) _ _ (htick s hs)

end Sys2Proof.Machine
end

