-- ==== Sys2Proof/Tests/Slice0.lean ====
section
/-! SUPPORT. Tests. Expected values come from spec/95_test_vectors.md (S1 to S6, V1 to V5, P1 to P5), from the examples of
spec/44_sequencer_operations.md, and from words written out bit by bit from the layouts of spec/30_encoding.md. The last
part shows, for every statement with hypotheses, values that meet them. -/

namespace Sys2Proof.Tests

open Sys2Proof.Machine

/-! ## Helpers -/

/-- The next state, if there is one. -/
def got (o : Host.Outcome State Fault Refusal) : Option State :=
  match o with
  | .next t => some t
  | .fault _ => none
  | .refused _ => none

theorem next_of_got (o : Host.Outcome State Fault Refusal) (h : (got o).isSome = true) : ∃ t, o = .next t := by
  cases o with
  | next t => exact ⟨t, rfl⟩
  | fault _ => cases h
  | refused _ => cases h

/-- Something of the next state. -/
def seen {α : Type} (f : State → α) (o : Host.Outcome State Fault Refusal) : Option α := (got o).map f

/-- An initialised, bound block in Idle, its clock 50 MHz, with the inputs given and a pace at which every command goes to
its end (program P1 after its command 2). -/
def ready (ps : List Bool) (ss : List ShiftAnswer) (d : Nat) : State :=
  { State.reset with
    phase := .idle, refclk := 50000000, handle := 5, bound := true, pinFs := true, polls := ps, shifts := ss, delays := d,
    pace := 30 }

/-- The same, with `n` words to be answered `Ok` and one hold to end. -/
def willing (n : Nat) : State := ready (List.replicate n true) (List.replicate n .ok) 1

/-- The words of the transfers in a history, in order. -/
def wordsOf (h : List Event) : List Word :=
  h.filterMap (fun e =>
    match e with
    | .xfer _ w _ => some w
    | .pin _ _ => none
    | .delay _ => none
    | .result _ _ _ _ => none)

/-- The result registers. -/
def resultOf (s : State) : Status × BitVec 3 × ErrCode := (s.resStatus, s.resStep, s.resCode)

/-- The sweep of program P2. -/
def sweepP2 : Instr :=
  .sweep ⟨1000000, 10000, 100, 500, .clockCyclesBased, .decremental⟩ .triangle false .external .perIncrement true

/-- The single frequency of the example of R196. -/
def singleR196 : Instr := .single 1000 .sine true .automatic

/-- The control flags of S2. -/
def flagsS2 : ControlFlags := ⟨true, .sine, true, .automatic, .endOfScan, true⟩

/-! ## Well-formedness: the field is one too small for each of these operands -/

theorem test_ill_formed_nincr : ¬ WellFormed (.wNincr 4096) := by decide
theorem test_ill_formed_tint_wave : ¬ WellFormed (.wTintWave 2048) := by decide
theorem test_ill_formed_tint_clk : ¬ WellFormed (.wTintClk 2048) := by decide
theorem test_well_formed_edges :
    WellFormed (.wNincr 4095) ∧ WellFormed (.wTintWave 2047) ∧ WellFormed (.wTintClk 2047) := by decide

/-! ## Decoding: every constructor by bits written out from the layouts of 30_encoding.md, bit 15 first -/

/-- R74: tag 0000, 1, DAC, sine, MSB-out, 1, 1, Automatic, 1, EndOfScan, SYNCOUT, 1, 1. -/
theorem test_decode_ctrl : decode (.word 0b0000111111010111) = .ok (.wCtrl flagsS2) := by rfl
/-- R74: every flag 0. -/
theorem test_decode_ctrl_bare :
    decode (.word 0b0000100011010011) = .ok (.wCtrl ⟨false, .triangle, false, .automatic, .endOfScan, false⟩) := by rfl
/-- R78: tag 0001, twelve bits of count. -/
theorem test_decode_nincr : decode (.word 0b0001000001100100) = .ok (.wNincr 100) := by rfl
/-- R75: tag 0010. -/
theorem test_decode_df_lo : decode (.word 0b0010110100011011) = .ok (.wDfLo 0xD1B) := by rfl
/-- R77: tag 0011, bit 11 the direction. -/
theorem test_decode_df_hi : decode (.word 0b0011100000000000) = .ok (.wDfHi 0x800) := by rfl
/-- R79: tag 0100, bit 11 zero, eleven bits of interval. -/
theorem test_decode_tint_wave : decode (.word 0b0100011111010000) = .ok (.wTintWave 2000) := by rfl
/-- R79: tag 0110. -/
theorem test_decode_tint_clk : decode (.word 0b0110000111110100) = .ok (.wTintClk 500) := by rfl
/-- R75: tag 1100. -/
theorem test_decode_fs_lo : decode (.word 0b1100000101001111) = .ok (.wFsLo 0x14F) := by rfl
/-- R76: tag 1101. -/
theorem test_decode_fs_hi : decode (.word 0b1101000001010001) = .ok (.wFsHi 0x051) := by rfl
/-- P1, command 1. -/
theorem test_decode_init : decode (.command { op := 0b000, refclk := 0x02FAF080 }) = .ok (.init 50000000) := by rfl
/-- P1, command 2. -/
theorem test_decode_bind : decode (.command { op := 0b001, handle := 5 }) = .ok (.bind 5) := by rfl
/-- P3, command 3. -/
theorem test_decode_single :
    decode (.command { op := 0b010, freq := 0x190, wave := 0, msb := 0, trig := 1 }) =
      .ok (.single 400 .triangle false .external) := by rfl
/-- P2, the command S. -/
theorem test_decode_sweep :
    decode (.command
      { op := 0b011, freq := 0x000F4240, delta := 0x00002710, ninc := 0x0064, tint := 0x01F4, base := 1, dir := 1,
        wave := 0, msb := 0, trig := 1, syncsel := 1, syncout := 1 }) = .ok sweepP2 := by rfl
theorem test_decode_selftest : decode (.command { op := 0b100 }) = .ok .selftest := by rfl
theorem test_decode_trignow : decode (.command { op := 0b101 }) = .ok .trignow := by rfl

/-- The rows of the opcode table as the host numbers them: a word row and a command row. -/
theorem test_table_rows :
    decodeTableWord 16 0x0FD7 = some (.wCtrl flagsS2) ∧ decodeTableWord 8 4 = some .selftest ∧
    decodeTableWord 8 6 = none ∧ decodeTableWord 16 0x5000 = none ∧ decodeTableWord 8 8 = none := by decide

/-- The encoder on the words of the sweep of P2. -/
theorem test_encode_words :
    encode (.wCtrl ⟨true, .triangle, false, .external, .perIncrement, true⟩) = .word 0x0CFF ∧
    encode (.wTintClk 500) = .word 0x61F4 ∧ encode (.wNincr 100) = .word 0x1064 ∧ encode (.wDfHi 0x800) = .word 0x3800 := by
  decide

/-! ## The pure functions (V1, V2, V3) -/

theorem test_conv :
    conv 1000 50000000 false = some 0x14F ∧ conv 49999999 50000000 false = some 0xFFFFFF ∧
    conv 50000000 50000000 false = some 0 ∧ conv 2147483647 50000000 false = some 0xF31DC4 := by decide
theorem test_conv_edges :
    conv 0 50000000 false = none ∧ conv 0 50000000 true = some 0 ∧ conv 2147483648 50000000 true = none ∧
    conv 1000 0 false = none ∧ conv 2147483647 1 false = some 0 ∧ conv 256 4294967295 false = some 1 := by decide
theorem test_control_words :
    encodeFlags flagsS2 = 0x0FD7 ∧ encodeFlags ⟨false, .triangle, true, .automatic, .endOfScan, false⟩ = 0x09D3 ∧
    encodeFlags ⟨true, .triangle, true, .automatic, .perIncrement, false⟩ = 0x0DDB := by decide
theorem test_builders :
    buildFsLo 0xF31DC4 = 0xCDC4 ∧ buildFsHi 0xF31DC4 = 0xDF31 ∧ buildDfLo 0x7FFFFF = 0x2FFF ∧
    buildDfHi 0x7FFFFF .incremental = 0x37FF ∧ buildDfHi 0x7FFFFF .decremental = 0x3FFF ∧
    buildDfHi 0x999999 .incremental = 0x3999 ∧ buildDfHi 0x999999 .decremental = 0x3999 := by decide
theorem test_count_builders :
    buildNincr 1 = none ∧ buildNincr 2 = some 0x1002 ∧ buildNincr 4095 = some 0x1FFF ∧ buildNincr 4096 = none ∧
    buildTint 1 .waveCyclesBased = none ∧ buildTint 2 .waveCyclesBased = some 0x4002 ∧
    buildTint 2047 .clockCyclesBased = some 0x67FF ∧ buildTint 2048 .clockCyclesBased = none := by decide

/-! ## The word instructions (V4 and the group and slot tables) -/

theorem test_fs_lo_ok :
    seen (fun t => (t.history, t.last, t.pinFs, t.seqIdx)) (exec (.wFsLo 0x14F) (willing 1)) =
      some ([.pin .fs false, .xfer 5 0xC14F .ok, .pin .fs true], 0xC14F, true, 2) := by rfl
theorem test_fs_lo_busy :
    seen (fun t => (t.history, t.last, resultOf t)) (exec (.wFsLo 0x14F) (ready [false] [] 0)) =
      some ([.xfer 5 0xC14F .busy, .result 0 .transportBusy 2 0], 0xC14F, (.transportBusy, 2, 0)) := by rfl
theorem test_fs_hi_error :
    seen (fun t => (t.history, t.pinFs, t.chip.read 13)) (exec (.wFsHi 0) (ready [true] [.error 7] 0)) =
      some ([.pin .fs false, .xfer 5 0xD000 (.error 7), .pin .fs true, .result 0 .transportError 2 7], true,
        some .unknown) := by rfl
theorem test_ctrl_ok :
    seen (fun t => (wordsOf t.history, t.phase, t.chip)) (exec (.wCtrl flagsS2) (willing 1)) =
      some ([0x0FD7], .configured, [(0, .known 0xFD7)]) := by decide
theorem test_ctrl_error_idle :
    seen State.phase (exec (.wCtrl flagsS2) { ready [true] [.error 9] 0 with phase := .running }) = some .idle := by decide
theorem test_df_words :
    seen (fun t => wordsOf t.history) (exec (.wDfLo 0xD1B) (willing 1)) = some [0x2D1B] ∧
    seen (fun t => wordsOf t.history) (exec (.wDfHi 0x800) (willing 1)) = some [0x3800] := by decide
theorem test_tint_words :
    seen (fun t => wordsOf t.history) (exec (.wTintWave 2000) (willing 1)) = some [0x47D0] ∧
    seen (fun t => wordsOf t.history) (exec (.wTintClk 500) (willing 1)) = some [0x61F4] := by decide
theorem test_nincr_word :
    seen (fun t => (wordsOf t.history, t.seqIdx)) (exec (.wNincr 4095) (willing 1)) = some ([0x1FFF], 7) ∧
    seen (fun t => (wordsOf t.history, resultOf t)) (exec (.wNincr 4096) (willing 1)) = some ([], .paramError, 0, 0) := by
  decide

/-! ## The commands (V5, P1 to P5) -/

/-- P1, command 1. -/
theorem test_init :
    seen (fun t => (t.history, t.phase, t.refclk, t.bound)) (exec (.init 50000000) { State.reset with pace := 30 }) =
      some ([.pin .trig false, .pin .int false, .pin .fs true, .pin .stby false, .result 0 .ok 0 0], .idle, 50000000,
        false) := by rfl
/-- P4, command 4: a zero clock is recorded and the binding is dropped. -/
theorem test_init_zero :
    seen (fun t => (t.refclk, t.bound, t.phase)) (exec (.init 0) { State.reset with bound := true, pace := 30 }) =
      some (0, false, .idle) := by decide
/-- P4, command 3: BIND before INIT. -/
theorem test_bind :
    seen (fun t => (t.handle, t.bound, t.phase, t.history)) (exec (.bind 9) { State.reset with pace := 30 }) =
      some (9, true, .uninitialized, [.result 1 .ok 0 0]) := by rfl
/-- The example of R196. -/
theorem test_single :
    seen (fun t => (wordsOf t.history, t.phase, t.pinTrig, resultOf t)) (exec singleR196 (willing 3)) =
      some ([0x0FF3, 0xC14F, 0xD000], .running, false, .ok, 0, 0) := by rfl
/-- V5: External, another clock. -/
theorem test_single_external :
    seen (fun t => (wordsOf t.history, t.phase))
      (exec (.single 400 .triangle false .external) { willing 3 with refclk := 25000000 }) =
      some ([0x0CF3, 0xC10C, 0xD000], .armed) := by decide
/-- P2, command 3. -/
theorem test_sweep :
    seen (fun t => (wordsOf t.history, t.phase, t.last)) (exec sweepP2 (willing 7)) =
      some ([0x0CFF, 0xCEB8, 0xD051, 0x2D1B, 0x3800, 0x61F4, 0x1064], .armed, 0x1064) := by decide
/-- P2, command 1: the high delta word fails. -/
theorem test_sweep_error :
    seen (fun t => (wordsOf t.history, t.phase, resultOf t, t.chip.read 2, t.chip.read 3, t.chip.read 6))
      (exec sweepP2 (ready (List.replicate 5 true) [.ok, .ok, .ok, .ok, .error 7] 0)) =
      some ([0x0CFF, 0xCEB8, 0xD051, 0x2D1B, 0x3800], .configured, (.transportError, 3, 7), some (.known 0xD1B),
        some .unknown, none) := by rfl
/-- P1, command 3. -/
theorem test_selftest :
    seen (fun t => (wordsOf t.history, t.phase, t.chip)) (exec .selftest (willing 7)) =
      some ([0x0FD7, 0xC14F, 0xD000, 0x214F, 0x3000, 0x47D0, 0x1002], .running,
        [(0, .known 0xFD7), (1, .known 2), (2, .known 0x14F), (3, .known 0), (4, .known 0x7D0), (12, .known 0x14F),
          (13, .known 0)]) := by decide
/-- P4, command 1. -/
theorem test_selftest_uninitialized :
    seen (fun t => (t.phase, t.history, resultOf t)) (exec .selftest { State.reset with pace := 30 }) =
      some (.uninitialized, [.result 4 .paramError 0 0], .paramError, 0, 0) := by decide
/-- P4, command 13, and P2, command 4. -/
theorem test_trignow :
    seen (fun t => (t.phase, t.history)) (exec .trignow (willing 0)) =
      some (.idle, [.pin .trig true, .delay 100, .pin .trig false, .result 5 .ok 0 0]) ∧
    seen State.phase (exec .trignow { willing 0 with phase := .armed }) = some .running := by decide
/-- P4, command 12: the reserved opcode, through a step. -/
theorem test_reserved_opcode :
    seen (fun t => (t.history, t.phase)) (step { ready [] [] 0 with commands := [{ op := 6 }] }) =
      some ([.result 6 .paramError 0 0], .idle) := by decide
/-- R261: reset with a frame open. -/
theorem test_hardware_reset :
    seen (fun t => (t.phase, t.busy, t.bound, t.history, t.chip))
      (step { ready [] [] 0 with rst := true, busy := true, pending := .shift .fsLo 0xC14F, chip := [(0, .known 0xFD7)] }) =
      some (.uninitialized, false, false, [], [(12, .unknown)]) := by rfl

/-! ## The grain of R8: at pace 0 a command is accepted, and then goes on one step at a time -/

/-- R33: acceptance alone, in Uninitialized. -/
theorem test_acceptance :
    seen (fun t => (t.busy, t.phase, t.history, t.refclk)) (step { State.reset with commands := [{ op := 0, refclk := 7 }] }) =
      some (true, .uninitialized, [], 0) := by rfl
/-- R190: the first pin write of INIT, the others still to come. -/
theorem test_init_pin_by_pin :
    seen (fun t => (t.history, t.plan.length, t.busy))
      (step { State.reset with curOp := 0, busy := true, pinTrig := true, plan := initProgram }) =
      some ([.pin .trig false], 4, true) := by rfl
/-- R170: a word's frame opens in one step and is answered in the next. -/
theorem test_frame_step_by_step :
    seen (fun t => (t.history, t.pinFs, t.pending)) (exec (.wFsLo 0x14F) { willing 1 with pace := 0 }) =
      some ([.pin .fs false], false, .shift .fsLo 0xC14F) ∧
    seen (fun t => (t.history, t.pinFs, t.pending))
      (step { willing 1 with pace := 0, busy := true, pinFs := false, pending := .shift .fsLo 0xC14F }) =
      some ([.xfer 5 0xC14F .ok], false, .frameEnd .fsLo .ok) := ⟨rfl, rfl⟩

/-! ## The memory's canonical form -/

theorem test_reset_chip_wf : State.reset.chip.wf = true := by decide

/-! ## Values that meet the hypotheses of the statements -/

/-- The words of the sweep of P2 after its first, as statements. -/
def planP2 : List Action :=
  [.word 0xCEB8, .word 0xD051, .word 0x2D1B, .word 0x3800, .word 0x61F4, .word 0x1064]

/-- The sweep of P2 that stands waiting for the answer of its first word. -/
def inFlight : State :=
  { ready [] [] 1 with
    x := { State.reset.x with op := opSweep }.loadSweep
      ⟨1000000, 10000, 100, 500, .clockCyclesBased, .decremental⟩ .triangle false .external .perIncrement true
    curOp := opSweep, busy := true, last := 0x0CFF, pinFs := false, pending := .shift .ctrl 0x0CFF
    plan := planP2, history := [.pin .fs false] }

/-- The same after its first word was answered, with everything to come. -/
def between : State :=
  { inFlight with
    pinFs := true, pending := .none, seqIdx := 1, phase := .configured, chip := [(0, .known 0xCFF)]
    history := frameEvents 5 0x0CFF .ok, polls := List.replicate 7 true, shifts := List.replicate 7 .ok }

/-- A manual trigger whose hold runs. -/
def holding : State :=
  { ready [] [] 1 with
    x := { State.reset.x with op := opTrignow }, curOp := opTrignow, busy := true, seqIdx := 7, pinTrig := true
    pending := .hold, history := [.pin .trig true] }

/-- The first INIT after reset, two of its pin writes performed. -/
def halfInit : State :=
  { State.reset with
    x := { State.reset.x with refclk := 50000000 }, busy := true, plan := initProgram.drop 2
    history := [.pin .trig false, .pin .int false] }

/-- The latches of the sweep of P2 and its words. -/
def wordsP2 : List Word := [0x0CFF, 0xCEB8, 0xD051, 0x2D1B, 0x3800, 0x61F4, 0x1064]

/-- The word in flight is of its kind. -/
theorem inFlight_shift (k : WordKind) (w : Word) (h : inFlight.pending = .shift k w) : classify w = some k := by
  cases h; decide

theorem test_operation_of_sweep : operationOf sweepP2 (willing 7) = some (inFlight.x, some wordsP2) := by decide
theorem test_operation_of_single :
    (operationOf singleR196 (willing 3)).map Prod.snd = some (some [0x0FF3, 0xC14F, 0xD000]) := by decide
theorem test_operation_of_selftest :
    (operationOf .selftest (willing 7)).map Prod.snd =
      some (some [0x0FD7, 0xC14F, 0xD000, 0x214F, 0x3000, 0x47D0, 0x1002]) := by decide

/-! ### Encodings and operand functions -/

theorem test_hyp_DecodeOfEncodeIsTheInstruction :
    WellFormed (.wNincr 4095) ∧ WellFormed (.wTintClk 2047) ∧ WellFormed (.wTintWave 0) ∧ WellFormed sweepP2 := by decide
theorem test_hyp_EncodeOfDecodedWordIsTheWord : decode (.word 0x67FF) = .ok (.wTintClk 2047) := by rfl
theorem test_hyp_WordDecodesIffItMatchesOneRow :
    ∃ r ∈ wordRows, (0x47FF : Word) &&& r.mask = r.pattern :=
  ⟨⟨.tintWave, 0x4000, 0xF800⟩, by decide, by decide⟩
theorem test_hyp_ReservedPatternsAreRefusedByName :
    6 ≤ (6 : Opcode).toNat ∧ 6 ≤ (7 : Opcode).toNat ∧
    (∀ k : WordKind, tagOf 0x5FFF ≠ k.tag) ∧ (∀ k : WordKind, tagOf 0xE000 ≠ k.tag) ∧
    (tagOf 0x08D2 = 0x0 ∧ (0x08D2 : Word) &&& 0xF8D3 ≠ 0x08D3) ∧ (tagOf 0x07FF = 0x0 ∧ (0x07FF : Word) &&& 0xF8D3 ≠ 0x08D3) ∧
    (tagOf 0x4800 = 0x4 ∧ (0x4800 : Word).getLsbD 11 = true) ∧ (tagOf 0x6FFF = 0x6 ∧ (0x6FFF : Word).getLsbD 11 = true) := by
  refine ⟨by decide, by decide, ?_, ?_, by decide, by decide, by decide, by decide⟩ <;> intro k <;> cases k <;> decide
theorem test_hyp_EncoderAgreesWithTheBuilders :
    sentBy (.wNincr 2) = some (.nincr, 0x1002) ∧ sentBy (.wTintWave 2047) = some (.tintWave, 0x47FF) ∧
    sentBy (.wCtrl flagsS2) = some (.ctrl, 0x0FD7) ∧ sentBy (.wDfHi 0xFFF) = some (.dfHi, 0x3FFF) := by decide
theorem test_hyp_TuningWordIsTheFloor :
    (1 : Hertz).toNat ≠ 0 ∧ (49999999 : Hertz).toNat < (50000000 : Hertz).toNat ∧
    conv 49999999 50000000 false = some 0xFFFFFF := by decide
theorem test_hyp_ConversionFailsExactlyOutOfRange :
    (50000000 : Hertz).toNat ≠ 0 ∧ (operationOf sweepP2 { willing 7 with refclk := 0 }).map Prod.snd = some none ∧
    (operationOf (.single 0 .sine true .automatic) (willing 3)).map Prod.snd = some none ∧ (willing 3).busy = false ∧
    (willing 3).phase ≠ .uninitialized ∧ 1 ≤ (willing 3).pace ∧
    ∃ t, exec (.single 0 .sine true .automatic) (willing 3) = .next t :=
  ⟨by decide, by decide, by decide, rfl, by decide, by decide, _, rfl⟩
/-- Above the clock, at it, and below the resolution. -/
theorem test_hyp_QuotientIsTruncatedAboveTheClock :
    (50000000 : Hertz).toNat ≠ 0 ∧ (1 ≤ (75000000 : Hertz).toNat ∧ (75000000 : Hertz).toNat ≤ 2147483647) ∧
    conv 75000000 50000000 false = some 0x800000 ∧ (1 ≤ (2147483647 : Hertz).toNat ∧ (2147483647 : Hertz).toNat ≤ 2147483647) ∧
    (1 ≤ (2 : Hertz).toNat ∧ (2 : Hertz).toNat * 2 ^ 24 < (50000000 : Hertz).toNat) := by decide
theorem test_hyp_ConversionIsMonotoneOnlyBelowTheClock :
    (1000 : Hertz).toNat ≤ (49999999 : Hertz).toNat ∧ (49999999 : Hertz).toNat < (50000000 : Hertz).toNat ∧
    conv 1000 50000000 false = some 0x14F ∧ conv 49999999 50000000 false = some 0xFFFFFF ∧
    (2 ≤ (2 : Hertz).toNat ∧ (2 : Hertz).toNat ≤ 2147483647) ∧
    (2 ≤ (2147483647 : Hertz).toNat ∧ (2147483647 : Hertz).toNat ≤ 2147483647) := by decide
theorem test_hyp_DirectionBitSharesBit23 :
    (0x800000 : Tuning).getLsbD 23 = true ∧ (0x7FFFFF : Tuning).getLsbD 23 = false := by decide
theorem test_hyp_CountPayloadsLoseNothing :
    (2 ≤ (2 : Count).toNat ∧ (2 : Count).toNat ≤ 4095) ∧ (2 ≤ (4095 : Count).toNat ∧ (4095 : Count).toNat ≤ 4095) ∧
    ((1 : Count).toNat < 2 ∨ 4095 < (1 : Count).toNat) ∧ ((4096 : Count).toNat < 2 ∨ 4095 < (4096 : Count).toNat) ∧
    (2 ≤ (2047 : Count).toNat ∧ (2047 : Count).toNat ≤ 2047) ∧ ((2048 : Count).toNat < 2 ∨ 2047 < (2048 : Count).toNat) := by
  decide
theorem test_hyp_IntervalWordsDifferInTheirTag :
    buildTintWave 500 = some 0x41F4 ∧ buildTintClk 500 = some 0x61F4 := by decide
theorem test_hyp_ValidationIsTheBuildersRangeTests :
    (operationOf singleR196 State.reset).isSome = true ∧ validSweep State.reset.x State.reset.refclk = false ∧
    validSingle State.reset.x State.reset.refclk = false ∧ (∃ t, exec singleR196 State.reset = .next t) ∧
    (operationOf singleR196 (willing 3)).map Prod.snd = some (some [0x0FF3, 0xC14F, 0xD000]) :=
  ⟨by decide, by decide, by decide, ⟨_, rfl⟩, test_operation_of_single⟩
theorem test_hyp_OperationWordsStandInWriteOrder :
    (∃ ws, singleWords { State.reset.x with freq := 1 } 50000000 = some ws) ∧ sweepWords inFlight.x 50000000 = some wordsP2 :=
  ⟨⟨_, rfl⟩, by decide⟩

/-! ### Word instructions -/

theorem test_hyp_ControlWordAnsweredOkCompletes :
    (willing 1).pending = .none ∧ (willing 1).bound = true ∧ (willing 1).polls = true :: [] ∧
    (willing 1).shifts = .ok :: [] ∧ 2 ≤ (willing 1).pace := ⟨rfl, rfl, rfl, rfl, by decide⟩
/-- SINGLE and another operation: the two cases of the high start word. -/
theorem test_hyp_FrequencyWordsAnsweredOkComplete :
    (willing 1).pending = .none ∧ (willing 1).bound = true ∧ (willing 1).polls = true :: [] ∧
    (willing 1).shifts = .ok :: [] ∧ 2 ≤ (willing 1).pace ∧ ({ willing 1 with curOp := opSingle } : State).curOp = opSingle ∧
    (willing 1).curOp ≠ opSingle := ⟨rfl, rfl, rfl, rfl, by decide, rfl, by decide⟩
theorem test_hyp_CountWordsAnsweredOkComplete :
    (willing 1).pending = .none ∧ (willing 1).bound = true ∧ (willing 1).polls = true :: [] ∧
    (willing 1).shifts = .ok :: [] ∧ 2 ≤ (willing 1).pace ∧
    (2 ≤ (2 : Count).toNat ∧ (2 : Count).toNat ≤ 2047) ∧ (2 ≤ (4095 : Count).toNat ∧ (4095 : Count).toNat ≤ 4095) :=
  ⟨rfl, rfl, rfl, rfl, by decide, by decide, by decide⟩
theorem test_hyp_CountWordsOutOfRangeRaiseParamError :
    (willing 1).pending = .none ∧ ((1 : Count).toNat < 2 ∨ 4095 < (1 : Count).toNat) ∧
    ((4096 : Count).toNat < 2 ∨ 4095 < (4096 : Count).toNat) ∧ ((2048 : Count).toNat < 2 ∨ 2047 < (2048 : Count).toNat) := by
  decide
theorem test_hyp_BusyWordEndsTheOperation :
    sentBy (.wFsLo 0x14F) = some (.fsLo, 0xC14F) ∧ State.reset.pending = .none ∧ State.reset.bound = false ∧
    (ready [false] [] 0).pending = .none ∧ (ready [false] [] 0).bound = true ∧
    (ready [false] [] 0).polls = false :: [] ∧ 1 ≤ (ready [false] [] 0).pace ∧
    ({ ready [false] [] 0 with pace := 0 } : State).pace = 0 := by decide
theorem test_hyp_FailedWordEndsTheOperation :
    sentBy (.wCtrl flagsS2) = some (.ctrl, 0x0FD7) ∧ (ready [true] [.error 7] 0).pending = .none ∧
    (ready [true] [.error 7] 0).bound = true ∧ (ready [true] [.error 7] 0).polls = true :: [] ∧
    (ready [true] [.error 7] 0).shifts = .error 7 :: [] ∧ 3 ≤ (ready [true] [.error 7] 0).pace :=
  ⟨by decide, rfl, rfl, rfl, rfl, by decide⟩
theorem test_hyp_UnansweredWordWaits :
    sentBy (.wFsLo 0) = some (.fsLo, 0xC000) ∧ (ready [] [] 0).pending = .none ∧ (ready [] [] 0).bound = true ∧
    (ready [] [] 0).polls = [] ∧ (ready [true] [] 0).polls = true :: [] ∧ (ready [true] [] 0).shifts = [] ∧
    ({ willing 1 with pace := 0 } : State).polls = true :: [] ∧ ({ willing 1 with pace := 0 } : State).pace = 0 :=
  ⟨by decide, rfl, rfl, rfl, rfl, rfl, rfl, rfl⟩
theorem test_hyp_SecondTransferFaults : isCommand (.wFsLo 0) = false ∧ inFlight.pending ≠ .none := ⟨rfl, nofun⟩
theorem test_hyp_WordInstructionFrame :
    isCommand (.wNincr 2) = false ∧ (∃ t, exec (.wNincr 2) (willing 1) = .next t) ∧
    sentBy (.wNincr 2) = some (.nincr, 0x1002) ∧ sentBy (.wNincr 1) = none ∧
    ∃ t, exec (.wNincr 1) (willing 1) = .next t := by
  exact ⟨rfl, ⟨_, rfl⟩, by decide, by decide, ⟨_, rfl⟩⟩

/-! ### Commands -/

theorem test_hyp_InitBuildsAFreshContext : (willing 0).busy = false ∧ 5 ≤ (willing 0).pace := by decide
theorem test_hyp_BindAttachesTheTransport :
    (willing 0).busy = false ∧ 1 ≤ (willing 0).pace ∧ 5 ≤ (willing 0).pace ∧
    (∃ t u, exec (.bind 9) (willing 0) = .next t ∧ exec (.init 1) t = .next u) ∧ inFlight.busy = true :=
  ⟨rfl, by decide, by decide, ⟨_, _, rfl, rfl⟩, rfl⟩
theorem test_hyp_SingleCompletes :
    (willing 3).busy = false ∧ (willing 3).phase ≠ .uninitialized ∧ (willing 3).bound = true ∧ (willing 3).refclk ≠ 0 ∧
    13 ≤ (willing 3).pace ∧ 1 ≤ (1 : Hertz).toNat ∧ (1 : Hertz).toNat ≤ 2147483647 ∧ 1 ≤ (2147483647 : Hertz).toNat ∧
    (2147483647 : Hertz).toNat ≤ 2147483647 ∧ (willing 3).polls = List.replicate 3 true ++ [] ∧
    (willing 3).shifts = List.replicate 3 .ok ++ [] ∧ (willing 3).delays = 0 + 1 ∧
    ({ willing 3 with delays := 0 } : State).delays = 0 := by decide
theorem test_hyp_SweepCompletes :
    (willing 7).busy = false ∧ (willing 7).phase ≠ .uninitialized ∧ (willing 7).bound = true ∧ (willing 7).refclk ≠ 0 ∧
    25 ≤ (willing 7).pace ∧ 1 ≤ (2147483647 : Hertz).toNat ∧
    (2147483647 : Hertz).toNat ≤ 2147483647 ∧ (0 : Hertz).toNat ≤ 2147483647 ∧ 2 ≤ (2 : Count).toNat ∧
    (4095 : Count).toNat ≤ 4095 ∧ (2047 : Count).toNat ≤ 2047 ∧ (willing 7).polls = List.replicate 7 true ++ [] ∧
    (willing 7).shifts = List.replicate 7 .ok ++ [] ∧ (willing 7).delays = 0 + 1 ∧
    ({ willing 7 with delays := 0 } : State).delays = 0 := by decide
theorem test_hyp_SelftestCompletes :
    (willing 7).busy = false ∧ (willing 7).phase ≠ .uninitialized ∧ (willing 7).bound = true ∧ (willing 7).refclk ≠ 0 ∧
    25 ≤ (willing 7).pace ∧
    (willing 7).polls = List.replicate 7 true ++ [] ∧ (willing 7).shifts = List.replicate 7 .ok ++ [] ∧
    (willing 7).delays = 0 + 1 ∧ ({ willing 7 with delays := 0 } : State).delays = 0 := by decide
theorem test_hyp_TrignowPulses :
    (willing 0).busy = false ∧ (willing 0).phase ≠ .uninitialized ∧ 4 ≤ (willing 0).pace ∧ (willing 0).delays = 0 + 1 ∧
    (ready [] [] 0).busy = false ∧ (ready [] [] 0).phase ≠ .uninitialized ∧ 4 ≤ (ready [] [] 0).pace ∧
    (ready [] [] 0).delays = 0 := by decide
theorem test_hyp_CommandsBeforeInitAreRefused :
    ({ State.reset with pace := 1 } : State).busy = false ∧ ({ State.reset with pace := 1 } : State).phase = .uninitialized ∧
    1 ≤ ({ State.reset with pace := 1 } : State).pace ∧
    (operationOf sweepP2 { State.reset with pace := 1 }).isSome = true := by decide
theorem test_hyp_InvalidOperandsSendNothing :
    (willing 7).busy = false ∧ (willing 7).phase ≠ .uninitialized ∧ 1 ≤ (willing 7).pace ∧ (0 : Hertz).toNat = 0 ∧
    2147483647 < (2147483648 : Hertz).toNat ∧ (1 : Count).toNat < 2 ∧ 4095 < (4096 : Count).toNat ∧
    2047 < (2048 : Count).toNat ∧ ({ willing 7 with refclk := 0 } : State).refclk = 0 := by decide
/-- A failing word in flight, and a busy link: both steps add the failed transfer. -/
theorem test_hyp_NothingIsSentAfterAFailedWord :
    (inFlight.rst = false ∧ (∀ k w, inFlight.pending = .shift k w → classify w = some k) ∧
      ∃ t, step { inFlight with shifts := [.error 9] } = .next t ∧
        t.history = inFlight.history ++
          ([] ++ Event.xfer 5 0x0CFF (.error 9) :: [.pin .fs true, .result 3 .transportError 1 9])) ∧
    (between.rst = false ∧ ∃ t, step { between with polls := [false] } = .next t ∧
      t.history = between.history ++ ([] ++ Event.xfer 5 0xCEB8 .busy :: [.result 3 .transportBusy 2 0])) ∧
    failedWord (.xfer 5 0x0CFF (.error 9)) = some 0x0CFF ∧ failedWord (.xfer 5 0xCEB8 .busy) = some 0xCEB8 :=
  ⟨⟨rfl, inFlight_shift, _, rfl, rfl⟩, ⟨rfl, _, rfl, rfl⟩, rfl, rfl⟩
/-- The first and the last word of the sweep of P2. -/
theorem test_hyp_FirstFailureFixesTheResult :
    operationOf sweepP2 (willing 7) = some (inFlight.x, some wordsP2) ∧ (willing 7).busy = false ∧
    (willing 7).phase ≠ .uninitialized ∧ (willing 7).bound = true ∧ 25 ≤ (willing 7).pace ∧ 0 < wordsP2.length ∧
    6 < wordsP2.length ∧
    (ready [false] [] 0).polls = List.replicate 0 true ++ false :: [] ∧
    (ready [false] [] 0).shifts = List.replicate 0 .ok ++ [] ∧
    (ready (List.replicate 7 true) (List.replicate 6 .ok ++ [.error 9]) 0).polls = List.replicate (6 + 1) true ++ [] ∧
    (ready (List.replicate 7 true) (List.replicate 6 .ok ++ [.error 9]) 0).shifts =
      List.replicate 6 .ok ++ .error 9 :: [] :=
  ⟨test_operation_of_sweep, rfl, by decide, rfl, by decide, by decide, by decide, rfl, rfl, rfl, rfl⟩
theorem test_hyp_OperationWaitsForThePoll :
    (operationOf sweepP2 (ready [true] [.ok] 0)) = some (inFlight.x, some wordsP2) ∧ (ready [true] [.ok] 0).busy = false ∧
    (ready [true] [.ok] 0).phase ≠ .uninitialized ∧ (ready [true] [.ok] 0).bound = true ∧ 25 ≤ (ready [true] [.ok] 0).pace ∧
    (ready [true] [.ok] 0).polls = List.replicate 1 true ∧ (ready [true] [.ok] 0).shifts = List.replicate 1 .ok ++ [] ∧
    (ready [] [] 0).polls = List.replicate 0 true :=
  ⟨by decide, rfl, by decide, rfl, by decide, rfl, rfl, rfl⟩
theorem test_hyp_UnboundOperationsEndBusy :
    operationOf sweepP2 { willing 0 with bound := false } = some (inFlight.x, some (0x0CFF :: wordsP2.tail)) ∧
    ({ willing 0 with bound := false } : State).busy = false ∧
    ({ willing 0 with bound := false } : State).phase ≠ .uninitialized ∧
    ({ willing 0 with bound := false } : State).bound = false ∧ 1 ≤ ({ willing 0 with bound := false } : State).pace ∧
    ({ between with bound := false } : State).rst = false ∧ (∀ k w, between.pending ≠ .shift k w) ∧
    ∃ t, step { between with bound := false } = .next t :=
  ⟨by decide, rfl, by decide, rfl, by decide, rfl, nofun, _, rfl⟩
/-- Each clause: a busy block, operands in range, operands out of range, and a block before INIT. -/
theorem test_hyp_AcceptanceIsOneStepWhenIdle :
    isCommand .trignow = true ∧ inFlight.busy = true ∧
    ({ willing 7 with pace := 0 } : State).busy = false ∧ ({ willing 7 with pace := 0 } : State).pace = 0 ∧
    ({ willing 7 with pace := 0 } : State).phase ≠ .uninitialized ∧
    operationOf sweepP2 { willing 7 with pace := 0 } = some (inFlight.x, some wordsP2) ∧
    (operationOf (.single 0 .sine true .automatic) { willing 7 with pace := 0 }).map Prod.snd = some none ∧
    operationOf sweepP2 { State.reset with refclk := 50000000 } = some (inFlight.x, some wordsP2) ∧
    State.reset.busy = false ∧ State.reset.pace = 0 ∧ State.reset.phase = .uninitialized :=
  ⟨rfl, rfl, rfl, rfl, by decide, by decide, by decide, by decide, rfl, rfl, rfl⟩
theorem test_hyp_ContextIsWrittenOnlyByInitAndBind :
    (∃ t, exec sweepP2 (willing 7) = .next t) ∧ (∀ c, sweepP2 ≠ .init c) ∧ ∀ h, sweepP2 ≠ .bind h := by
  refine ⟨next_of_got _ (by decide), ?_, ?_⟩ <;> intro a h <;> unfold sweepP2 at h <;> cases h
theorem test_hyp_OperationFrame :
    operationOf sweepP2 (willing 7) = some (inFlight.x, some wordsP2) ∧ (∃ t, exec sweepP2 (willing 7) = .next t) ∧
    ∀ w ∈ wordsP2, (tagOf w).toNat ≠ 4 := by
  refine ⟨test_operation_of_sweep, next_of_got _ ?_, ?_⟩
  · decide
  · simp [wordsP2, tagOf]
/-- An Automatic SINGLE with all words answered, and TRIGNOW: both pulse. -/
theorem test_hyp_PulseIsTheLastAct :
    (∃ t, exec singleR196 (willing 3) = .next t ∧ Event.pin .trig true ∈ t.history) ∧
    (∃ t, exec .trignow (willing 0) = .next t ∧ Event.pin .trig true ∈ t.history) ∧ (willing 3).history = [] ∧
    (willing 0).history = [] :=
  ⟨⟨_, rfl, by decide⟩, ⟨_, rfl, by decide⟩, rfl, rfl⟩

/-! ### Steps -/

theorem test_hyp_StepRunsTheDecodedInstruction :
    (between.rst = false ∧ between.busy = true ∧ between.pending = .none ∧
      between.plan = .word 0xCEB8 :: between.plan.tail ∧ decode (.word 0xCEB8) = .ok (.wFsLo 0xEB8)) ∧
    (State.reset.rst = false ∧ State.reset.busy = false ∧
      ({ State.reset with commands := [{ op := 4 }] } : State).commands = { op := 4 } :: [] ∧
      decode (.command { op := 4 }) = .ok .selftest) :=
  ⟨⟨rfl, rfl, rfl, rfl, rfl⟩, rfl, rfl, rfl, rfl⟩
/-- At both paces. -/
theorem test_hyp_StepWithoutAnInstruction :
    State.reset.rst = false ∧ State.reset.busy = false ∧ State.reset.commands = [] ∧ 6 ≤ (6 : Opcode).toNat ∧
    ({ State.reset with commands := [{ op := 7 }] } : State).commands = { op := 7 } :: [] ∧ State.reset.pace = 0 ∧
    (willing 0).rst = false ∧ (willing 0).busy = false ∧ 1 ≤ (willing 0).pace ∧
    ({ willing 0 with commands := [{ op := 6 }] } : State).commands = { op := 6 } :: [] ∧
    between.busy = true ∧ between.pending = .none ∧
    ({ between with plan := [.word 0x5000] } : State).plan = .word 0x5000 :: [] ∧ classify 0x5000 = none :=
  ⟨rfl, rfl, rfl, by decide, rfl, rfl, rfl, rfl, by decide, rfl, rfl, rfl, rfl, by decide⟩
theorem test_hyp_AStepIsARunOfSingleSteps : between.rst = false ∧ ∃ t, step between = .next t := ⟨rfl, _, rfl⟩
/-- Each clause, at both paces. -/
theorem test_hyp_OutstandingShiftReturns :
    inFlight.rst = false ∧ inFlight.busy = true ∧ inFlight.pending = .shift .ctrl 0x0CFF ∧ classify 0x0CFF = some .ctrl ∧
    inFlight.shifts = [] ∧ ({ inFlight with shifts := [.ok] } : State).shifts = .ok :: [] ∧
    ({ inFlight with shifts := [.error 9] } : State).shifts = .error 9 :: [] ∧ 2 ≤ inFlight.pace ∧
    ({ inFlight with pace := 0 } : State).pace = 0 ∧
    ({ inFlight with pending := .frameEnd .ctrl .ok } : State).pending = .frameEnd .ctrl .ok ∧
    ({ inFlight with pending := .frameEnd .ctrl (.error 9), pace := 0 } : State).pending = .frameEnd .ctrl (.error 9) ∧
    ({ inFlight with pending := .raise .transportError 1 9 } : State).pending = .raise .transportError 1 9 :=
  ⟨rfl, rfl, rfl, by decide, rfl, rfl, rfl, by decide, rfl, rfl, rfl, rfl⟩
/-- Each clause. -/
theorem test_hyp_TriggerPulseStepByStep :
    between.rst = false ∧ between.busy = true ∧ between.pending = .none ∧
    ({ between with plan := [.pulse] } : State).plan = .pulse :: [] ∧ ({ between with plan := [] } : State).plan = [] ∧
    holding.rst = false ∧ holding.busy = true ∧ holding.pending = .hold ∧ holding.delays = 0 + 1 ∧
    ({ holding with delays := 0 } : State).delays = 0 ∧ ({ holding with pending := .pulseEnd } : State).pending = .pulseEnd :=
  ⟨rfl, rfl, rfl, rfl, rfl, rfl, rfl, rfl, rfl, rfl, rfl⟩
theorem test_hyp_HardwareResetEndsTheOperation :
    ({ inFlight with rst := true } : State).rst = true ∧ inFlight.pending = .shift .ctrl 0x0CFF ∧
    ({ holding with rst := true } : State).rst = true ∧ ∀ k w, holding.pending ≠ .shift k w :=
  ⟨rfl, rfl, rfl, nofun⟩

/-! ### Invariants: a sweep before and after its first answer, a hold, and a half INIT have them all -/

theorem test_hyp_StepKeepsChipInv : ChipInv between ∧ ∃ t, step between = .next t :=
  ⟨⟨by decide, fun c hc => ⟨.ctrl, by rw [List.mem_singleton.1 hc]; rfl⟩⟩, _, rfl⟩
theorem test_hyp_StepKeepsLinesInv : LinesInv between ∧ LinesInv inFlight ∧ LinesInv holding ∧ LinesInv halfInit := by
  refine ⟨?_, ?_, ?_, ?_⟩
  · exact ⟨by decide, by decide, fun h => absurd h (by decide), by decide, fun h => absurd h (by decide)⟩
  · exact ⟨nofun, by decide, fun h => absurd h (by decide), by decide, fun h => absurd h (by decide)⟩
  · exact ⟨by decide, by decide, fun h => absurd h (by decide), by decide, fun h => absurd h (by decide)⟩
  · refine ⟨by decide, by decide, fun _ => ⟨.inl rfl, by decide⟩, by decide, fun _ => ⟨rfl, 2, rfl, ?_⟩⟩
    intro l b
    cases l <;> cases b <;> decide
/-- An error that is raised and not reported, beside two that are. -/
theorem test_hyp_StepKeepsResultInv :
    ResultInv { between with resStatus := .transportBusy, resStep := 5 } ∧
    ResultInv { between with resStatus := .transportError, resStep := 1, resCode := 9 } ∧
    ResultInv { between with plan := [], pending := .raise .transportError 3 9 } :=
  ⟨⟨⟨by decide, by decide, rfl⟩, nofun⟩, ⟨⟨by decide, by decide⟩, nofun⟩,
    ⟨⟨rfl, rfl⟩, fun _ _ _ h => by cases h; exact ⟨by decide, by decide⟩⟩⟩
theorem test_hyp_StepKeepsSequencerInv :
    SequencerInv between ∧ SequencerInv inFlight ∧ SequencerInv holding ∧ SequencerInv halfInit := by
  refine ⟨⟨nofun, fun _ => ⟨?_, ?_, ?_⟩⟩, ⟨nofun, fun _ => ⟨?_, ?_, ?_⟩⟩, ⟨nofun, fun _ => ⟨?_, ?_, ?_⟩⟩,
    ⟨nofun, fun _ => ⟨?_, ?_, ?_⟩⟩⟩
  · exact .inr (.inr (.inr (.inr ⟨.inr (.inl rfl), .inr (by decide), by decide⟩)))
  · exact fun _ _ _ => rfl
  · exact fun _ h => absurd h (by decide)
  · exact ⟨.inr (.inl rfl), by decide, rfl, by decide⟩
  · exact fun _ h => absurd h (by decide)
  · exact fun _ h => absurd h (by decide)
  · exact ⟨.inr rfl, rfl, rfl⟩
  · exact fun _ _ h => absurd h (by decide)
  · exact fun h => absurd h (by unfold writesRegisters; decide)
  · exact .inl ⟨rfl, rfl, 2, by decide, rfl⟩
  · exact fun _ h => absurd h (by decide)
  · exact fun _ h => absurd h (by decide)
theorem test_hyp_StepKeepsWireInv : WireInv between ∧ WireInv inFlight ∧ WireInv holding ∧ WireInv halfInit :=
  ⟨⟨nofun, by decide, rfl⟩, ⟨nofun, by decide, rfl⟩, ⟨nofun, by decide, rfl⟩, ⟨nofun, by decide, rfl⟩⟩
/-- An outstanding word of its own kind, answered `Error` in this step. -/
theorem test_hyp_ChipFollowsTheTransfers :
    inFlight.rst = false ∧ (∀ k w, inFlight.pending = .shift k w → classify w = some k) ∧
    ∃ t, step { inFlight with shifts := [.error 9] } = .next t ∧
      t.history = inFlight.history ++ [.xfer 5 0x0CFF (.error 9), .pin .fs true, .result 3 .transportError 1 9] :=
  ⟨rfl, inFlight_shift, _, rfl, rfl⟩
theorem test_hyp_StepSendsAtMostSevenWords : between.rst = false ∧ ∃ t, step between = .next t := ⟨rfl, _, rfl⟩
theorem test_hyp_AnsweredOperationsComplete :
    SequencerInv between ∧ between.rst = false ∧ between.busy = true ∧ 7 ≤ between.polls.length ∧
    7 ≤ between.shifts.length ∧ 1 ≤ between.delays :=
  ⟨test_hyp_StepKeepsSequencerInv.1, rfl, rfl, by decide, by decide, by decide⟩

end Sys2Proof.Tests
end

section
namespace Sys2Proof.Machine

/-! ## Payloads and bits of the words (spec/30_encoding.md) -/

theorem toNat_lowHalf (tw : Tuning) : (lowHalf tw).toNat = tw.toNat % 4096 := by
  simp [lowHalf, BitVec.extractLsb'_toNat]

theorem toNat_highHalf (tw : Tuning) : (highHalf tw).toNat = tw.toNat / 4096 := by
  have hlt : tw.toNat / 4096 < 4096 := by have := tw.isLt; omega
  simp [highHalf, BitVec.extractLsb'_toNat, Nat.shiftRight_eq_div_pow, Nat.mod_eq_of_lt hlt]

/-- Settles O13: a builder tags one half of the tuning word, and the payload of a tagged word is what was tagged. -/
theorem frequencyPayloadsAreTheHalves : Obligations.FrequencyPayloadsAreTheHalves := by
  intro tw
  simp only [buildFsLo, buildDfLo, buildFsHi, payloadOf_tagged, toNat_lowHalf, toNat_highHalf, and_self]

/-- A count below 2^12 fills a payload without loss (R78, R79). -/
theorem toNat_payloadOf_tag_append_count (t : Tag) (n : Count) (h : n.toNat < 4096) :
    (payloadOf (t ++ n.setWidth 12)).toNat = n.toNat := by
  rw [payloadOf_append, BitVec.toNat_setWidth, Nat.mod_eq_of_lt h]

/-- Bit 11 of a word whose payload is a count below 2^11 is 0 (R79). -/
theorem getLsbD_eleven_tag_append_count (t : Tag) (n : Count) (h : n.toNat < 2048) :
    BitVec.getLsbD (w := 16) (t ++ n.setWidth 12) 11 = false := by
  have hn : n.getLsbD 11 = false := Nat.testBit_lt_two_pow h
  rw [getLsbD_word, if_pos (by decide), BitVec.getLsbD_setWidth, hn, Bool.and_false]

theorem buildNincr_eq_none (n : Count) (h : ¬ nincInRange n = true) : buildNincr n = none := if_neg h

theorem buildTint_eq_none (t : Count) (b : IntervalBase) (h : ¬ tintInRange t = true) : buildTint t b = none := by
  cases b
  case waveCyclesBased => exact if_neg h
  case clockCyclesBased => exact if_neg h

/-- Settles O15: in range, the word is a tag followed by the operand, which fits its field; out of range, the builder's test
fails. -/
theorem countPayloadsLoseNothing : Obligations.CountPayloadsLoseNothing := by
  refine ⟨fun n => ⟨fun h => ?_, fun h => ?_⟩, fun t b => ⟨fun h => ?_, fun h => ?_⟩⟩
  · exact ⟨_, buildNincr_of_range n ((nincInRange_iff n).2 h), toNat_payloadOf_tag_append_count _ n (by omega)⟩
  · exact buildNincr_eq_none n (by rw [nincInRange_iff]; omega)
  · exact ⟨_, buildTint_of_range t b ((tintInRange_iff t).2 h), toNat_payloadOf_tag_append_count _ t (by omega),
      getLsbD_eleven_tag_append_count _ t (by omega)⟩
  · exact buildTint_eq_none t b (by rw [tintInRange_iff]; omega)

theorem waveform_code_eq_ofBool (v : Waveform) : v.code = BitVec.ofBool (v == .sine) := by cases v <;> rfl

theorem triggerSource_code_eq_ofBool (v : TriggerSource) : v.code = BitVec.ofBool (v == .external) := by cases v <;> rfl

theorem syncPolicy_code_eq_ofBool (v : SyncPolicy) : v.code = BitVec.ofBool (v == .perIncrement) := by cases v <;> rfl

/-- Settles O11, bit by bit: the encoder's word is the builder's, whose bits are known, and a two-valued operand's code is
the bit that the statement names. -/
theorem controlWordBits : Obligations.ControlWordBits := by
  intro f
  apply BitVec.eq_of_getLsbD_eq
  intro i hi
  rw [← buildCtrl_eq, buildCtrl_bits f i hi, waveform_code_eq_ofBool, triggerSource_code_eq_ofBool,
    syncPolicy_code_eq_ofBool]
  simp only [BitVec.getLsbD_append]
  interval_cases i <;> simp

end Sys2Proof.Machine
end

section
namespace Sys2Proof.Machine

/-! ## The frequency converter (spec/40_frequency_converter.md) -/

/-- The quotient fits a tuning word exactly below the clock (R104). -/
theorem quotient_lt_iff (f c : Hertz) (hc : c.toNat ≠ 0) : quotient f c < 2 ^ 24 ↔ f.toNat < c.toNat := by
  rw [quotient, Nat.div_lt_iff_lt_mul (Nat.pos_of_ne_zero hc), Nat.mul_comm]
  exact Nat.mul_lt_mul_left (Nat.two_pow_pos 24)

/-- A zero frequency has the quotient 0 at every clock. -/
@[simp] theorem quotient_zero (c : Hertz) : quotient 0 c = 0 := by simp [quotient]

/-- The conversion fails exactly when one of its three range tests does (R101). -/
theorem conv_eq_none_iff (f c : Hertz) (z : Bool) :
    conv f c z = none ↔ c.toNat = 0 ∨ f.toNat > 2147483647 ∨ (f.toNat = 0 ∧ z = false) := by
  constructor
  · intro hnone
    by_contra hrange
    obtain ⟨hc, hf, hz⟩ := by simpa only [not_or, gt_iff_lt, not_lt] using hrange
    rw [conv_of_range f c z hc hf hz] at hnone
    cases hnone
  · intro hrange
    rw [Option.eq_none_iff_forall_ne_some]
    intro tw hsome
    obtain ⟨hc, hf, hz, -⟩ := conv_some f c z tw hsome
    rcases hrange with h | h | h
    · exact hc h
    · omega
    · exact hz h

/-- Settles O7: the quotient is a division of naturals, and below the clock the tuning word loses no bit of it. -/
theorem tuningWordIsTheFloor : Obligations.TuningWordIsTheFloor := by
  refine ⟨fun f c hc => ⟨?_, ?_⟩, fun f c z tw hlt h => ?_, fun f z => (conv_eq_none_iff f 0 z).2 (.inl rfl)⟩
  · exact Nat.div_mul_le_self _ _
  · exact (Nat.div_lt_iff_lt_mul (Nat.pos_of_ne_zero hc)).1 (Nat.lt_succ_self _)
  · obtain ⟨hc, -, -, rfl⟩ := conv_some f c z tw h
    rw [BitVec.toNat_ofNat, Nat.mod_eq_of_lt ((quotient_lt_iff f c hc).2 hlt)]

/-- A zero delta is legal and converts to 0 (R101). -/
theorem conv_zero_delta (c : Hertz) (hc : c.toNat ≠ 0) : conv 0 c true = some 0 := by
  rw [conv_of_range 0 c true hc (by decide) (by simp), quotient_zero]
  rfl

/-! ## Operations whose words cannot all be built -/

/-- Without its words an operation has no program, whatever else holds (R193, R194). -/
theorem operationProgram_no_words (phase : Phase) (valid : Bool) (trig : TriggerSource) :
    operationProgram phase valid none trig = none := by
  simp [operationProgram]

/-- A register-writing command whose words cannot all be built is accepted and refused. -/
theorem exec_operation_no_words (i : Instr) (s : State) (x : Latches) (h : operationOf i s = some (x, none)) :
    exec i s = s.command x none := by
  obtain ⟨-, ⟨-, hws, he⟩ | ⟨-, hws, he⟩⟩ := exec_operation i s x none h
  · rw [he, singleProgram, ← hws, operationProgram_no_words]
  · rw [he, sweepProgram, ← hws, operationProgram_no_words]

/-- A command of a busy block has no move (R33, decision D24). -/
theorem command_of_busy (s : State) (x : Latches) (p : Option (List Action)) (h : s.busy = true) :
    s.command x p = .refused .commandWhileBusy := if_pos h

/-- A refused command sends nothing at any pace: it waits to report, or has reported ParamError and nothing else. -/
theorem command_refused_sends_nothing (s t : State) (x : Latches) (h : s.command x none = .next t) :
    t.plan = [] ∧ (t.history = s.history ∨ t.history = s.history ++ [.result x.op .paramError 0 0]) := by
  have hbusy : s.busy = false := by
    by_contra hb
    rw [command_of_busy s x none (Bool.eq_true_of_not_eq_false hb)] at h
    cases h
  rcases Nat.eq_zero_or_pos s.pace with hp | hp
  · rw [command_idle s x none hbusy, hp, ticks_zero] at h
    cases h
    exact ⟨rfl, .inl rfl⟩
  · rw [command_refused s x hbusy hp] at h
    cases h
    exact ⟨rfl, .inr (by simp [State.endedWith])⟩

/-- Settles O8: the range tests of the conversion, and an operation without words is a refused command, which sends
nothing. -/
theorem conversionFailsExactlyOutOfRange : Obligations.ConversionFailsExactlyOutOfRange := by
  refine ⟨conv_eq_none_iff, fun c => ?_, fun c d hc => ?_, fun i s x hop hbusy _ hp => ?_, fun i s t x hop he => ?_⟩
  · have hnone : conv 0 c false = none := (conv_eq_none_iff 0 c false).2 (.inr (.inr ⟨rfl, rfl⟩))
    simp only [startPair, hnone]
  · have hzero := conv_zero_delta c hc
    exact ⟨hzero, by simp only [deltaPair, hzero]⟩
  · rw [exec_operation_no_words i s x hop, command_refused s x hbusy hp]
  · rw [exec_operation_no_words i s x hop] at he
    exact command_refused_sends_nothing s t x he

end Sys2Proof.Machine
end

section
namespace Sys2Proof.Machine

/-! ## The register command builders (spec/42_register_command_builder.md) -/

/-- An interval builder that gives a word was in range, and the word is its tag followed by the interval (R147 to R149). -/
theorem buildTint_some (t : Count) (b : IntervalBase) (w : Word) (h : buildTint t b = some w) :
    tintInRange t = true ∧ w = (intervalKind b).tag ++ t.setWidth 12 := by
  by_cases ht : tintInRange t = true
  · exact ⟨ht, Option.some.inj (h.symm.trans (buildTint_of_range t b ht))⟩
  · rw [buildTint_eq_none t b ht] at h
    cases h

/-- Settles O16: both builders follow their own tag by the interval itself. -/
theorem intervalWordsDifferInTheirTag : Obligations.IntervalWordsDifferInTheirTag := by
  intro t w v hw hv
  obtain ⟨-, rfl⟩ := buildTint_some t .waveCyclesBased w hw
  obtain ⟨-, rfl⟩ := buildTint_some t .clockCyclesBased v hv
  constructor
  · rw [tagOf_append, tagOf_append]
    decide
  · rw [payloadOf_append, payloadOf_append]

/-! ## Range tests and builders (R152, R194) -/

theorem nincInRange_of_buildNincr (n : Count) (w : Word) (h : buildNincr n = some w) : nincInRange n = true := by
  by_contra hn
  rw [buildNincr_eq_none n hn] at h
  cases h

/-- The start pair is built only for a clock and a frequency in range. -/
theorem startPair_some (f c : Hertz) (ws : List Word) (h : startPair f c = some ws) :
    c.toNat ≠ 0 ∧ 1 ≤ f.toNat ∧ f.toNat ≤ 2147483647 := by
  unfold startPair at h
  split at h
  next tw htw =>
    obtain ⟨hc, hf, hz, -⟩ := conv_some f c false tw htw
    exact ⟨hc, Nat.one_le_iff_ne_zero.2 fun h0 => hz ⟨h0, rfl⟩, hf⟩
  next => cases h

/-- The delta pair is built only for a delta in range. -/
theorem deltaPair_some (df c : Hertz) (dir : Direction) (ws : List Word) (h : deltaPair df c dir = some ws) :
    df.toNat ≤ 2147483647 := by
  unfold deltaPair at h
  split at h
  next twd htwd => exact (conv_some df c true twd htwd).2.1
  next => cases h

theorem validSingle_of_words (x : Latches) (c : Hertz) (ws : List Word) (h : singleWords x c = some ws) :
    validSingle x c = true := by
  rw [validSingle, Bool.and_eq_true, clock_ne_zero, freqInRange_iff]
  unfold singleWords at h
  split at h
  next start hstart => exact startPair_some _ _ start hstart
  next => cases h

theorem validSweep_of_words (x : Latches) (c : Hertz) (ws : List Word) (h : sweepWords x c = some ws) :
    validSweep x c = true := by
  simp only [validSweep, Bool.and_eq_true, clock_ne_zero, freqInRange_iff, deltaInRange_iff]
  unfold sweepWords at h
  split at h
  next start delta tint ninc hstart hdelta htint hninc =>
    obtain ⟨hc, hf⟩ := startPair_some _ _ start hstart
    exact ⟨⟨⟨⟨hc, hf⟩, deltaPair_some _ _ _ delta hdelta⟩, nincInRange_of_buildNincr _ ninc hninc⟩,
      (buildTint_some _ _ tint htint).1⟩
  next => cases h

theorem validSingle_iff_words (x : Latches) (c : Hertz) :
    validSingle x c = true ↔ ∃ ws, singleWords x c = some ws :=
  ⟨fun h => ⟨_, singleWords_of_valid x c h⟩, fun ⟨ws, h⟩ => validSingle_of_words x c ws h⟩

theorem validSweep_iff_words (x : Latches) (c : Hertz) :
    validSweep x c = true ↔ ∃ ws, sweepWords x c = some ws :=
  ⟨fun h => ⟨_, sweepWords_of_valid x c h⟩, fun ⟨ws, h⟩ => validSweep_of_words x c ws h⟩

/-- Of the three register-writing commands, one whose validation predicate is false has no words. -/
theorem operationOf_no_words_of_invalid (i : Instr) (s : State) (x : Latches) (ws : Option (List Word))
    (hop : operationOf i s = some (x, ws))
    (hv : (if x.op = opSingle then validSingle x s.refclk else validSweep x s.refclk) = false) : ws = none := by
  rw [Option.eq_none_iff_forall_ne_some]
  rintro l rfl
  obtain ⟨-, ⟨hx, hws, -⟩ | ⟨hx, hws, -⟩⟩ := exec_operation i s x _ hop
  · rw [if_pos hx, validSingle_of_words x s.refclk l hws.symm] at hv
    cases hv
  · have hne : x.op ≠ opSingle := by rcases hx with hx | hx <;> rw [hx] <;> decide
    rw [if_neg hne, validSweep_of_words x s.refclk l hws.symm] at hv
    cases hv

/-! ## The words of an operation are words of their builders (R152) -/

/-- A count below 2^12 is read back whole from its payload (R78, R79). -/
theorem setWidth_payloadOf_tag_append_count (t : Tag) (n : Count) (h : n.toNat < 4096) :
    (payloadOf (t ++ n.setWidth 12)).setWidth 16 = n := by
  apply BitVec.eq_of_toNat_eq
  rw [BitVec.toNat_setWidth, toNat_payloadOf_tag_append_count t n h, Nat.mod_eq_of_lt n.isLt]

/-- An interval below 2^11 leaves bit 11 of its word clear, so the word matches the row of its tag (R79, R90). -/
theorem classify_interval_word (b : IntervalBase) (t : Count) (h : t.toNat ≤ 2047) :
    classify ((intervalKind b).tag ++ t.setWidth 12) = some (intervalKind b) := by
  have hpayload : 0#1 ++ t.setWidth 11 = t.setWidth 12 := by
    rw [← intervalPayload_eq t h, intervalPayload]
    exact (BitVec.setWidth_eq_append (by decide)).symm
  have hrow := Laws.TableRow.interval_row (intervalKind b).tag (t.setWidth 11)
  rw [BitVec.append_assoc, BitVec.cast_eq, hpayload] at hrow
  rw [classify_iff]
  cases b
  case waveCyclesBased => exact hrow
  case clockCyclesBased => exact hrow

theorem built_intervalKind (b : IntervalBase) (w : Word) :
    built (intervalKind b) w = tintInRange ((payloadOf w).setWidth 16) := by cases b <;> rfl

/-- The interval word of an interval in range is of its kind and passes its range test. -/
theorem interval_word_built (b : IntervalBase) (t : Count) (h : tintInRange t = true) :
    ∃ k, classify ((intervalKind b).tag ++ t.setWidth 12) = some k ∧
      built k ((intervalKind b).tag ++ t.setWidth 12) = true := by
  have ht := ((tintInRange_iff t).1 h).2
  refine ⟨_, classify_interval_word b t ht, ?_⟩
  rwa [built_intervalKind, setWidth_payloadOf_tag_append_count _ t (by omega)]

/-- The count word of a count in range is of its kind and passes its range test. -/
theorem count_word_built (n : Count) (h : nincInRange n = true) :
    ∃ k, classify (0x1#4 ++ n.setWidth 12) = some k ∧ built k (0x1#4 ++ n.setWidth 12) = true := by
  have hn := ((nincInRange_iff n).1 h).2
  have hclass := classify_tagged .nincr rfl (n.setWidth 12)
  rw [tagged_eq_append] at hclass
  refine ⟨_, hclass, ?_⟩
  rwa [built, setWidth_payloadOf_tag_append_count _ n (by omega)]

theorem singleWords_built (x : Latches) (c : Hertz) (ws : List Word) (h : singleWords x c = some ws) :
    ∀ w ∈ ws, ∃ k, classify w = some k ∧ built k w = true := by
  rw [singleWords_of_valid x c (validSingle_of_words x c ws h)] at h
  obtain rfl := Option.some.inj h
  simp only [List.forall_mem_cons]
  exact ⟨⟨_, classify_buildCtrl _, rfl⟩, ⟨_, classify_buildFsLo _, rfl⟩, ⟨_, classify_buildFsHi _, rfl⟩,
    List.forall_mem_nil _⟩

theorem sweepWords_built (x : Latches) (c : Hertz) (ws : List Word) (h : sweepWords x c = some ws) :
    ∀ w ∈ ws, ∃ k, classify w = some k ∧ built k w = true := by
  have hv := validSweep_of_words x c ws h
  rw [sweepWords_of_valid x c hv] at h
  obtain rfl := Option.some.inj h
  simp only [validSweep, Bool.and_eq_true] at hv
  obtain ⟨⟨-, hninc⟩, htint⟩ := hv
  simp only [List.forall_mem_cons]
  exact ⟨⟨_, classify_buildCtrl _, rfl⟩, ⟨_, classify_buildFsLo _, rfl⟩, ⟨_, classify_buildFsHi _, rfl⟩,
    ⟨_, classify_buildDfLo _, rfl⟩, ⟨_, classify_buildDfHi _ _, rfl⟩, interval_word_built _ _ htint,
    count_word_built _ hninc, List.forall_mem_nil _⟩

/-- Settles O17: words are built exactly when the validation predicate holds, so an operation that fails it has none and is
a refused command; and each word that is built passes its own builder's test. -/
theorem validationIsTheBuildersRangeTests : Obligations.ValidationIsTheBuildersRangeTests := by
  refine ⟨validSingle_iff_words, validSweep_iff_words, fun i s t x ws hop hv he => ?_, fun i s x ws hop => ?_⟩
  · obtain rfl := operationOf_no_words_of_invalid i s x ws hop hv
    rw [exec_operation_no_words i s x hop] at he
    exact command_refused_sends_nothing s t x he
  · obtain ⟨-, ⟨-, hws, -⟩ | ⟨-, hws, -⟩⟩ := exec_operation i s x _ hop
    · exact singleWords_built x s.refclk ws hws.symm
    · exact sweepWords_built x s.refclk ws hws.symm

end Sys2Proof.Machine
end

section
namespace Sys2Proof.Machine

/-! ## A failed word ends the sending (spec/43_write_engine.md R175) -/

/-- A word was answered `Error` and its frame is to be closed, or an error was raised and is to be reported. -/
def Pending.Failing (p : Pending) : Prop := (∃ k c, p = .frameEnd k (.error c)) ∨ ∃ st g c, p = .raise st g c

/-- No statement is left, and an operation still in progress has only its failure to report. -/
def State.OnlyReports (u : State) : Prop := u.plan = [] ∧ (u.busy = false ∨ u.pending.Failing)

/-- A word handed to the transport was handed over under its own kind. -/
def Pending.ShiftsItsKind (p : Pending) : Prop := ∀ k w, p = .shift k w → classify w = some k

/-! ### What a single event does to the ghost chip (R41, R60) -/

theorem failedWord_of_not_isXfer (e : Event) (h : e.isXfer = false) : failedWord e = none := by
  cases e
  case xfer => cases h
  all_goals rfl

theorem chipAfterEvent_of_not_isXfer (m : Memory) (e : Event) (h : e.isXfer = false) : chipAfterEvent m e = m := by
  cases e
  case xfer => cases h
  all_goals rfl

theorem foldl_chipAfterEvent_of_not_isXfer (m : Memory) (es : List Event) (h : ∀ e ∈ es, e.isXfer = false) :
    es.foldl chipAfterEvent m = m := by
  induction es with
  | nil => rfl
  | cons e es ih =>
    obtain ⟨he, hes⟩ := List.forall_mem_cons.1 h
    rw [List.foldl_cons, chipAfterEvent_of_not_isXfer m e he, ih hes]

/-- A failed transfer changes at most the register of its own word. -/
theorem read_chipAfterEvent_of_failedWord (m : Memory) (e : Event) (w : Word) (a : Nat) (h : failedWord e = some w)
    (ha : a ≠ (tagOf w).toNat) : (chipAfterEvent m e).read a = m.read a := by
  match e, h with
  | .xfer _ _ .busy, _ => rfl
  | .xfer _ _ (.error _), rfl => exact Memory.read_write_other m _ a .unknown ha

theorem chipAfterEvent_answer (m : Memory) (h : Handle) (w : Word) (r : ShiftAnswer) :
    chipAfterEvent m (.xfer h w r.answer) = m.write (tagOf w).toNat (viewAfter w r) := by
  cases r <;> rfl

/-! ### One step of R8 -/

/-- From `u` to `v` the event `e` happens: the ghost chip follows it, a failing operation sends nothing, and a failure
leaves nothing to do but to report it. -/
structure Emits (u : State) (e : Event) (v : State) : Prop where
  history : v.history = u.history ++ [e]
  chip : v.chip = chipAfterEvent u.chip e
  kind : v.pending.ShiftsItsKind
  sends : u.pending.Failing → e.isXfer = false
  reports : u.pending.Failing ∨ failedWord e ≠ none → v.OnlyReports

/-- A completion leaves nothing to do, whatever was pending. -/
theorem emits_complete (u v : State) (st : Status) (g : BitVec 3) (c : ErrCode) (hh : v.history = u.history)
    (hc : v.chip = u.chip) : Emits u (.result v.curOp st g c) (v.complete st g c) where
  history := congrArg (· ++ _) hh
  chip := hc
  kind := fun _ _ h => by cases h
  sends := fun _ => rfl
  reports := fun _ => ⟨rfl, .inl rfl⟩

/-- An event that is no transfer, in an operation that is not failing. -/
theorem emits_of_not_isXfer {u v : State} (e : Event) (he : e.isXfer = false) (hu : ¬ u.pending.Failing)
    (hh : v.history = u.history ++ [e]) (hc : v.chip = u.chip) (hk : v.pending.ShiftsItsKind) : Emits u e v where
  history := hh
  chip := hc.trans (chipAfterEvent_of_not_isXfer u.chip e he).symm
  kind := hk
  sends := fun _ => he
  reports := fun h => (h.elim hu fun hf => hf (failedWord_of_not_isXfer e he)).elim

/-- The answer to a word: after an `Error` only the end of the frame is left. -/
theorem emits_answered (u : State) (k : WordKind) (w : Word) (r : ShiftAnswer) (ss : List ShiftAnswer)
    (hp : u.pending = .shift k w) (hk : classify w = some k) :
    Emits u (.xfer u.handle w r.answer) ({ u with shifts := ss }.answered k w r) where
  history := rfl
  chip := by rw [chipAfterEvent_answer, tagOf_toNat k w hk]; rfl
  kind := fun _ _ h => by cases h
  sends := fun h => by simp [Pending.Failing, hp] at h
  reports := by
    cases r with
    | ok => simp [Pending.Failing, hp, ShiftAnswer.answer, failedWord]
    | error c => exact fun _ => ⟨rfl, .inr (.inl ⟨k, c, rfl⟩)⟩

/-- The end of a frame answered `Error`: the failure is raised. -/
theorem emits_frameEnds_error (u : State) (k : WordKind) (c : ErrCode) :
    Emits u (.pin .fs true) (u.frameEnds k (.error c)) where
  history := rfl
  chip := rfl
  kind := fun _ _ h => by cases h
  sends := fun _ => rfl
  reports := fun _ => ⟨rfl, .inr (.inr ⟨_, _, _, rfl⟩)⟩

/-- A word on a busy link: the failure is raised. -/
theorem emits_busy (u : State) (k : WordKind) (w : Word) (ps : List Bool) (hp : u.pending = .none) :
    Emits u (.xfer u.handle w .busy)
      { { u with last := w, polls := ps }.emit (.xfer u.handle w .busy) with
        plan := [], pending := .raise .transportBusy (stepOf k) 0 } where
  history := rfl
  chip := rfl
  kind := fun _ _ h => by cases h
  sends := fun h => by simp [Pending.Failing, hp] at h
  reports := fun _ => ⟨rfl, .inr (.inr ⟨_, _, _, rfl⟩)⟩

/-- One step of R8 waits, at most with `ctx.last` written, or one event happens. -/
theorem proceed_waits_or_emits (u : State) (hk : u.pending.ShiftsItsKind) :
    (∃ w, u.proceed = { u with last := w }) ∨ ∃ e, Emits u e u.proceed := by
  have hnone (h : u.pending = .none) : ¬ u.pending.Failing := by simp [Pending.Failing, h]
  refine proceed_induct (P := fun v => (∃ w, v = { u with last := w }) ∨ ∃ e, Emits u e v) u
    ?wait ?answer ?frameOk ?frameError ?hold ?pulseEnd ?raise ?done ?pin ?unbuilt ?unbound ?unpolled ?busy ?ready ?pulse
    ?newContext ?attach
  case wait => exact .inl ⟨u.last, rfl⟩
  case unpolled => exact fun w _ _ _ _ _ _ _ => .inl ⟨w, rfl⟩
  case answer => exact fun k w r ss hp _ => .inr ⟨_, emits_answered u k w r ss hp (hk k w hp)⟩
  case busy => exact fun w _ k ps hp _ _ _ _ => .inr ⟨_, emits_busy u k w ps hp⟩
  case frameError => exact fun k c _ => .inr ⟨_, emits_frameEnds_error u k c⟩
  case raise => exact fun st g c _ => .inr ⟨_, emits_complete u u st g c rfl rfl⟩
  case done => exact fun _ _ => .inr ⟨_, emits_complete u u .ok 0 0 rfl rfl⟩
  case unbuilt => exact fun _ _ _ _ _ _ _ => .inr ⟨_, emits_complete u _ _ _ _ rfl rfl⟩
  case unbound => exact fun _ _ _ _ _ _ _ => .inr ⟨_, emits_complete u _ _ _ _ rfl rfl⟩
  case newContext => exact fun _ _ _ => .inr ⟨_, emits_complete u _ _ _ _ rfl rfl⟩
  case attach => exact fun _ _ _ => .inr ⟨_, emits_complete u _ _ _ _ rfl rfl⟩
  case frameOk =>
    intro k hp
    exact .inr ⟨.pin .fs true, emits_of_not_isXfer _ rfl (by simp [Pending.Failing, hp]) rfl rfl fun _ _ h => by cases h⟩
  case hold =>
    intro n hp _
    exact .inr ⟨.delay 100, emits_of_not_isXfer _ rfl (by simp [Pending.Failing, hp]) rfl rfl fun _ _ h => by cases h⟩
  case pulseEnd =>
    intro hp
    exact .inr ⟨.pin .trig false,
      emits_of_not_isXfer _ rfl (by simp [Pending.Failing, hp]) rfl rfl fun _ _ h => by cases h⟩
  case pin =>
    intro l b rest hp _
    refine .inr ⟨.pin l b, emits_of_not_isXfer _ rfl (hnone hp) (by simp) (by simp) ?_⟩
    rw [setPin_pending]
    exact hk
  case ready =>
    intro w rest k ps hp _ hkind _ _
    exact .inr ⟨.pin .fs false, emits_of_not_isXfer _ rfl (hnone hp) rfl rfl fun _ _ h => by cases h; exact hkind⟩
  case pulse =>
    intro rest hp _
    exact .inr ⟨.pin .trig true, emits_of_not_isXfer _ rfl (hnone hp) rfl rfl fun _ _ h => by cases h⟩

/-! ### A step of the machine -/

/-- What the events `es` tell of a run from `s` to `u`: the ghost chip is their replay, no transfer follows a failed one,
and after a failed one there is nothing left but to report. -/
structure RunOf (s : State) (es : List Event) (u : State) : Prop where
  history : u.history = s.history ++ es
  chip : u.chip = es.foldl chipAfterEvent s.chip
  kind : u.pending.ShiftsItsKind
  ordered : es.Pairwise fun e e' => failedWord e ≠ none → e'.isXfer = false
  reports : ∀ e ∈ es, failedWord e ≠ none → u.OnlyReports

/-- A run begins without events. -/
theorem runOf_nil (s u : State) (hh : u.history = s.history) (hc : u.chip = s.chip) (hk : u.pending.ShiftsItsKind) :
    RunOf s [] u :=
  ⟨hh.trans (List.append_nil _).symm, hc, hk, .nil, fun _ h => (List.not_mem_nil h).elim⟩

/-- A run of a busy block goes on by one event: where a word had failed before, the event is no transfer. -/
theorem RunOf.emits {s u v : State} {es : List Event} {e : Event} (h : RunOf s es u) (hb : u.busy = true)
    (he : Emits u e v) : RunOf s (es ++ [e]) v := by
  have hfailing (d : Event) (hd : d ∈ es) (hf : failedWord d ≠ none) : u.pending.Failing := by
    obtain ⟨-, hidle | hfailing⟩ := h.reports d hd hf
    · rw [hb] at hidle; cases hidle
    · exact hfailing
  refine ⟨?_, ?_, he.kind, ?_, ?_⟩
  · rw [he.history, h.history, List.append_assoc]
  · rw [he.chip, h.chip, List.foldl_append]; rfl
  · refine List.pairwise_append.2 ⟨h.ordered, List.pairwise_singleton _ _, fun d hd e' he' hf => ?_⟩
    rw [List.mem_singleton.1 he']
    exact he.sends (hfailing d hd hf)
  · intro d hd hf
    rcases List.mem_append.1 hd with hd | hd
    · exact he.reports (.inl (hfailing d hd hf))
    · exact he.reports (.inr (List.mem_singleton.1 hd ▸ hf))

theorem exists_runOf_tick {s u : State} (h : ∃ es, RunOf s es u) : ∃ es, RunOf s es u.tick := by
  obtain ⟨es, h⟩ := h
  cases hb : u.busy with
  | false => exact ⟨es, by rwa [tick_idle u hb]⟩
  | true =>
    rw [tick_busy u hb]
    rcases proceed_waits_or_emits u h.kind with ⟨w, hw⟩ | ⟨e, he⟩
    · rw [hw]
      exact ⟨es, h.history, h.chip, h.kind, h.ordered, h.reports⟩
    · exact ⟨es ++ [e], h.emits hb he⟩

/-- Every step but reset is a run from the state it begins in. -/
theorem step_runOf (s t : State) (hr : s.rst = false) (hk : s.pending.ShiftsItsKind) (h : step s = .next t) :
    ∃ es, RunOf s es t := by
  have hself : ∃ es, RunOf s es s := ⟨[], runOf_nil s s rfl rfl hk⟩
  rcases step_cases s t h with ⟨hrst, -⟩ | ⟨-, -, -, rfl⟩ | ⟨f, rest, x, p, -, -, -, -, rfl⟩ | ⟨-, -, rfl⟩
  · rw [hr] at hrst; cases hrst
  · exact hself
  · refine ticks_keep (P := fun u => ∃ es, RunOf s es u) (fun _ => exists_runOf_tick) _ _ ⟨[], runOf_nil s _ rfl rfl ?_⟩
    cases p <;> exact fun _ _ h => by cases h
  · exact writeTicks_keep (P := fun u => ∃ es, RunOf s es u) (fun _ hu _ => exists_runOf_tick hu) _ _ (exists_runOf_tick hself)

/-- The registers of the other words hold what the transfers before a failed one gave them: nothing is sent after it. -/
theorem RunOf.read_other {s t : State} {before after : List Event} {e : Event} {w : Word}
    (h : RunOf s (before ++ e :: after) t) (hw : failedWord e = some w) (hafter : ∀ e' ∈ after, e'.isXfer = false)
    (a : Nat) (ha : a ≠ (tagOf w).toNat) : t.chip.read a = (before.foldl chipAfterEvent s.chip).read a := by
  rw [h.chip, List.foldl_append, List.foldl_cons, foldl_chipAfterEvent_of_not_isXfer _ after hafter,
    read_chipAfterEvent_of_failedWord _ e w a hw ha]

/-- Settles O36: a step is a run of R8 steps, and in such a run a failed transfer is the last one. -/
theorem nothingIsSentAfterAFailedWord : Obligations.NothingIsSentAfterAFailedWord := by
  intro s t hr hk hstep
  obtain ⟨es, hrun⟩ := step_runOf s t hr hk hstep
  refine ⟨es, hrun.history, ?_⟩
  rintro before e after w rfl hw
  have hfailed : failedWord e ≠ none := by simp [hw]
  obtain ⟨-, hordered, -⟩ := List.pairwise_append.1 hrun.ordered
  have hafter : ∀ e' ∈ after, e'.isXfer = false := fun e' he' => (List.pairwise_cons.1 hordered).1 e' he' hfailed
  obtain ⟨hplan, hreports⟩ := hrun.reports e (by simp) hfailed
  exact ⟨hafter, hplan, hreports, hrun.read_other hw hafter⟩

end Sys2Proof.Machine
end

section
namespace Sys2Proof.Machine

/-! ## BIND, and INIT after it (spec/44_sequencer_operations.md R190, R192) -/

/-- The lines driven one after the other (R247). -/
def State.setPins (s : State) (writes : List (Pin × Bool)) : State := writes.foldl (fun u p => u.setPin p.1 p.2) s

@[simp] theorem setPins_nil (s : State) : s.setPins [] = s := rfl

@[simp] theorem setPins_cons (s : State) (p : Pin × Bool) (ps : List (Pin × Bool)) :
    s.setPins (p :: ps) = (s.setPin p.1 p.2).setPins ps := rfl

/-- Driving a line does not look at the plan. -/
theorem setPin_set_plan (s : State) (l : Pin) (b : Bool) (plan : List Action) :
    ({ s.setPin l b with plan := plan } : State) = { s with plan := plan }.setPin l b := by cases l <;> rfl

/-- Pin writes at the head of the plan take one step each. -/
theorem ticks_pins (s : State) (writes : List (Pin × Bool)) (rest : List Action) (n : Nat) (hbusy : s.busy = true)
    (hpend : s.pending = .none) (hl : s.plan = writes.map (fun p => .pin p.1 p.2) ++ rest) :
    s.ticks (n + writes.length) = ({ s with plan := rest }.setPins writes).ticks n := by
  induction writes generalizing s with
  | nil =>
    obtain rfl : s.plan = rest := hl
    rfl
  | cons p ps ih =>
    have hpin : s.tick = State.setPin { s with plan := ps.map (fun q => .pin q.1 q.2) ++ rest } p.1 p.2 := by
      rw [tick_busy s hbusy, proceed_begin s _ _ hpend hl]
      rfl
    rw [List.length_cons, ← Nat.add_assoc, ticks_succ, hpin, ih _ (by simp [hbusy]) (by simp [hpend]) (by simp),
      setPin_set_plan, setPins_cons]

/-- A last statement whose first step is the completion, from the state `v` it has written. -/
theorem ticks_last_completes (s v : State) (a : Action) (n : Nat) (hn : 1 ≤ n) (hbusy : s.busy = true)
    (hpend : s.pending = .none) (hl : s.plan = [a]) (hv : { s with plan := [] }.begin a = v.complete .ok 0 0) :
    s.ticks n = v.endedWith [] .ok 0 0 := by
  obtain ⟨m, rfl⟩ := Nat.exists_eq_add_of_le' hn
  rw [ticks_succ, tick_busy s hbusy, proceed_begin s a [] hpend hl, hv, complete_eq_endedWith, ticks_idle _ _ rfl]

/-- The one statement of BIND writes handle and binding and completes (R192). -/
theorem ticks_attach (s : State) (n : Nat) (hn : 1 ≤ n) (hbusy : s.busy = true) (hpend : s.pending = .none)
    (hl : s.plan = [.attach]) :
    s.ticks n = { s with handle := s.x.handle, bound := true }.endedWith [] .ok 0 0 :=
  ticks_last_completes s _ .attach n hn hbusy hpend hl rfl

/-- The last statement of INIT writes the new context and completes (R190). -/
theorem ticks_newContext (s : State) (n : Nat) (hn : 1 ≤ n) (hbusy : s.busy = true) (hpend : s.pending = .none)
    (hl : s.plan = [.newContext]) :
    s.ticks n =
      { s with refclk := s.x.refclk, bound := false, last := 0, phase := .idle }.endedWith [] .ok 0 0 :=
  ticks_last_completes s _ .newContext n hn hbusy hpend hl rfl

/-- The program of INIT: the four pin writes and then the new context. -/
theorem ticks_initProgram (s : State) (n : Nat) (hn : 5 ≤ n) (hbusy : s.busy = true) (hpend : s.pending = .none)
    (hl : s.plan = initProgram) :
    s.ticks n =
      { s with
          refclk := s.x.refclk, bound := false, last := 0, phase := .idle, pinTrig := false, pinInt := false,
          pinFs := true, pinStby := false }.endedWith
        [.pin .trig false, .pin .int false, .pin .fs true, .pin .stby false] .ok 0 0 := by
  obtain ⟨m, rfl⟩ := Nat.exists_eq_add_of_le' hn
  have hpins := ticks_pins s [(.trig, false), (.int, false), (.fs, true), (.stby, false)] [.newContext] (m + 1) hbusy
    hpend hl
  refine hpins.trans ?_
  rw [ticks_newContext _ _ (by omega) (by simp [hbusy]) (by simp [hpend]) (by simp)]
  simp [State.endedWith, State.setPin, State.emit]

/-- BIND of a block that is not busy completes in its second step (R192). -/
theorem exec_bind (h : Handle) (s : State) (hbusy : s.busy = false) (hp : 1 ≤ s.pace) :
    exec (.bind h) s =
      .next ({ s with x := { s.x with op := opBind, handle := h }, curOp := opBind, handle := h, bound := true }.endedWith
        [] .ok 0 0) := by
  have hcommand : exec (.bind h) s = s.command { s.x with op := opBind, handle := h } (some [.attach]) := rfl
  rw [hcommand, command_idle s _ _ hbusy, ticks_attach _ _ hp rfl rfl rfl]
  rfl

/-- INIT, once it has completed, leaves no binding (R190). -/
theorem init_next_unbound {c : Hertz} {s t : State} (h : exec (.init c) s = .next t) (hp : 5 ≤ s.pace) :
    t.bound = false := by
  obtain ⟨hbusy, -⟩ := exec_command_next _ s t rfl h
  have hcommand : exec (.init c) s = s.command { s.x with op := opInit, refclk := c } (some initProgram) := rfl
  rw [hcommand, command_idle s _ _ hbusy, ticks_initProgram _ _ hp rfl rfl rfl] at h
  cases h
  rfl

/-- Settles O29: BIND's one statement completes it, INIT's last one drops the binding, and a command that answers a next
state found the block not busy. -/
theorem bindAttachesTheTransport : Obligations.BindAttachesTheTransport := by
  intro h s
  refine ⟨exec_bind h s, fun hp c t u hbind hinit => ?_, fun hbusy t hbind => ?_⟩
  · obtain ⟨hidle, -⟩ := exec_command_next _ s t rfl hbind
    rw [exec_bind h s hidle (by omega)] at hbind
    cases hbind
    exact init_next_unbound hinit hp
  · obtain ⟨hidle, -⟩ := exec_command_next _ s t rfl hbind
    rw [hbusy] at hidle
    cases hidle

end Sys2Proof.Machine
end

section
namespace Sys2Proof.Machine

/-! ## The ghost chip follows the history, and keeps its form (spec/20_memory.md) -/

/-- Settles O57: a step is a run of R8 steps, and a run's chip is the replay of its events. -/
theorem chipFollowsTheTransfers : Obligations.ChipFollowsTheTransfers := by
  intro s t hr hk hstep
  obtain ⟨es, hrun⟩ := step_runOf s t hr hk hstep
  exact ⟨es, hrun.history, hrun.chip⟩

/-- One step of R8 writes at most one chip register, that of a word on the wire. -/
theorem proceed_chip (s : State) :
    s.proceed.chip = s.chip ∨
      ∃ k w v, s.pending = .shift k w ∧ s.proceed.chip = s.chip.write (addressOf k) v := by
  refine proceed_induct
    (P := fun u => u.chip = s.chip ∨ ∃ k w v, s.pending = .shift k w ∧ u.chip = s.chip.write (addressOf k) v) s
    ?wait ?answer ?frameOk ?frameError ?hold ?pulseEnd ?raise ?done ?pin ?unbuilt ?unbound ?unpolled ?busy ?ready ?pulse
    ?newContext ?attach
  case answer => exact fun k w r rest hp _ => .inr ⟨k, w, viewAfter w r, hp, rfl⟩
  case pin => exact fun l b rest _ _ => .inl (setPin_chip _ l b)
  all_goals intros; exact .inl rfl

theorem chipInv_of_write {s t : State} (k : WordKind) (v : RegView) (h : ChipInv s)
    (ht : t.chip = s.chip.write (addressOf k) v) : ChipInv t := by
  obtain ⟨hwf, haddr⟩ := h
  rw [ChipInv, ht]
  refine ⟨Memory.write_wf _ _ _ (addressOf_lt k) hwf, fun c hc => ?_⟩
  rcases Memory.mem_write _ _ _ c hc with hc | hc
  · exact ⟨k, hc⟩
  · exact haddr c hc

/-- After a reset the chip holds at most the unknown register of a word in flight. -/
theorem chipAfterReset_cases (s : State) :
    s.chipAfterReset = [] ∨ ∃ k w, s.pending = .shift k w ∧ s.chipAfterReset = [(addressOf k, .unknown)] := by
  unfold State.chipAfterReset
  split
  next k w hp => exact .inr ⟨k, w, hp, rfl⟩
  all_goals exact .inl rfl

theorem chipInv_hardwareReset (s : State) : ChipInv s.hardwareReset := by
  show s.chipAfterReset.wf = true ∧ ∀ c ∈ s.chipAfterReset, ∃ k, c.1 = addressOf k
  rcases chipAfterReset_cases s with h | ⟨k, w, -, h⟩ <;> rw [h]
  · exact ⟨rfl, fun c hc => (List.not_mem_nil hc).elim⟩
  · exact ⟨decide_eq_true (addressOf_lt k), fun c hc => ⟨k, congrArg Prod.fst (List.mem_singleton.1 hc)⟩⟩

/-- Settles O52: only the answer to a word writes the chip, and it writes the register of a kind. -/
theorem stepKeepsChipInv : Obligations.StepKeepsChipInv := by
  refine step_keeps (fun s _ => chipInv_hardwareReset s) (fun _ _ _ _ _ _ h => h) fun s _ hs => ?_
  rcases proceed_chip s with h | ⟨k, -, v, -, h⟩
  · rwa [ChipInv, h]
  · exact chipInv_of_write k v hs h

/-! ## Where the external events stand (spec/43_write_engine.md sections 1 and 3) -/

/-- One step of R8 leaves no statement to be performed that was not to be performed before. -/
theorem proceed_plan_subset (s : State) : s.proceed.plan ⊆ s.plan := by
  refine proceed_induct (P := fun u => u.plan ⊆ s.plan) s
    ?wait ?answer ?frameOk ?frameError ?hold ?pulseEnd ?raise ?done ?pin ?unbuilt ?unbound ?unpolled ?busy ?ready ?pulse
    ?newContext ?attach
  case answer => intro k w r rest _ _; cases r <;> simp
  case pin => intro l b rest _ hl; simp [hl]
  case ready => intro w rest k ps _ hl _ _ _; simp [hl]
  case pulse => intro rest _ hl; simp [hl]
  all_goals intros; simp

/-- An operation that one step of R8 completes leaves nothing begun. -/
theorem proceed_rests (s : State) (hb : s.busy = true) : s.proceed.busy = false → s.proceed.pending = .none := by
  refine proceed_induct (P := fun u => u.busy = false → u.pending = .none) s
    ?wait ?answer ?frameOk ?frameError ?hold ?pulseEnd ?raise ?done ?pin ?unbuilt ?unbound ?unpolled ?busy ?ready ?pulse
    ?newContext ?attach
  all_goals intros; simp_all

/-- The statements of an accepted command drive lines to their idle levels only (R190). -/
theorem accepts_keepsIdle {s : State} {x : Latches} {p : Option (List Action)} (h : Accepts s x p) :
    ∀ a ∈ p.getD [], a.keepsIdle = true := by
  have hwords (ws : List Word) (trig : TriggerSource) :
      ∀ a ∈ ws.map Action.word ++ triggerProgram trig, a.keepsIdle = true := by
    intro a ha
    rcases List.mem_append.1 ha with ha | ha
    · obtain ⟨w, -, rfl⟩ := List.mem_map.1 ha; rfl
    · cases trig <;> simp_all [triggerProgram, Action.keepsIdle]
  rcases h with ⟨-, rfl⟩ | ⟨-, rfl⟩ | ⟨-, -, rfl⟩ | ⟨-, -, ws, -, -, rfl⟩ | ⟨-, -, ws, -, -, rfl⟩ | rfl
  · decide
  · decide
  · decide
  · exact hwords ws x.trig
  · exact hwords ws x.trig
  · simp

theorem wireAfter_concat (h : List Event) (e : Event) : wireAfter (h ++ [e]) = (wireAfter h).next e :=
  List.foldl_concat _ _ _ _

/-- Between transactions a line may be driven to its idle level (R190). -/
theorem next_quiet_idle_pin (l : Pin) : WireState.quiet.next (.pin l (idleLevel l)) = .quiet := by cases l <;> rfl

/-- One step of R8 moves the events and what is pending together. -/
theorem proceed_wire (s : State) (hidle : ∀ a ∈ s.plan, a.keepsIdle = true)
    (h : wireAfter s.history = wireOf s.pending) : wireAfter s.proceed.history = wireOf s.proceed.pending := by
  refine proceed_induct (P := fun u => wireAfter u.history = wireOf u.pending) s
    ?wait ?answer ?frameOk ?frameError ?hold ?pulseEnd ?raise ?done ?pin ?unbuilt ?unbound ?unpolled ?busy ?ready ?pulse
    ?newContext ?attach
  case wait => exact h
  case answer => intro k w r rest hp _; cases r <;>
    simp [wireAfter_concat, h, hp, wireOf, WireState.next, ShiftAnswer.answer]
  case pin =>
    intro l b rest hp hl
    obtain rfl : b = idleLevel l := by simpa [Action.keepsIdle] using hidle (.pin l b) (by simp [hl])
    simp [wireAfter_concat, h, hp, wireOf, next_quiet_idle_pin]
  all_goals intros; simp_all [wireAfter_concat, wireOf, WireState.next, Config.trigHoldUs]

/-- Settles O56: at acceptance nothing is begun, and each step of R8 moves the events as it moves what is pending. -/
theorem stepKeepsWireInv : Obligations.StepKeepsWireInv := by
  refine step_keeps (P := WireInv) (fun s _ => ⟨fun _ => rfl, fun a ha => (List.not_mem_nil ha).elim, rfl⟩) ?_ ?_
  · rintro s x p rest hb ha ⟨hrest, -, hwire⟩
    refine ⟨nofun, accepts_keepsIdle ha, ?_⟩
    rw [hrest hb] at hwire
    cases p <;> exact hwire
  · rintro s hb ⟨-, hidle, hwire⟩
    exact ⟨proceed_rests s hb, fun a ha => hidle a (proceed_plan_subset s ha), proceed_wire s hidle hwire⟩

end Sys2Proof.Machine
end

section
namespace Sys2Proof.Machine

/-! ## The levels of the lines (spec/10_state.md R38, spec/43_write_engine.md R172, R177) -/

/-- Before the first INIT no frame and no pulse is begun, and no statement to come begins one (R193). -/
def BeforeInit (s : State) : Prop :=
  s.phase = .uninitialized →
    (s.pending = .none ∨ ∃ st g c, s.pending = .raise st g c) ∧ ∀ a ∈ s.plan, a.beforeInit = true

/-- After the first INIT the levels of the lines are those that go with what is pending (R172, R177). -/
def LevelsFollow (s : State) : Prop :=
  s.phase ≠ .uninitialized →
    s.pinFs = fsLevel s.pending ∧ s.pinTrig = trigLevel s.pending ∧ s.pinInt = false ∧ s.pinStby = false

/-- While INIT's new context is to come, the plan is the rest of INIT's program and the lines it has driven are idle. -/
def InitUnderWay (s : State) : Prop :=
  Action.newContext ∈ s.plan →
    s.pending = .none ∧
    ∃ n, s.plan = initProgram.drop n ∧ ∀ line level, Action.pin line level ∈ initProgram.take n → s.level line = level

theorem linesInv_iff (s : State) :
    LinesInv s ↔
      (s.busy = false → s.pending = .none) ∧ (∀ a ∈ s.plan, a.keepsIdle = true) ∧ BeforeInit s ∧ LevelsFollow s ∧
        InitUnderWay s := Iff.rfl

@[simp] theorem level_setPin (s : State) (l m : Pin) (b : Bool) :
    (s.setPin l b).level m = if m = l then b else s.level m := by cases l <;> cases m <;> rfl

/-- No phase after a transfer or a pulse is Uninitialized, unless the phase was (R210). -/
theorem phaseAfterOk_ne_uninitialized (k : WordKind) (op : Opcode) {p : Phase} (h : p ≠ .uninitialized) :
    phaseAfterOk k op p ≠ .uninitialized := by
  unfold phaseAfterOk; split_ifs <;> simp [h]

theorem phaseAfterError_ne_uninitialized (k : WordKind) {p : Phase} (h : p ≠ .uninitialized) :
    phaseAfterError k p ≠ .uninitialized := by
  unfold phaseAfterError; split_ifs <;> simp [h]

theorem phaseAfterPulse_ne_uninitialized (op : Opcode) {p : Phase} (h : p ≠ .uninitialized) :
    phaseAfterPulse op p ≠ .uninitialized := by
  unfold phaseAfterPulse; split_ifs <;> simp [h]

/-- No step of R8 leads back before the first INIT. -/
theorem proceed_phase_ne_uninitialized (s : State) (h : s.phase ≠ .uninitialized) :
    s.proceed.phase ≠ .uninitialized := by
  refine proceed_induct (P := fun u => u.phase ≠ .uninitialized) s
    ?wait ?answer ?frameOk ?frameError ?hold ?pulseEnd ?raise ?done ?pin ?unbuilt ?unbound ?unpolled ?busy ?ready ?pulse
    ?newContext ?attach
  case frameOk => exact fun k _ => phaseAfterOk_ne_uninitialized k s.curOp h
  case frameError => exact fun k _ _ => phaseAfterError_ne_uninitialized k h
  case pulseEnd => exact fun _ => phaseAfterPulse_ne_uninitialized s.curOp h
  case newContext => intros; simp
  all_goals intros; simpa using h

/-- Before the first INIT a step of R8 begins nothing. -/
theorem proceed_beforeInit (s : State) (h : BeforeInit s) : BeforeInit s.proceed := by
  intro hu
  have hs : s.phase = .uninitialized := by
    by_contra hne
    exact proceed_phase_ne_uninitialized s hne hu
  obtain ⟨hpend, hplan⟩ := h hs
  refine ⟨?_, fun a ha => hplan a (proceed_plan_subset s ha)⟩
  refine proceed_induct (P := fun u => u.pending = .none ∨ ∃ st g c, u.pending = .raise st g c) s
    ?wait ?answer ?frameOk ?frameError ?hold ?pulseEnd ?raise ?done ?pin ?unbuilt ?unbound ?unpolled ?busy ?ready ?pulse
    ?newContext ?attach
  case ready =>
    intro w rest k ps _ hl _ _ _
    simpa [Action.beforeInit] using hplan (.word w) (by simp [hl])
  case pulse =>
    intro rest _ hl
    simpa [Action.beforeInit] using hplan .pulse (by simp [hl])
  all_goals intros; simp_all

/-- INIT's program drives lines to their idle levels. -/
theorem pin_mem_initProgram {line : Pin} {level : Bool} (h : Action.pin line level ∈ initProgram) :
    level = idleLevel line := by
  simp only [initProgram, List.mem_cons, Action.pin.injEq, reduceCtorEq, List.not_mem_nil, or_false] at h
  rcases h with ⟨rfl, rfl⟩ | ⟨rfl, rfl⟩ | ⟨rfl, rfl⟩ | ⟨rfl, rfl⟩ <;> rfl

/-- The rest of INIT's program from its first statement on: what comes after it, and what has been performed with it. -/
theorem initProgram_cons {a : Action} {rest : List Action} {n : Nat} (h : a :: rest = initProgram.drop n) :
    rest = initProgram.drop (n + 1) ∧ initProgram.take (n + 1) = initProgram.take n ++ [a] := by
  constructor
  · rw [← List.tail_drop, ← h, List.tail_cons]
  · have hget : initProgram[n]? = some a := by rw [← List.head?_drop, ← h, List.head?_cons]
    rw [List.take_add_one, hget, Option.toList_some]

/-- When the new context is to be built next, INIT has driven every line to its idle level. -/
theorem level_idle_of_newContext_next {s : State} {rest : List Action} (h : InitUnderWay s)
    (hl : s.plan = .newContext :: rest) (line : Pin) : s.level line = idleLevel line := by
  obtain ⟨-, n, hn, hlevel⟩ := h (by simp [hl])
  obtain ⟨-, htake⟩ := initProgram_cons (hl.symm.trans hn)
  have hlen := congrArg List.length (hl.symm.trans hn)
  have hget : initProgram[n]? = some .newContext := by rw [← List.head?_drop, ← hn, hl, List.head?_cons]
  obtain ⟨hlt, hget⟩ := List.getElem?_eq_some_iff.1 hget
  have hlt : n < 5 := hlt
  obtain rfl : n = 4 := by interval_cases n <;> simp_all [initProgram]
  refine hlevel line _ ?_
  cases line <;> decide

/-- The rest of INIT's program holds no word and no pulse. -/
theorem not_mem_plan_of_newContext {s : State} (h : InitUnderWay s) (hn : Action.newContext ∈ s.plan) :
    (∀ w, Action.word w ∉ s.plan) ∧ Action.pulse ∉ s.plan := by
  obtain ⟨-, n, hn, -⟩ := h hn
  rw [hn]
  exact ⟨fun w hw => by simpa [initProgram] using List.mem_of_mem_drop hw,
    fun hp => by simpa [initProgram] using List.mem_of_mem_drop hp⟩

/-- INIT goes through its program line by line. -/
theorem proceed_initUnderWay (s : State) (h : InitUnderWay s) : InitUnderWay s.proceed := by
  refine proceed_induct (P := InitUnderWay) s
    ?wait ?answer ?frameOk ?frameError ?hold ?pulseEnd ?raise ?done ?pin ?unbuilt ?unbound ?unpolled ?busy ?ready ?pulse
    ?newContext ?attach
  case wait => exact h
  case unpolled => exact fun _ _ _ _ _ _ _ _ => h
  case answer =>
    intro k w r rest hp _ hn
    have hs := h (by cases r <;> simp_all)
    simp [hp] at hs
  case frameOk => intro k hp hn; have hs := h hn; simp [hp] at hs
  case hold => intro n hp _ hn; have hs := h hn; simp [hp] at hs
  case pulseEnd => intro hp hn; have hs := h hn; simp [hp] at hs
  case pin =>
    intro l b rest hp hl hn
    rw [setPin_plan] at hn
    obtain ⟨-, n, hplan, hlevel⟩ := h (by rw [hl]; exact List.mem_cons_of_mem _ hn)
    obtain ⟨hrest, htake⟩ := initProgram_cons (hl.symm.trans hplan)
    refine ⟨by simpa using hp, n + 1, by simpa using hrest, fun line level hmem => ?_⟩
    have hb : b = idleLevel l := pin_mem_initProgram (List.mem_of_mem_drop (by rw [← hplan, hl]; exact List.mem_cons_self))
    have hidle : level = idleLevel line := pin_mem_initProgram (List.mem_of_mem_take hmem)
    rw [htake, List.mem_append, List.mem_singleton] at hmem
    rw [level_setPin]
    split_ifs with heq
    · rw [hb, hidle, heq]
    · rcases hmem with hmem | hmem
      · exact hlevel line level hmem
      · cases hmem; exact (heq rfl).elim
  case ready =>
    intro w rest k ps _ hl _ _ _ hn
    have hmem : Action.newContext ∈ s.plan := by rw [hl]; exact List.mem_cons_of_mem _ hn
    exact absurd (by simp [hl]) ((not_mem_plan_of_newContext h hmem).1 w)
  case pulse =>
    intro rest _ hl hn
    have hmem : Action.newContext ∈ s.plan := by rw [hl]; exact List.mem_cons_of_mem _ hn
    exact absurd (by simp [hl]) (not_mem_plan_of_newContext h hmem).2
  all_goals intros; exact fun hn => (List.not_mem_nil hn).elim

/-- What is begun, and is no error to report, is begun after the first INIT. -/
theorem phase_ne_uninitialized_of_begun {s : State} (h : BeforeInit s) (hp : s.pending ≠ .none)
    (hr : ∀ st g c, s.pending ≠ .raise st g c) : s.phase ≠ .uninitialized := by
  intro hu
  obtain ⟨hpend | ⟨st, g, c, hpend⟩, -⟩ := h hu
  · exact hp hpend
  · exact hr st g c hpend

/-- One step of R8 moves the levels and what is pending together; INIT's last step begins it. -/
theorem proceed_levelsFollow (s : State) (hidle : ∀ a ∈ s.plan, a.keepsIdle = true) (hbefore : BeforeInit s)
    (hinit : InitUnderWay s) (h : LevelsFollow s) : LevelsFollow s.proceed := by
  have hbegun (hp : s.pending ≠ .none) (hr : ∀ st g c, s.pending ≠ .raise st g c) :=
    h (phase_ne_uninitialized_of_begun hbefore hp hr)
  refine proceed_induct (P := LevelsFollow) s
    ?wait ?answer ?frameOk ?frameError ?hold ?pulseEnd ?raise ?done ?pin ?unbuilt ?unbound ?unpolled ?busy ?ready ?pulse
    ?newContext ?attach
  case wait => exact h
  case frameOk =>
    intro k hp _
    have hs := hbegun (by simp [hp]) (by simp [hp])
    simp_all [fsLevel, trigLevel]
  case frameError =>
    intro k c hp _
    have hs := hbegun (by simp [hp]) (by simp [hp])
    simp_all [fsLevel, trigLevel]
  case pulseEnd =>
    intro hp _
    have hs := hbegun (by simp [hp]) (by simp [hp])
    simp_all [fsLevel, trigLevel]
  case pin =>
    intro l b rest hp hl hne
    have hs := h (by simpa using hne)
    obtain rfl : b = idleLevel l := by simpa [Action.keepsIdle] using hidle (.pin l b) (by simp [hl])
    cases l <;> simp_all [fsLevel, trigLevel, idleLevel]
  case newContext =>
    intro rest hp hl _
    have hlevel := level_idle_of_newContext_next hinit hl
    exact ⟨hlevel .fs, hlevel .trig, hlevel .int, hlevel .stby⟩
  all_goals
    intros
    intro hne
    have hs := h hne
    simp_all [fsLevel, trigLevel]

/-- A command accepted before the first INIT begins no word and no pulse, and only INIT builds a context. -/
theorem accepts_program {s : State} {x : Latches} {p : Option (List Action)} (h : Accepts s x p) :
    (s.phase = .uninitialized → ∀ a ∈ p.getD [], a.beforeInit = true) ∧
    (Action.newContext ∈ p.getD [] → p = some initProgram) := by
  have hwords (ws : List Word) (trig : TriggerSource) :
      Action.newContext ∉ ws.map Action.word ++ triggerProgram trig := by cases trig <;> simp [triggerProgram]
  rcases h with ⟨-, rfl⟩ | ⟨-, rfl⟩ | ⟨-, hu, rfl⟩ | ⟨-, hu, ws, -, -, rfl⟩ | ⟨-, hu, ws, -, -, rfl⟩ | rfl
  · exact ⟨fun _ => by decide, fun _ => rfl⟩
  · exact ⟨fun _ => by decide, by simp⟩
  · exact ⟨fun h => (hu h).elim, by simp⟩
  · exact ⟨fun h => (hu h).elim, fun h => (hwords ws _ h).elim⟩
  · exact ⟨fun h => (hu h).elim, fun h => (hwords ws _ h).elim⟩
  · exact ⟨by simp, by simp⟩

/-- What acceptance leaves pending begins nothing, and goes with idle levels. -/
theorem pendingOf_cases (p : Option (List Action)) :
    (pendingOf p = .none ∨ ∃ st g c, pendingOf p = .raise st g c) ∧
      fsLevel (pendingOf p) = fsLevel .none ∧ trigLevel (pendingOf p) = trigLevel .none := by
  cases p with
  | none => exact ⟨.inr ⟨_, _, _, rfl⟩, rfl, rfl⟩
  | some l => exact ⟨.inl rfl, rfl, rfl⟩

/-- Settles O53: acceptance begins nothing, and each step of R8 keeps the five parts of the invariant. -/
theorem stepKeepsLinesInv : Obligations.StepKeepsLinesInv := by
  refine step_keeps (P := LinesInv) (fun s _ => ?_) ?_ ?_
  · exact ⟨fun _ => rfl, fun a ha => (List.not_mem_nil ha).elim,
      fun _ => ⟨.inl rfl, fun a ha => (List.not_mem_nil ha).elim⟩,
      fun h => (h rfl).elim, fun h => (List.not_mem_nil h).elim⟩
  · rintro s x p rest hb ha ⟨hrest, -, -, hlevels, -⟩
    obtain ⟨hpend, hfs, htrig⟩ := pendingOf_cases p
    obtain ⟨hbefore, hnew⟩ := accepts_program ha
    refine (linesInv_iff _).2 ⟨nofun, accepts_keepsIdle ha, fun hu => ⟨hpend, hbefore hu⟩, fun hu => ?_, fun hn => ?_⟩
    · have hs := hlevels hu
      rwa [hrest hb, ← hfs, ← htrig] at hs
    · obtain rfl := hnew hn
      exact ⟨rfl, 0, rfl, fun _ _ h => (List.not_mem_nil h).elim⟩
  · intro s hb hs
    obtain ⟨-, hidle, hbefore, hlevels, hinit⟩ := (linesInv_iff s).1 hs
    exact (linesInv_iff _).2 ⟨proceed_rests s hb, fun a ha => hidle a (proceed_plan_subset s ha),
      proceed_beforeInit s hbefore,
      proceed_levelsFollow s hidle hbefore hinit hlevels, proceed_initUnderWay s hinit⟩

end Sys2Proof.Machine
end

section
namespace Sys2Proof.Machine

/-! ## Decoding and encoding (spec/30_encoding.md) -/

theorem enableOfCode_code (b : Bool) : enableOfCode (enableCode b) = b := by cases b <;> rfl

theorem waveform_ofCode_code (v : Waveform) : Waveform.ofCode v.code = v := by cases v <;> rfl

theorem triggerSource_ofCode_code (v : TriggerSource) : TriggerSource.ofCode v.code = v := by cases v <;> rfl

theorem syncPolicy_ofCode_code (v : SyncPolicy) : SyncPolicy.ofCode v.code = v := by cases v <;> rfl

theorem intervalBase_ofCode_code (v : IntervalBase) : IntervalBase.ofCode v.code = v := by cases v <;> rfl

theorem direction_ofCode_code (v : Direction) : Direction.ofCode v.code = v := by cases v <;> rfl

/-- The encoder's control word is the builder's. -/
theorem encode_wCtrl (f : ControlFlags) : encode (.wCtrl f) = .word (buildCtrl f) := by
  rw [buildCtrl_eq, controlWordBits f, ← waveform_code_eq_ofBool, ← triggerSource_code_eq_ofBool,
    ← syncPolicy_code_eq_ofBool]
  rfl

/-- A tag, a zero bit and eleven bits of an interval are the tag and the interval's payload (R79). -/
theorem tag_append_interval (t : Tag) (n : Count) : t ++ 0#1 ++ n.setWidth 11 = t ++ intervalPayload n := by
  rw [BitVec.append_assoc, BitVec.cast_eq, intervalPayload]
  exact congrArg (t ++ ·) (BitVec.setWidth_eq_append (by decide)).symm

theorem encode_wTintWave (n : Count) : encode (.wTintWave n) = .word (tagged .tintWave (intervalPayload n)) := by
  rw [tagged_eq_append]
  exact congrArg Raw.word (tag_append_interval _ n)

theorem encode_wTintClk (n : Count) : encode (.wTintClk n) = .word (tagged .tintClk (intervalPayload n)) := by
  rw [tagged_eq_append]
  exact congrArg Raw.word (tag_append_interval _ n)

/-- The field of an interval word is the low 11 bits of its payload. -/
theorem extractLsb'_interval (w : Word) : w.extractLsb' 0 11 = (payloadOf w).setWidth 11 := by
  apply BitVec.eq_of_getLsbD_eq
  intro i hi
  have h12 : i < 12 := by omega
  simp [payloadOf, hi, h12]

/-- The flags read from a control word are those it was built from. -/
theorem readFields_buildCtrl (f : ControlFlags) : readFields .ctrl (buildCtrl f) = .wCtrl f := by
  obtain ⟨dac, wave, msb, trig, syncsel, syncout⟩ := f
  cases dac <;> cases wave <;> cases msb <;> cases trig <;> cases syncsel <;> cases syncout <;> rfl

/-- The count read from a count word is the one it was built from, if that fits the field. -/
theorem count_readFields (k : WordKind) (n : Count) (h : n.toNat ≤ 4095) :
    ((tagged k (n.setWidth 12)).extractLsb' 0 12).setWidth 16 = n := by
  rw [tagged_eq_append]
  exact setWidth_payloadOf_tag_append_count _ n (by omega)

/-- The interval read from an interval word is the one it was built from, if that fits the field. -/
theorem interval_readFields (k : WordKind) (n : Count) (h : n.toNat ≤ 2047) :
    ((tagged k (intervalPayload n)).extractLsb' 0 11).setWidth 16 = n := by
  rw [extractLsb'_interval, payloadOf_tagged]
  apply BitVec.eq_of_toNat_eq
  simp only [intervalPayload, BitVec.toNat_setWidth]
  omega

/-- An interval word whose interval fits its field is of its kind. -/
theorem classify_tagged_interval (b : IntervalBase) (n : Count) (h : n.toNat ≤ 2047) :
    classify (tagged (intervalKind b) (intervalPayload n)) = some (intervalKind b) := by
  rw [tagged_eq_append, intervalPayload_eq n h]
  exact classify_interval_word b n h

/-- A word of a kind decodes to what its fields say. -/
theorem decode_word {w : Word} {k : WordKind} {i : Instr} (hk : classify w = some k) (hi : readFields k w = i) :
    decode (.word w) = .ok i := by rw [decode_word_of_classify w k hk, hi]

/-- Settles O1: each word is of its instruction's kind and its fields are read back; a command's codes are read back. -/
theorem decodeOfEncodeIsTheInstruction : Obligations.DecodeOfEncodeIsTheInstruction := by
  have tagOnly (k : WordKind) (hk : maskOf k = 0xF000) (p : Payload) {i : Instr} (hi : readFields k (tagged k p) = i) :
      decode (.word (k.tag ++ p)) = .ok i := by
    rw [← tagged_eq_append]
    exact decode_word (classify_tagged k hk p) hi
  intro i hi
  cases i with
  | wCtrl f => rw [encode_wCtrl]; exact decode_word (classify_buildCtrl f) (readFields_buildCtrl f)
  | wNincr n => exact tagOnly .nincr rfl _ (congrArg Instr.wNincr (count_readFields _ n (of_decide_eq_true hi)))
  | wDfLo p => exact tagOnly .dfLo rfl p (congrArg Instr.wDfLo (payloadOf_tagged _ p))
  | wDfHi p => exact tagOnly .dfHi rfl p (congrArg Instr.wDfHi (payloadOf_tagged _ p))
  | wTintWave n =>
    have hn : n.toNat ≤ 2047 := of_decide_eq_true hi
    rw [encode_wTintWave]
    exact decode_word (classify_tagged_interval .waveCyclesBased n hn)
      (congrArg Instr.wTintWave (interval_readFields _ n hn))
  | wTintClk n =>
    have hn : n.toNat ≤ 2047 := of_decide_eq_true hi
    rw [encode_wTintClk]
    exact decode_word (classify_tagged_interval .clockCyclesBased n hn)
      (congrArg Instr.wTintClk (interval_readFields _ n hn))
  | wFsLo p => exact tagOnly .fsLo rfl p (congrArg Instr.wFsLo (payloadOf_tagged _ p))
  | wFsHi p => exact tagOnly .fsHi rfl p (congrArg Instr.wFsHi (payloadOf_tagged _ p))
  | init c => rfl
  | bind h => rfl
  | single freq wave msb trig =>
    show Except.ok (Instr.single freq (.ofCode wave.code) (enableOfCode (enableCode msb)) (.ofCode trig.code)) = _
    rw [waveform_ofCode_code, enableOfCode_code, triggerSource_ofCode_code]
  | sweep cfg wave msb trig syncsel syncout =>
    show Except.ok (Instr.sweep ⟨cfg.freq, cfg.delta, cfg.ninc, cfg.tint, .ofCode cfg.base.code, .ofCode cfg.dir.code⟩
      (.ofCode wave.code) (enableOfCode (enableCode msb)) (.ofCode trig.code) (.ofCode syncsel.code)
      (enableOfCode (enableCode syncout))) = _
    rw [intervalBase_ofCode_code, direction_ofCode_code, waveform_ofCode_code, enableOfCode_code,
      triggerSource_ofCode_code, syncPolicy_ofCode_code, enableOfCode_code]
  | selftest => rfl
  | trignow => rfl

/-- A word decodes exactly if it is of a kind, and then to its fields. -/
theorem decode_word_ok_iff (w : Word) (i : Instr) :
    decode (.word w) = .ok i ↔ ∃ k, classify w = some k ∧ readFields k w = i := by
  constructor
  · intro h
    cases hk : classify w with
    | none => rw [decode_word_of_no_kind w hk] at h; cases h
    | some k => rw [decode_word_of_classify w k hk] at h; cases h; exact ⟨k, rfl, rfl⟩
  · rintro ⟨k, hk, hi⟩
    exact decode_word hk hi

/-- The interval read from a word of its kind fits its field and fills it again (R79). -/
theorem interval_of_word {w : Word} {k : WordKind} (hk : classify w = some k) (h11 : w.getLsbD 11 = false) :
    ((w.extractLsb' 0 11).setWidth 16).toNat ≤ 2047 ∧
    tagged k (intervalPayload ((w.extractLsb' 0 11).setWidth 16)) = w := by
  constructor
  · have hlt := (w.extractLsb' 0 11).isLt
    rw [BitVec.toNat_setWidth]
    omega
  · rw [intervalPayload_readFields w h11, tagged_payloadOf k w (tagOf_of_classify w k hk)]

/-- Settles O2: each field read from a word goes back to where it was read. -/
theorem encodeOfDecodedWordIsTheWord : Obligations.EncodeOfDecodedWordIsTheWord := by
  intro w i h
  obtain ⟨k, hk, rfl⟩ := (decode_word_ok_iff w i).1 h
  have hword : k.tag ++ payloadOf w = w := by
    rw [← tagged_eq_append, tagged_payloadOf k w (tagOf_of_classify w k hk)]
  cases k with
  | ctrl =>
    obtain ⟨f, hf, hb⟩ := buildCtrl_readFields w hk
    rw [hf, encode_wCtrl, hb]
    exact ⟨rfl, rfl⟩
  | nincr =>
    refine ⟨decide_eq_true ?_, congrArg Raw.word ?_⟩
    · have hlt := (w.extractLsb' 0 12).isLt
      rw [BitVec.toNat_setWidth]
      show _ ≤ 4095
      omega
    · rw [setWidth_payload]
      exact hword
  | dfLo => exact ⟨rfl, congrArg Raw.word hword⟩
  | dfHi => exact ⟨rfl, congrArg Raw.word hword⟩
  | tintWave =>
    obtain ⟨hle, hw⟩ := interval_of_word hk (fixed_bit w _ hk 11 (by decide))
    refine ⟨decide_eq_true hle, ?_⟩
    rw [readFields, encode_wTintWave, hw]
  | tintClk =>
    obtain ⟨hle, hw⟩ := interval_of_word hk (fixed_bit w _ hk 11 (by decide))
    refine ⟨decide_eq_true hle, ?_⟩
    rw [readFields, encode_wTintClk, hw]
  | fsLo => exact ⟨rfl, congrArg Raw.word hword⟩
  | fsHi => exact ⟨rfl, congrArg Raw.word hword⟩

/-! ## The rows of the word table (R90) -/

/-- The eight rows are those of the eight kinds. -/
theorem mem_wordRows {r : WordRow} (h : r ∈ wordRows) : r = ⟨r.kind, patternOf r.kind, maskOf r.kind⟩ := by
  simp only [wordRows, List.mem_cons, List.not_mem_nil, or_false] at h
  rcases h with rfl | rfl | rfl | rfl | rfl | rfl | rfl | rfl <;> rfl

theorem exists_kind_iff (P : WordKind → Prop) :
    (∃ k, P k) ↔ P .ctrl ∨ P .nincr ∨ P .dfLo ∨ P .dfHi ∨ P .tintWave ∨ P .tintClk ∨ P .fsLo ∨ P .fsHi := by
  constructor
  · rintro ⟨k, hk⟩
    cases k <;> simp [hk]
  · rintro (h | h | h | h | h | h | h | h) <;> exact ⟨_, h⟩

/-- Settles O3: to decode is to be of a kind, to be of a kind is to match its row, and the rows are disjoint. -/
theorem wordDecodesIffItMatchesOneRow : Obligations.WordDecodesIffItMatchesOneRow := by
  refine fun w => ⟨?_, fun r hr q hq hrw hqw => ?_⟩
  · have hdecodes : (∃ i, decode (.word w) = .ok i) ↔ ∃ k, w &&& maskOf k = patternOf k := by
      simp only [decode_word_ok_iff, ← classify_iff]
      exact ⟨fun ⟨_, k, hk, _⟩ => ⟨k, hk⟩, fun ⟨k, hk⟩ => ⟨_, k, hk, rfl⟩⟩
    rw [hdecodes, exists_kind_iff]
    rfl
  · rw [mem_wordRows hr] at hrw ⊢
    rw [mem_wordRows hq] at hqw ⊢
    rw [rows_disjoint r.kind q.kind w hrw hqw]

/-! ## Bit patterns without an instruction (R81, R86) -/

theorem tag_injective : ∀ k l : WordKind, k.tag = l.tag → k = l := by
  intro k l h
  exact addressOf_injective k l (congrArg BitVec.toNat h)

/-- Settles O5: a word of a kind has the kind's tag and fixed bits, so these have none; the tag then names the reason. -/
theorem reservedPatternsAreRefusedByName : Obligations.ReservedPatternsAreRefusedByName := by
  refine ⟨fun f hf => ?_, fun w hw => ?_, fun w ht hw => ?_, fun w ht hw => ?_⟩
  · have hne (op : Opcode) (hop : op.toNat < 6) : f.op ≠ op := fun h => by
      rw [h] at hf
      omega
    simp [decode, decodeCommand, hne opInit (by decide), hne opBind (by decide), hne opSingle (by decide),
      hne opSweep (by decide), hne opSelftest (by decide), hne opTrignow (by decide)]
  · have hnone : classify w = none :=
      Option.eq_none_iff_forall_ne_some.2 fun k hk => hw k (tagOf_of_classify w k hk)
    rw [decode_word_of_no_kind w hnone, whyNoWord, if_neg (hw .ctrl), if_neg (not_or.2 ⟨hw .tintWave, hw .tintClk⟩)]
  · have hnone : classify w = none := by
      refine Option.eq_none_iff_forall_ne_some.2 fun k hk => hw ?_
      obtain rfl := tag_injective k .ctrl ((tagOf_of_classify w k hk).symm.trans ht)
      exact (classify_iff w .ctrl).1 hk
    rw [decode_word_of_no_kind w hnone, whyNoWord, if_pos (by rw [ht]; rfl)]
  · have hnone : classify w = none := by
      refine Option.eq_none_iff_forall_ne_some.2 fun k hk => ?_
      have hkind : k = .tintWave ∨ k = .tintClk :=
        ht.imp (fun h => tag_injective k _ ((tagOf_of_classify w k hk).symm.trans h))
          (fun h => tag_injective k _ ((tagOf_of_classify w k hk).symm.trans h))
      rcases hkind with rfl | rfl
      · cases hw.symm.trans (fixed_bit w _ hk 11 (by decide))
      · cases hw.symm.trans (fixed_bit w _ hk 11 (by decide))
    have hctrl : tagOf w ≠ WordKind.ctrl.tag := by rcases ht with h | h <;> rw [h] <;> decide
    rw [decode_word_of_no_kind w hnone, whyNoWord, if_neg hctrl]
    exact congrArg _ (if_pos ht)

/-- Settles O4, by evaluation of the decoder on the ten vectors. -/
theorem vectorWordsDecode : Obligations.VectorWordsDecode :=
  ⟨rfl, rfl, rfl, rfl, rfl, rfl, rfl, rfl, rfl, rfl⟩

/-! ## Encoder and builders (spec/42_register_command_builder.md) -/

/-- Settles O6: both tag the same payload; a count that its builder takes fits its field. -/
theorem encoderAgreesWithTheBuilders : Obligations.EncoderAgreesWithTheBuilders := by
  have tagOnly (k : WordKind) (hk : maskOf k = 0xF000) (p : Payload) :
      Raw.word (k.tag ++ p) = .word (tagged k p) ∧ classify (tagged k p) = some k :=
    ⟨congrArg Raw.word (tagged_eq_append k p).symm, classify_tagged k hk p⟩
  intro i k w h
  cases i <;> simp only [sentBy, Option.some.injEq, Prod.mk.injEq, Option.map_eq_some_iff, reduceCtorEq] at h
  case wCtrl f => obtain ⟨rfl, rfl⟩ := h; exact ⟨encode_wCtrl f, classify_buildCtrl f⟩
  case wDfLo p => obtain ⟨rfl, rfl⟩ := h; exact tagOnly .dfLo rfl p
  case wDfHi p => obtain ⟨rfl, rfl⟩ := h; exact tagOnly .dfHi rfl p
  case wFsLo p => obtain ⟨rfl, rfl⟩ := h; exact tagOnly .fsLo rfl p
  case wFsHi p => obtain ⟨rfl, rfl⟩ := h; exact tagOnly .fsHi rfl p
  case wNincr n =>
    obtain ⟨v, hv, rfl, rfl⟩ := h
    obtain rfl := Option.some.inj ((if_pos (nincInRange_of_buildNincr n v hv)).symm.trans hv)
    exact tagOnly .nincr rfl _
  case wTintWave n =>
    obtain ⟨v, hv, rfl, rfl⟩ := h
    obtain ⟨hr, -⟩ := buildTint_some n .waveCyclesBased v hv
    obtain rfl := Option.some.inj ((if_pos hr).symm.trans hv)
    exact ⟨encode_wTintWave n, classify_tagged_interval .waveCyclesBased n ((tintInRange_iff n).1 hr).2⟩
  case wTintClk n =>
    obtain ⟨v, hv, rfl, rfl⟩ := h
    obtain ⟨hr, -⟩ := buildTint_some n .clockCyclesBased v hv
    obtain rfl := Option.some.inj ((if_pos hr).symm.trans hv)
    exact ⟨encode_wTintClk n, classify_tagged_interval .clockCyclesBased n ((tintInRange_iff n).1 hr).2⟩

/-- The kind of the word that an instruction sends. -/
theorem classify_of_sentBy {i : Instr} {k : WordKind} {w : Word} (h : sentBy i = some (k, w)) : classify w = some k :=
  (encoderAgreesWithTheBuilders i k w h).2

/-- Settles O12: a word of the control row is built from the flags read from it, and these are the only ones. -/
theorem controlWordImage : Obligations.ControlWordImage := by
  refine ⟨fun w => ⟨fun hw => ?_, ?_⟩, fun f g h => ?_⟩
  · obtain ⟨f, -, hf⟩ := buildCtrl_readFields w ((classify_iff w .ctrl).2 hw)
    exact ⟨f, (buildCtrl_eq f).symm.trans hf⟩
  · rintro ⟨f, rfl⟩
    rw [← buildCtrl_eq]
    exact (classify_iff _ .ctrl).1 (classify_buildCtrl f)
  · rw [← buildCtrl_eq, ← buildCtrl_eq] at h
    exact Instr.wCtrl.inj ((readFields_buildCtrl f).symm.trans ((congrArg _ h).trans (readFields_buildCtrl g)))

end Sys2Proof.Machine
end

section
namespace Sys2Proof.Machine

/-! ## The converter at and above the clock (spec/40_frequency_converter.md sections 2 and 3) -/

/-- Settles O9: the tuning word is the low 24 bits of the quotient, which is 0 below the resolution. -/
theorem quotientIsTruncatedAboveTheClock : Obligations.QuotientIsTruncatedAboveTheClock := by
  intro f c z hc hlo hhi
  refine ⟨_, conv_of_range f c z hc hhi (by omega), BitVec.toNat_ofNat _ _, (quotient_lt_iff f c hc).symm, fun hlt => ?_⟩
  have hzero : quotient f c = 0 := Nat.div_eq_of_lt hlt
  rw [hzero]
  rfl

theorem quotient_mono {f g : Hertz} (c : Hertz) (h : f.toNat ≤ g.toNat) : quotient f c ≤ quotient g c :=
  Nat.div_le_div_right (Nat.mul_le_mul_right _ h)

/-- The quotient of a frequency one below the clock is at least 1. -/
theorem quotient_pred_pos (c : Hertz) (h : 2 ≤ c.toNat) : 0 < quotient (c - 1) c := by
  have hpred : (c - 1).toNat = c.toNat - 1 := by bv_omega
  rw [quotient, hpred]
  exact Nat.div_pos (by simp only [Config.twShift]; omega) (by omega)

/-- The quotient of the clock itself is one more than a tuning word holds. -/
theorem quotient_self (c : Hertz) (h : c.toNat ≠ 0) : quotient c c = 2 ^ 24 :=
  Nat.mul_div_cancel_left _ (Nat.pos_of_ne_zero h)

/-- Settles O10: below the clock the tuning word is the quotient, which is monotone; at the clock its 24 bits are all 0. -/
theorem conversionIsMonotoneOnlyBelowTheClock : Obligations.ConversionIsMonotoneOnlyBelowTheClock := by
  obtain ⟨-, hfloor, -⟩ := tuningWordIsTheFloor
  refine ⟨fun f g c z a b hfg hgc ha hb => ?_, fun c hlo hhi => ⟨?_, ?_⟩⟩
  · rw [hfloor f c z a (by omega) ha, hfloor g c z b hgc hb]
    exact quotient_mono c hfg
  · have hpred : (c - 1).toNat = c.toNat - 1 := by bv_omega
    have hconv := conv_of_range (c - 1) c false (by omega) (by omega) (by omega)
    refine ⟨_, hconv, ?_⟩
    rw [hfloor _ c false _ (by omega) hconv]
    exact quotient_pred_pos c hlo
  · rw [conv_of_range c c false (by omega) hhi (by omega), quotient_self c (by omega)]
    rfl

/-! ## The direction bit (R77) -/

theorem deltaHighPayload_incremental (twd : Tuning) : deltaHighPayload twd .incremental = highHalf twd := BitVec.or_zero

theorem deltaHighPayload_decremental (twd : Tuning) : deltaHighPayload twd .decremental = highHalf twd ||| 0x800#12 := rfl

theorem getLsbD_eleven_highHalf (twd : Tuning) : (highHalf twd).getLsbD 11 = twd.getLsbD 23 := by
  simp [highHalf]

theorem toNat_tag_append (t : Tag) (p : Payload) : (t ++ p).toNat = t.toNat * 4096 + p.toNat := by
  rw [BitVec.toNat_append, ← Nat.shiftLeft_add_eq_or_of_lt p.isLt, Nat.shiftLeft_eq]

/-- Or-ing bit 11 into a payload that has it changes nothing. -/
theorem or_bit_eleven_of_set (p : Payload) (h : p.getLsbD 11 = true) : p ||| 0x800#12 = p := by
  apply BitVec.eq_of_getLsbD_eq
  intro i hi
  have hbit : ∀ j, j < 12 → (0x800#12).getLsbD j = decide (j = 11) := by decide
  rw [BitVec.getLsbD_or, hbit i hi]
  by_cases h11 : i = 11
  · simp [h11, h]
  · simp [h11]

/-- Or-ing bit 11 into a payload that has it clear adds 2048. -/
theorem toNat_or_bit_eleven_of_clear (p : Payload) (h : p.getLsbD 11 = false) :
    (p ||| 0x800#12).toNat = p.toNat + 2048 := by
  have hlt : p.toNat < 2 ^ 11 := by
    have hmsb : p.msb = false := by rw [BitVec.msb_eq_getLsbD_last]; exact h
    have := BitVec.msb_eq_false_iff_two_mul_lt.1 hmsb
    omega
  rw [BitVec.toNat_or, Nat.or_comm, Nat.add_comm]
  exact (Nat.two_pow_add_eq_or_of_lt hlt 1).symm

/-- Settles O14: bit 11 of the payload is bit 23 of the delta tuning word, and the direction is or-ed into it. -/
theorem directionBitSharesBit23 : Obligations.DirectionBitSharesBit23 := by
  intro twd
  have hbit := getLsbD_eleven_highHalf twd
  simp only [buildDfHi, tagged_eq_append, deltaHighPayload_incremental, deltaHighPayload_decremental]
  refine ⟨rfl, fun h => ?_, fun h => ?_⟩
  · rw [or_bit_eleven_of_set _ (hbit.trans h)]
  · rw [toNat_tag_append, toNat_tag_append, toNat_or_bit_eleven_of_clear _ (hbit.trans h), Nat.add_assoc]

/-! ## The words of an operation (R34, R88, R196, R200) -/

theorem singleWords_kinds (x : Latches) (c : Hertz) (ws : List Word) (h : singleWords x c = some ws) :
    ws.map classify = [WordKind.ctrl, .fsLo, .fsHi].map some := by
  rw [singleWords_of_valid x c (validSingle_of_words x c ws h)] at h
  obtain rfl := Option.some.inj h
  simp only [List.map_cons, List.map_nil, classify_buildCtrl, classify_buildFsLo, classify_buildFsHi]

theorem classify_count_word (n : Count) : classify (0x1#4 ++ n.setWidth 12) = some .nincr := by
  have h := classify_tagged .nincr rfl (n.setWidth 12)
  rwa [tagged_eq_append] at h

theorem sweepWords_kinds (x : Latches) (c : Hertz) (ws : List Word) (h : sweepWords x c = some ws) :
    ws.map classify = [WordKind.ctrl, .fsLo, .fsHi, .dfLo, .dfHi, intervalKind x.base, .nincr].map some := by
  have hv := validSweep_of_words x c ws h
  rw [sweepWords_of_valid x c hv] at h
  obtain rfl := Option.some.inj h
  simp only [validSweep, Bool.and_eq_true] at hv
  have ht := ((tintInRange_iff x.tint).1 hv.2).2
  simp only [List.map_cons, List.map_nil, classify_buildCtrl, classify_buildFsLo, classify_buildFsHi, classify_buildDfLo,
    classify_buildDfHi, classify_interval_word x.base x.tint ht, classify_count_word]

theorem map_wordStep (ws : List Word) : ws.map wordStep = (ws.map classify).map (Option.map stepOf) :=
  (List.map_map ..).symm

/-- Settles O18: the kinds of the words, and the step code of a word is that of its kind. -/
theorem operationWordsStandInWriteOrder : Obligations.OperationWordsStandInWriteOrder := by
  refine ⟨fun x c ws h => ?_, fun x c ws h => ?_⟩
  · have hkinds := singleWords_kinds x c ws h
    exact ⟨hkinds, by rw [map_wordStep, hkinds]; rfl⟩
  · have hkinds := sweepWords_kinds x c ws h
    rw [map_wordStep, hkinds]
    cases x.base
    case waveCyclesBased => exact ⟨rfl, rfl⟩
    case clockCyclesBased => exact ⟨rfl, rfl⟩

end Sys2Proof.Machine
end

section
namespace Sys2Proof.Machine

/-! ## Slots and statements (spec/10_state.md R34, R35) -/

/-- What is left to write begins with the next slot. -/
theorem slotsLeft_head (op : Opcode) (i : BitVec 3) : slotsLeft op i = [] ∨ (slotsLeft op i).head? = some i := by
  revert op i; decide

theorem slotsLeft_seven (op : Opcode) : slotsLeft op 7 = [] := by revert op; decide

theorem slotOf_ne_seven (k : WordKind) : slotOf k ≠ 7 := by cases k <;> decide

theorem slotOf_range (k : WordKind) (h : k ≠ .ctrl) : 1 ≤ (slotOf k).toNat ∧ (slotOf k).toNat ≤ 6 := by
  cases k
  case ctrl => exact (h rfl).elim
  all_goals decide

/-- The slots left from that of a word on: the word's own, then those from the next slot on; the last word leaves none, and
is not the control word (R35, R210). -/
theorem slotsLeft_slotOf (op : Opcode) (k : WordKind) (hop : writesRegisters op) (hne : slotsLeft op (slotOf k) ≠ []) :
    slotsLeft op (slotOf k) = slotOf k :: slotsLeft op (nextSlot k op) ∧
    (if isLastOf k op then nextSlot k op = 7 ∧ k ≠ .ctrl else slotsLeft op (nextSlot k op) ≠ []) := by
  revert hne
  rcases hop with rfl | rfl | rfl <;> cases k <;> decide

/-- The slot of the trigger stage (R35, R179). -/
def pulseSlots : TriggerSource → List (BitVec 3)
  | .automatic => [7]
  | .external => []

theorem programSlots_eq (op : Opcode) (trig : TriggerSource) (i : BitVec 3) :
    programSlots op trig i = (slotsLeft op i ++ pulseSlots trig).map some := by cases trig <;> rfl

theorem map_slot_triggerProgram (trig : TriggerSource) :
    (triggerProgram trig).map Action.slot = (pulseSlots trig).map some := by cases trig <;> rfl

/-- A program whose first statement has the slot `j`: `j` is the next slot, or the pulse's, when no word is left. -/
theorem programSlots_head {op : Opcode} {trig : TriggerSource} {i j : BitVec 3} {l : List (Option (BitVec 3))}
    (h : some j :: l = programSlots op trig i) :
    (j = i ∧ slotsLeft op i ≠ []) ∨ (slotsLeft op i = [] ∧ j = 7 ∧ trig = .automatic ∧ l = []) := by
  rw [programSlots_eq] at h
  rcases slotsLeft_head op i with hnil | hhead
  · right
    rw [hnil] at h
    cases trig with
    | automatic => cases h; exact ⟨hnil, rfl, rfl, rfl⟩
    | external => cases h
  · left
    obtain ⟨rest, hs⟩ := List.head?_eq_some_iff.1 hhead
    rw [hs] at h
    cases h
    exact ⟨rfl, by simp [hs]⟩

/-- The statements after a word's are those from the next slot on. -/
theorem programSlots_after_word {op : Opcode} {trig : TriggerSource} {k : WordKind} {l : List (Option (BitVec 3))}
    (hop : writesRegisters op) (h : some (slotOf k) :: l = programSlots op trig (slotOf k)) :
    slotsLeft op (slotOf k) ≠ [] ∧ l = programSlots op trig (nextSlot k op) := by
  rcases programSlots_head h with ⟨-, hne⟩ | ⟨-, hseven, -⟩
  · obtain ⟨hslots, -⟩ := slotsLeft_slotOf op k hop hne
    rw [programSlots_eq, hslots] at h
    rw [programSlots_eq]
    exact ⟨hne, (List.cons.inj h).2⟩
  · exact (slotOf_ne_seven k hseven).elim

/-! ## Where an operation stands (spec/10_state.md section 5, spec/44_sequencer_operations.md section 8) -/

/-- The phase of a register-writing operation in progress (R210). -/
def PhaseInv (s : State) : Prop :=
  (writesRegisters s.curOp → 1 ≤ s.seqIdx.toNat → s.seqIdx.toNat ≤ 6 → s.phase = .configured) ∧
  (writesRegisters s.curOp → s.seqIdx = 7 →
    s.phase = .armed ∨ (s.phase = .running ∧ s.pending = .none ∧ s.plan = [] ∧ s.x.trig = .automatic))

theorem sequencerInv_of_busy {s : State} (hb : s.busy = true) (hplan : PlanInv s) (hphase : PhaseInv s) :
    SequencerInv s :=
  ⟨fun h => (Bool.false_ne_true (h.symm.trans hb)).elim, fun _ => ⟨hplan, hphase⟩⟩

/-- A completed operation rests at slot 0 with nothing to do. -/
theorem sequencerInv_complete (s : State) (st : Status) (g : BitVec 3) (c : ErrCode) : SequencerInv (s.complete st g c) :=
  ⟨fun _ => ⟨rfl, rfl, rfl⟩, nofun⟩

/-- While a word is on the wire its slot is the next one, and the pulse is not yet reached. -/
theorem phaseInv_of_slot {s t : State} (h : PhaseInv s) (hs : s.seqIdx ≠ 7) (hop : t.curOp = s.curOp)
    (hidx : t.seqIdx = s.seqIdx) (hphase : t.phase = s.phase) : PhaseInv t := by
  rw [PhaseInv, hop, hidx, hphase]
  exact ⟨h.1, fun _ h7 => (hs h7).elim⟩

theorem phaseInv_of_zero {s : State} (h : s.seqIdx = 0) : PhaseInv s := by simp [PhaseInv, h]

theorem phaseInv_of_seven {s : State} (h : s.seqIdx = 7)
    (hphase : writesRegisters s.curOp →
      s.phase = .armed ∨ (s.phase = .running ∧ s.pending = .none ∧ s.plan = [] ∧ s.x.trig = .automatic)) : PhaseInv s :=
  ⟨fun _ _ h6 => by simp [h] at h6, fun hop _ => hphase hop⟩

theorem planInv_none {s : State} (hp : s.pending = .none) :
    PlanInv s ↔
      (s.curOp = opInit ∧ s.seqIdx = 0 ∧ ∃ n, n < 5 ∧ s.plan = initProgram.drop n) ∨
      (s.curOp = opBind ∧ s.seqIdx = 0 ∧ s.plan = [.attach]) ∨
      (s.curOp = opTrignow ∧ s.seqIdx = 0 ∧ s.plan = [.pulse]) ∨
      (pulses s ∧ s.seqIdx = 7 ∧ s.plan = []) ∨
      (writesRegisters s.curOp ∧ (s.seqIdx = 7 ∨ slotsLeft s.curOp s.seqIdx ≠ []) ∧
        s.plan.map Action.slot = programSlots s.curOp s.x.trig s.seqIdx) := by
  simp only [PlanInv, hp]

/-- A word is to begin: the operation writes registers and stands at the word's slot. -/
theorem planInv_word {s : State} {w : Word} {rest : List Action} {k : WordKind} (h : PlanInv s) (hp : s.pending = .none)
    (hl : s.plan = .word w :: rest) (hk : classify w = some k) :
    writesRegisters s.curOp ∧ slotOf k = s.seqIdx ∧
      slotOfWord w :: rest.map Action.slot = programSlots s.curOp s.x.trig s.seqIdx := by
  rcases (planInv_none hp).1 h with ⟨-, -, n, hn, hplan⟩ | ⟨-, -, hplan⟩ | ⟨-, -, hplan⟩ | ⟨-, -, hplan⟩ | ⟨hop, -, hplan⟩
  · have hmem : Action.word w ∈ initProgram := List.mem_of_mem_drop (by rw [← hplan, hl]; exact List.mem_cons_self)
    simp [initProgram] at hmem
  · cases hl.symm.trans hplan
  · cases hl.symm.trans hplan
  · cases hl.symm.trans hplan
  · have hslot : slotOfWord w = some (slotOf k) := by rw [slotOfWord, hk]; rfl
    rw [hl] at hplan
    have hcons : slotOfWord w :: rest.map Action.slot = programSlots s.curOp s.x.trig s.seqIdx := hplan
    refine ⟨hop, ?_, hcons⟩
    rw [hslot] at hcons
    rcases programSlots_head hcons with ⟨hidx, -⟩ | ⟨-, hseven, -⟩
    · exact hidx
    · exact (slotOf_ne_seven k hseven).elim

/-- The pulse is to begin: it is the last statement, of TRIGNOW or of an operation whose words are written. -/
theorem planInv_pulse {s : State} {rest : List Action} (h : PlanInv s) (hp : s.pending = .none)
    (hl : s.plan = .pulse :: rest) : pulses s ∧ rest = [] ∧ (writesRegisters s.curOp → s.seqIdx = 7) := by
  rcases (planInv_none hp).1 h with
    ⟨-, -, n, hn, hplan⟩ | ⟨-, -, hplan⟩ | ⟨hop, -, hplan⟩ | ⟨-, -, hplan⟩ | ⟨hop, hidx, hplan⟩
  · have hmem : Action.pulse ∈ initProgram := List.mem_of_mem_drop (by rw [← hplan, hl]; exact List.mem_cons_self)
    simp [initProgram] at hmem
  · cases hl.symm.trans hplan
  · cases hl.symm.trans hplan
    exact ⟨.inr hop, rfl, fun hw => by rw [hop] at hw; exact absurd hw (by unfold writesRegisters; decide)⟩
  · cases hl.symm.trans hplan
  · rw [hl] at hplan
    have hcons : some 7 :: rest.map Action.slot = programSlots s.curOp s.x.trig s.seqIdx := hplan
    rcases programSlots_head hcons with ⟨hseven, hne⟩ | ⟨hnil, -, htrig, hrest⟩
    · rw [← hseven, slotsLeft_seven] at hne
      exact (hne rfl).elim
    · exact ⟨.inl ⟨hop, htrig⟩, List.map_eq_nil_iff.1 hrest, fun _ => hidx.resolve_right fun hne => hne hnil⟩

/-- A pin write is to begin: it is one of INIT's four. -/
theorem planInv_pin {s : State} {l : Pin} {b : Bool} {rest : List Action} (h : PlanInv s) (hp : s.pending = .none)
    (hl : s.plan = .pin l b :: rest) :
    s.curOp = opInit ∧ s.seqIdx = 0 ∧ ∃ n, n < 5 ∧ rest = initProgram.drop n := by
  rcases (planInv_none hp).1 h with
    ⟨hop, hidx, n, hn, hplan⟩ | ⟨-, -, hplan⟩ | ⟨-, -, hplan⟩ | ⟨-, -, hplan⟩ | ⟨-, -, hplan⟩
  · refine ⟨hop, hidx, n + 1, ?_, (initProgram_cons (hl.symm.trans hplan)).1⟩
    have hne : n ≠ 4 := by
      rintro rfl
      cases hl.symm.trans hplan
    omega
  · cases hl.symm.trans hplan
  · cases hl.symm.trans hplan
  · cases hl.symm.trans hplan
  · rw [hl, programSlots_eq] at hplan
    have hmem : (none : Option (BitVec 3)) ∈ (slotsLeft s.curOp s.seqIdx ++ pulseSlots s.x.trig).map some := by
      rw [← hplan]; exact List.mem_cons_self
    simp at hmem

/-- The end of a frame answered `Ok` moves the sequencer to the next slot, and the phase with it (R35, R210). -/
theorem sequencerInv_frameEnds_ok {s : State} {k : WordKind} (hb : s.busy = true) (hplan : PlanInv s) (hphase : PhaseInv s)
    (hp : s.pending = .frameEnd k .ok) : SequencerInv (s.frameEnds k .ok) := by
  simp only [PlanInv, hp] at hplan
  obtain ⟨hop, hidx, hslots⟩ := hplan
  rw [← hidx] at hslots
  obtain ⟨hne, hrest⟩ := programSlots_after_word hop hslots
  obtain ⟨-, hlast⟩ := slotsLeft_slotOf s.curOp k hop hne
  refine sequencerInv_of_busy hb ((planInv_none rfl).2 (.inr (.inr (.inr (.inr ⟨hop, ?_, hrest⟩))))) ?_
  · simp only [frameEnds_ok_seqIdx, frameEnds_ok_curOp]
    split_ifs at hlast
    · exact .inl hlast.1
    · exact .inr hlast
  · simp only [PhaseInv, frameEnds_ok_seqIdx, frameEnds_ok_curOp, frameEnds_ok_phase, phaseAfterOk]
    split_ifs at hlast with hl
    · simp [hlast.1, hlast.2, hl]
    · refine ⟨fun _ _ _ => ?_, fun _ hseven => ?_⟩
      · by_cases hk : k = .ctrl
        · rw [if_pos hk]
        · obtain ⟨hlo, hhi⟩ := slotOf_range k hk
          rw [hidx] at hlo hhi
          rw [if_neg hk, if_neg hl]
          exact hphase.1 hop hlo hhi
      · rw [hseven, slotsLeft_seven] at hlast
        exact (hlast rfl).elim

/-- The last step of a pulse leaves an operation that writes registers Running. -/
theorem sequencerInv_pulseEnds {s : State} (hb : s.busy = true) (hplan : PlanInv s) (hp : s.pending = .pulseEnd) :
    SequencerInv s.pulseEnds := by
  simp only [PlanInv, hp] at hplan
  obtain ⟨hpulses, hidx, hnil⟩ := hplan
  refine sequencerInv_of_busy hb ((planInv_none rfl).2 (.inr (.inr (.inr (.inl ⟨hpulses, hidx, hnil⟩))))) ?_
  refine phaseInv_of_seven hidx fun hop => .inr ⟨?_, rfl, hnil, ?_⟩
  · have hne : s.curOp ≠ opTrignow := by rcases hop with h | h | h <;> (rw [show s.curOp = _ from h]; decide)
    exact if_neg hne
  · rcases hpulses with ⟨-, htrig⟩ | htn
    · exact htrig
    · have hop : writesRegisters s.curOp := hop
      rw [htn] at hop
      exact absurd hop (by unfold writesRegisters; decide)

/-- One step of R8 keeps the sequencer index, the statements left and the phase together. -/
theorem proceed_sequencerInv (s : State) (hb : s.busy = true) (hplan : PlanInv s) (hphase : PhaseInv s) :
    SequencerInv s.proceed := by
  refine proceed_induct (P := SequencerInv) s
    ?wait ?answer ?frameOk ?frameError ?hold ?pulseEnd ?raise ?done ?pin ?unbuilt ?unbound ?unpolled ?busy ?ready ?pulse
    ?newContext ?attach
  case wait => exact sequencerInv_of_busy hb hplan hphase
  case frameOk => exact fun k hp => sequencerInv_frameEnds_ok hb hplan hphase hp
  case pulseEnd => exact sequencerInv_pulseEnds hb hplan
  case raise => exact fun st g c _ => sequencerInv_complete ..
  case done => exact fun _ _ => sequencerInv_complete ..
  case unbuilt => exact fun _ _ _ _ _ _ _ => sequencerInv_complete ..
  case unbound => exact fun _ _ _ _ _ _ _ => sequencerInv_complete ..
  case newContext => exact fun _ _ _ => sequencerInv_complete ..
  case attach => exact fun _ _ _ => sequencerInv_complete ..
  case answer =>
    intro k w r rest hp _
    simp only [PlanInv, hp] at hplan
    obtain ⟨hop, hk, hidx, hslots⟩ := hplan
    refine sequencerInv_of_busy hb ?_ (phaseInv_of_slot hphase (hidx ▸ slotOf_ne_seven k) rfl rfl rfl)
    rw [slotOfWord, hk] at hslots
    cases r with
    | ok => exact ⟨hop, hidx, hslots⟩
    | error c => exact ⟨hop, hidx, rfl⟩
  case frameError =>
    intro k c hp
    simp only [PlanInv, hp] at hplan
    obtain ⟨hop, hidx, -⟩ := hplan
    refine sequencerInv_of_busy hb rfl ⟨fun _ hlo hhi => ?_, fun _ hseven => ?_⟩
    · have hk : k ≠ .ctrl := by
        rintro rfl
        have hlo : 1 ≤ s.seqIdx.toNat := hlo
        rw [← hidx] at hlo
        exact absurd hlo (by decide)
      rw [frameEnds_error_phase, phaseAfterError, if_neg hk]
      exact hphase.1 hop hlo hhi
    · exact (slotOf_ne_seven k (hidx.trans hseven)).elim
  case hold =>
    intro n hp _
    simp only [PlanInv, hp] at hplan
    exact sequencerInv_of_busy hb hplan ⟨hphase.1, fun hop h7 => (hphase.2 hop h7).imp_right fun h => by simp [hp] at h⟩
  case pin =>
    intro l b rest hp hl
    obtain ⟨hop, hidx, hrest⟩ := planInv_pin hplan hp hl
    exact sequencerInv_of_busy (by simpa using hb)
      ((planInv_none (by simpa using hp)).2 (.inl (by simpa using ⟨hop, hidx, hrest⟩)))
      (phaseInv_of_zero (by simpa using hidx))
  case unpolled =>
    exact fun w rest k _ _ _ _ _ => sequencerInv_of_busy hb hplan hphase
  case busy =>
    intro w rest k ps hp hl hk _ _
    obtain ⟨-, hidx, -⟩ := planInv_word hplan hp hl hk
    exact sequencerInv_of_busy hb rfl (phaseInv_of_slot hphase (hidx ▸ slotOf_ne_seven k) rfl rfl rfl)
  case ready =>
    intro w rest k ps hp hl hk _ _
    obtain ⟨hop, hidx, hslots⟩ := planInv_word hplan hp hl hk
    exact sequencerInv_of_busy hb ⟨hop, hk, hidx, hslots⟩ (phaseInv_of_slot hphase (hidx ▸ slotOf_ne_seven k) rfl rfl rfl)
  case pulse =>
    intro rest hp hl
    obtain ⟨hpulses, rfl, hidx⟩ := planInv_pulse hplan hp hl
    refine sequencerInv_of_busy hb ⟨hpulses, rfl, rfl⟩ (phaseInv_of_seven rfl fun hop => .inl ?_)
    exact (hphase.2 hop (hidx hop)).resolve_right fun h => by simp [hl] at h

/-- The statements of a register-writing operation are those from slot 0 on. -/
theorem map_slot_program {op : Opcode} {kinds : List WordKind} {ws : List Word} (trig : TriggerSource)
    (hws : ws.map classify = kinds.map some) (hkinds : kinds.map slotOf = slotsLeft op 0) :
    (ws.map Action.word ++ triggerProgram trig).map Action.slot = programSlots op trig 0 := by
  have hwords : (ws.map Action.word).map Action.slot = (slotsLeft op 0).map some := by
    calc (ws.map Action.word).map Action.slot = (ws.map classify).map (Option.map slotOf) := by
          rw [List.map_map, List.map_map]; rfl
      _ = (slotsLeft op 0).map some := by rw [hws, ← hkinds, List.map_map, List.map_map]; rfl
  rw [List.map_append, hwords, map_slot_triggerProgram, programSlots_eq, List.map_append]

/-- An accepted command stands before the first of its statements. -/
theorem planInv_accept {s u : State} {x : Latches} {p : Option (List Action)} (h : Accepts s x p) :
    PlanInv (u.accept x p) := by
  have hwrites (ws : List Word) (kinds : List WordKind) (hop : writesRegisters x.op)
      (hws : ws.map classify = kinds.map some) (hkinds : kinds.map slotOf = slotsLeft x.op 0) :
      PlanInv (u.accept x (some (ws.map .word ++ triggerProgram x.trig))) := by
    refine (planInv_none rfl).2 (.inr (.inr (.inr (.inr ⟨hop, .inr ?_, map_slot_program x.trig hws hkinds⟩))))
    show slotsLeft x.op 0 ≠ []
    rcases hop with h | h | h <;> (rw [h]; decide)
  rcases h with ⟨hop, rfl⟩ | ⟨hop, rfl⟩ | ⟨hop, -, rfl⟩ | ⟨hop, -, ws, -, hws, rfl⟩ | ⟨hop, -, ws, -, hws, rfl⟩ | rfl
  · exact (planInv_none rfl).2 (.inl ⟨hop, rfl, 0, by decide, rfl⟩)
  · exact (planInv_none rfl).2 (.inr (.inl ⟨hop, rfl, rfl⟩))
  · exact (planInv_none rfl).2 (.inr (.inr (.inl ⟨hop, rfl, rfl⟩)))
  · exact hwrites ws _ (.inl hop) (singleWords_kinds x _ ws hws) (by rw [hop]; rfl)
  · refine hwrites ws _ (.inr hop) (sweepWords_kinds x _ ws hws) ?_
    rcases hop with h | h <;> rw [h] <;> cases x.base <;> rfl
  · exact rfl

/-- Settles O55: acceptance begins the program at slot 0, and each step of R8 keeps slot, statements and phase together. -/
theorem stepKeepsSequencerInv : Obligations.StepKeepsSequencerInv := by
  refine step_keeps (P := SequencerInv) (fun s _ => ⟨fun _ => ⟨rfl, rfl, rfl⟩, nofun⟩) ?_ ?_
  · intro s x p rest _ ha _
    exact sequencerInv_of_busy rfl (planInv_accept ha) (phaseInv_of_zero rfl)
  · intro s hb hs
    obtain ⟨hplan, hphase⟩ := hs.2 hb
    exact proceed_sequencerInv s hb hplan hphase

end Sys2Proof.Machine
end

section
namespace Sys2Proof.Machine

/-! ## Legal results (spec/60_exceptions.md section 1, R88) -/

theorem stepOf_range (k : WordKind) : 1 ≤ (stepOf k).toNat ∧ (stepOf k).toNat ≤ 5 := by cases k <;> decide

theorem legalResult_ok : LegalResult .ok 0 0 := ⟨rfl, rfl⟩

theorem legalResult_paramError : LegalResult .paramError 0 0 := ⟨rfl, rfl⟩

theorem legalResult_busy (k : WordKind) : LegalResult .transportBusy (stepOf k) 0 :=
  ⟨(stepOf_range k).1, (stepOf_range k).2, rfl⟩

theorem legalResult_error (k : WordKind) (c : ErrCode) : LegalResult .transportError (stepOf k) c := stepOf_range k

/-- A completion reports its record and leaves none to report. -/
theorem resultInv_complete (s : State) {st : Status} {g : BitVec 3} {c : ErrCode} (h : LegalResult st g c) :
    ResultInv (s.complete st g c) := ⟨h, nofun⟩

/-- What raises an error leaves the result registers as they were. -/
theorem resultInv_of_pending {s t : State} (h : LegalResult s.resStatus s.resStep s.resCode)
    (hst : t.resStatus = s.resStatus) (hg : t.resStep = s.resStep) (hc : t.resCode = s.resCode)
    (hp : ∀ st g c, t.pending = .raise st g c → LegalResult st g c) : ResultInv t := by
  rw [ResultInv, hst, hg, hc]
  exact ⟨h, hp⟩

/-- One step of R8 raises and reports legal records. -/
theorem proceed_resultInv (s : State) (h : ResultInv s) : ResultInv s.proceed := by
  obtain ⟨hres, hraised⟩ := h
  refine proceed_induct (P := ResultInv) s
    ?wait ?answer ?frameOk ?frameError ?hold ?pulseEnd ?raise ?done ?pin ?unbuilt ?unbound ?unpolled ?busy ?ready ?pulse
    ?newContext ?attach
  case wait => exact ⟨hres, hraised⟩
  case frameError =>
    intro k c _
    refine resultInv_of_pending hres rfl rfl rfl fun st g d hp => ?_
    cases hp
    exact legalResult_error k c
  case busy =>
    intro w rest k ps _ _ _ _ _
    refine resultInv_of_pending hres rfl rfl rfl fun st g d hp => ?_
    cases hp
    exact legalResult_busy k
  case raise => exact fun st g c hp => resultInv_complete s (hraised st g c hp)
  case done => exact fun _ _ => resultInv_complete _ legalResult_ok
  case unbuilt => exact fun _ _ _ _ _ _ _ => resultInv_complete _ legalResult_paramError
  case unbound => exact fun _ _ k _ _ _ _ => resultInv_complete _ (legalResult_busy k)
  case newContext => exact fun _ _ _ => resultInv_complete _ legalResult_ok
  case attach => exact fun _ _ _ => resultInv_complete _ legalResult_ok
  case pin =>
    intro l b rest hp _
    exact resultInv_of_pending hres (by simp) (by simp) (by simp) (by simp [hp])
  case unpolled => exact fun _ _ _ hp _ _ _ _ => resultInv_of_pending hres rfl rfl rfl hraised
  all_goals intros; exact resultInv_of_pending hres rfl rfl rfl nofun

/-- Settles O54: a refused command raises ParamError, and each step of R8 raises and reports legal records. -/
theorem stepKeepsResultInv : Obligations.StepKeepsResultInv := by
  refine step_keeps (P := ResultInv) (fun s _ => ⟨legalResult_ok, nofun⟩) ?_ fun s _ hs => proceed_resultInv s hs
  rintro s x p rest - - ⟨hres, -⟩
  refine ⟨hres, fun st g c hp => ?_⟩
  cases p with
  | none => cases hp; exact legalResult_paramError
  | some l => cases hp

/-! ## Reset (spec/10_state.md section 9, spec/70_reset_and_hazards.md section 1) -/

/-- Settles O51: after reset no statement is begun or to come, and the chip and the history are empty. -/
theorem resetMeetsTheInvariants : Obligations.ResetMeetsTheInvariants :=
  ⟨⟨rfl, fun _ h => (List.not_mem_nil h).elim⟩,
    ⟨fun _ => rfl, fun _ h => (List.not_mem_nil h).elim, fun _ => ⟨.inl rfl, fun _ h => (List.not_mem_nil h).elim⟩,
      fun h => (h rfl).elim, fun h => (List.not_mem_nil h).elim⟩,
    ⟨legalResult_ok, nofun⟩, ⟨fun _ => ⟨rfl, rfl, rfl⟩, nofun⟩,
    ⟨fun _ => rfl, fun _ h => (List.not_mem_nil h).elim, rfl⟩⟩

/-- Settles O50, by evaluation of the reset state. -/
theorem resetStateValues : Obligations.ResetStateValues :=
  ⟨rfl, rfl, rfl, rfl, rfl, rfl, rfl, rfl, rfl, rfl, fun _ => rfl, rfl, rfl⟩

theorem step_of_rst (s : State) (h : s.rst = true) : step s = .next s.hardwareReset := by
  simp only [step, fetch, h, if_true]

/-- Settles O49: the chip after reset is empty but for the register of a word in flight. -/
theorem hardwareResetEndsTheOperation : Obligations.HardwareResetEndsTheOperation := by
  refine fun s hr => ⟨s.chipAfterReset, step_of_rst s hr, fun a k w hp => ?_, fun hp => ?_⟩
  · simp [State.chipAfterReset, hp, Memory.read, eq_comm]
  · rcases chipAfterReset_cases s with h | ⟨k, w, hs, -⟩
    · exact h
    · exact (hp k w hs).elim

end Sys2Proof.Machine
end

section
namespace Sys2Proof.Machine

/-! ## The word instructions, outcome by outcome (spec/43_write_engine.md sections 1 and 2) -/

/-- A word answered `Ok`, at a pace that lets its frame end. -/
theorem exec_word_ok {i : Instr} {k : WordKind} {w : Word} {s : State} {ps : List Bool} {ss : List ShiftAnswer}
    (h : sentBy i = some (k, w)) (hpend : s.pending = .none) (hb : s.bound = true) (hp : s.polls = true :: ps)
    (hs : s.shifts = .ok :: ss) (hn : 2 ≤ s.pace) :
    exec i s = .next (s.wroteOk w ps ss (nextSlot k s.curOp) (phaseAfterOk k s.curOp s.phase)) := by
  rw [exec_word i k w s h hpend, writeTicks_ok { s with busy := true } k w ps ss s.pace hn (classify_of_sentBy h) rfl hpend
    hb hp hs]
  rfl

/-- Only the high start word, of SINGLE, and the count word, of SWEEP and SELFTEST, are last words (R210). -/
theorem isLastOf_eq (k : WordKind) (op : Opcode) :
    isLastOf k op = ((k == .fsHi && op == opSingle) || (k == .nincr && (op == opSweep || op == opSelftest))) := by
  revert op; cases k <;> decide

/-- Settles O19: the control word is the last one of no operation. -/
theorem controlWordAnsweredOkCompletes : Obligations.ControlWordAnsweredOkCompletes := by
  intro f s ps ss hpend hb hp hs hn
  have hlast : isLastOf .ctrl s.curOp = false := isLastOf_eq .ctrl s.curOp
  rw [exec_word_ok (k := .ctrl) rfl hpend hb hp hs hn, nextSlot, hlast]
  rfl

/-- A word that is the last one of no operation moves to the slot after its own and keeps the phase (R35, R210). -/
theorem exec_word_ok_between {i : Instr} {k : WordKind} {w : Word} {s : State} {ps : List Bool} {ss : List ShiftAnswer}
    (h : sentBy i = some (k, w)) (hpend : s.pending = .none) (hb : s.bound = true) (hp : s.polls = true :: ps)
    (hs : s.shifts = .ok :: ss) (hn : 2 ≤ s.pace) (hk : k ≠ .ctrl) (hlast : isLastOf k s.curOp = false) :
    exec i s = .next (s.wroteOk w ps ss (slotOf k + 1) s.phase) := by
  rw [exec_word_ok h hpend hb hp hs hn, nextSlot, phaseAfterOk, hlast, if_neg hk]
  rfl

/-- Settles O20: the four words are of their tags, and the high start word is the last one of SINGLE alone. -/
theorem frequencyWordsAnsweredOkComplete : Obligations.FrequencyWordsAnsweredOkComplete := by
  intro p s ps ss hpend hb hp hs hn
  have between (i : Instr) (k : WordKind) (h : sentBy i = some (k, tagged k p)) (hk : k ≠ .ctrl)
      (hlast : isLastOf k s.curOp = false) : exec i s = .next (s.wroteOk (k.tag ++ p) ps ss (slotOf k + 1) s.phase) := by
    rw [← tagged_eq_append]
    exact exec_word_ok_between h hpend hb hp hs hn hk hlast
  refine ⟨between (.wFsLo p) .fsLo rfl nofun (isLastOf_eq _ _), ?_, between (.wDfLo p) .dfLo rfl nofun (isLastOf_eq _ _),
    between (.wDfHi p) .dfHi rfl nofun (isLastOf_eq _ _)⟩
  by_cases hop : s.curOp = opSingle
  · rw [if_pos hop, exec_word_ok (k := .fsHi) rfl hpend hb hp hs hn, tagged_eq_append, hop]
    rfl
  · rw [if_neg hop]
    refine between (.wFsHi p) .fsHi rfl nofun ?_
    rw [isLastOf_eq]
    simp [hop]

/-- Settles O21: the builders take the counts in range, and the count word is the last one of SWEEP and SELFTEST alone. -/
theorem countWordsAnsweredOkComplete : Obligations.CountWordsAnsweredOkComplete := by
  intro n s ps ss hpend hb hp hs hn hlo
  refine ⟨fun hhi => ?_, fun hhi => ?_⟩
  · have hr : tintInRange n = true := (tintInRange_iff n).2 ⟨hlo, hhi⟩
    have hwave : sentBy (.wTintWave n) = some (.tintWave, 0x4#4 ++ n.setWidth 12) :=
      congrArg (Option.map _) (buildTint_of_range n .waveCyclesBased hr)
    have hclk : sentBy (.wTintClk n) = some (.tintClk, 0x6#4 ++ n.setWidth 12) :=
      congrArg (Option.map _) (buildTint_of_range n .clockCyclesBased hr)
    exact ⟨exec_word_ok_between hwave hpend hb hp hs hn nofun (isLastOf_eq _ _),
      exec_word_ok_between hclk hpend hb hp hs hn nofun (isLastOf_eq _ _)⟩
  · have hr : nincInRange n = true := (nincInRange_iff n).2 ⟨hlo, hhi⟩
    have hsent : sentBy (.wNincr n) = some (.nincr, 0x1#4 ++ n.setWidth 12) :=
      congrArg (Option.map _) (buildNincr_of_range n hr)
    by_cases hop : s.curOp = opSweep ∨ s.curOp = opSelftest
    · rw [exec_word_ok hsent hpend hb hp hs hn, if_pos hop]
      rcases hop with h | h <;> (rw [h]; rfl)
    · rw [if_neg hop]
      refine exec_word_ok_between hsent hpend hb hp hs hn nofun ?_
      rw [isLastOf_eq]
      simpa [not_or] using hop

/-- A count that its builder refuses raises ParamError. -/
theorem issueBuilt_none {s : State} (k : WordKind) (h : s.pending = .none) :
    s.issueBuilt k none = .next (s.endedWith [] .paramError 0 0) := by
  rw [State.issueBuilt, if_pos h, raiseParam_eq, complete_eq_endedWith]

/-- Settles O22: out of range the builder gives no word. -/
theorem countWordsOutOfRangeRaiseParamError : Obligations.CountWordsOutOfRangeRaiseParamError := by
  refine fun n s hp => ⟨fun hn => ?_, fun hn => ⟨?_, ?_⟩⟩
  · rw [exec, execWNincr, buildNincr_eq_none n (by rw [nincInRange_iff]; omega), issueBuilt_none _ hp]
  · have hnone : buildTintWave n = none := buildTint_eq_none n .waveCyclesBased (by rw [tintInRange_iff]; omega)
    rw [exec, execWTintWave, hnone, issueBuilt_none _ hp]
  · have hnone : buildTintClk n = none := buildTint_eq_none n .clockCyclesBased (by rw [tintInRange_iff]; omega)
    rw [exec, execWTintClk, hnone, issueBuilt_none _ hp]

/-- Settles O23: without a binding the write is a completion; on a busy link it is a transfer and then a completion. -/
theorem busyWordEndsTheOperation : Obligations.BusyWordEndsTheOperation := by
  intro i k w s h hpend
  rw [exec_word i k w s h hpend]
  refine ⟨fun hb => ?_, fun ps hb hp hn => ?_, fun ps hb hp hn => ?_⟩
  · rw [beginWord_unbound { s with busy := true } k w hb, writeTicks_stop _ _ rfl, complete_eq_endedWith]
    rfl
  · rw [writeTicks_busy { s with busy := true } k w ps s.pace hn rfl hb hp]
    rfl
  · rw [beginWord_busy { s with busy := true } k w ps hb hp, hn]
    rfl

/-- Settles O24: the write goes through its four steps. -/
theorem failedWordEndsTheOperation : Obligations.FailedWordEndsTheOperation := by
  intro i k w s ps ss c h hpend hb hp hs hn
  rw [exec_word i k w s h hpend,
    writeTicks_error { s with busy := true } k w ps ss c s.pace hn (classify_of_sentBy h) rfl hb hp hs]
  rfl

/-- A write that cannot go on stands still at every pace. -/
theorem writeTicks_fixed (s : State) (n : Nat) (h : s.tick = s) : s.writeTicks n = s := by
  induction n with
  | zero => rfl
  | succ n ih => rw [State.writeTicks, h, ih, ite_self]

/-- A word that is not answered leaves the block as it is (R40). -/
theorem tick_unanswered (s : State) (k : WordKind) (w : Word) (hp : s.pending = .shift k w) (hs : s.shifts = []) :
    s.tick = s := by
  simp only [State.tick, State.proceed, hp, State.shiftReturns, hs, ite_self]

/-- Settles O25: without a poll result no frame is opened; without an answer, or at pace 0, it stays open. -/
theorem unansweredWordWaits : Obligations.UnansweredWordWaits := by
  intro i k w s h hpend hb
  rw [exec_word i k w s h hpend]
  refine ⟨fun hp => ?_, fun ps hp hwait => ?_⟩
  · rw [beginWord_unpolled { s with busy := true } k w hb hp, writeTicks_stop _ _ (by simp only [hpend]; rfl)]
  · rw [beginWord_ready { s with busy := true } k w ps hb hp]
    rcases hwait with hs | hn
    · rw [writeTicks_fixed]
      · rfl
      · exact tick_unanswered _ k w rfl hs
    · rw [hn]
      rfl

/-- Settles O26: both ways to issue a word look for a statement that is begun. -/
theorem secondTransferFaults : Obligations.SecondTransferFaults := by
  intro i s hi hp
  have hword (k : WordKind) (w : Word) : s.issueWord k w = .fault .transferNotReentrant := if_neg hp
  have hbuilt (k : WordKind) (o : Option Word) : s.issueBuilt k o = .fault .transferNotReentrant := by
    cases o with
    | none => exact if_neg hp
    | some w => exact hword k w
  cases i
  case wCtrl f => exact hword ..
  case wNincr n => exact hbuilt ..
  case wDfLo p => exact hword ..
  case wDfHi p => exact hword ..
  case wTintWave n => exact hbuilt ..
  case wTintClk n => exact hbuilt ..
  case wFsLo p => exact hword ..
  case wFsHi p => exact hword ..
  all_goals cases hi

end Sys2Proof.Machine
end

section
namespace Sys2Proof.Machine

/-! ## What words and pulses leave unchanged (spec/10_state.md sections 2 and 7, spec/20_memory.md section 1) -/

/-- What no word and no pulse changes: the Device Context but `ctx.last`, the latches and the opcode, the lines held low,
and the reset, command and pace inputs. -/
structure Frame (s t : State) : Prop where
  refclk : t.refclk = s.refclk
  handle : t.handle = s.handle
  bound : t.bound = s.bound
  x : t.x = s.x
  curOp : t.curOp = s.curOp
  pinInt : t.pinInt = s.pinInt
  pinStby : t.pinStby = s.pinStby
  rst : t.rst = s.rst
  commands : t.commands = s.commands
  pace : t.pace = s.pace

theorem Frame.refl (s : State) : Frame s s := ⟨rfl, rfl, rfl, rfl, rfl, rfl, rfl, rfl, rfl, rfl⟩

theorem Frame.trans {s t u : State} (h : Frame s t) (g : Frame t u) : Frame s u :=
  ⟨g.refclk.trans h.refclk, g.handle.trans h.handle, g.bound.trans h.bound, g.x.trans h.x, g.curOp.trans h.curOp,
    g.pinInt.trans h.pinInt, g.pinStby.trans h.pinStby, g.rst.trans h.rst, g.commands.trans h.commands,
    g.pace.trans h.pace⟩

/-- A statement that drives a word or a pulse, so none of INIT's or BIND's. -/
def Action.isTransaction : Action → Bool
  | .word _ => true
  | .pulse => true
  | .pin _ _ => false
  | .newContext => false
  | .attach => false

/-- One step of R8 in an operation of words and pulses. -/
theorem proceed_frame (s : State) (h : s.pending = .none → ∀ a ∈ s.plan, a.isTransaction = true) :
    Frame s s.proceed := by
  have hhead (a : Action) (rest : List Action) (hp : s.pending = .none) (hl : s.plan = a :: rest) :
      a.isTransaction = true := h hp a (by simp [hl])
  refine proceed_induct (P := Frame s) s
    ?wait ?answer ?frameOk ?frameError ?hold ?pulseEnd ?raise ?done ?pin ?unbuilt ?unbound ?unpolled ?busy ?ready ?pulse
    ?newContext ?attach
  case pin => exact fun l b rest hp hl => nomatch hhead _ rest hp hl
  case newContext => exact fun rest hp hl => nomatch hhead _ rest hp hl
  case attach => exact fun rest hp hl => nomatch hhead _ rest hp hl
  all_goals intros; exact ⟨rfl, rfl, rfl, rfl, rfl, rfl, rfl, rfl, rfl, rfl⟩

theorem tick_frame (s : State) (h : s.pending = .none → ∀ a ∈ s.plan, a.isTransaction = true) : Frame s s.tick := by
  cases hb : s.busy with
  | false => rw [tick_idle s hb]; exact Frame.refl s
  | true => rw [tick_busy s hb]; exact proceed_frame s h

theorem tick_plan_subset (s : State) : s.tick.plan ⊆ s.plan := by
  cases hb : s.busy with
  | false => rw [tick_idle s hb]; exact List.Subset.refl _
  | true => rw [tick_busy s hb]; exact proceed_plan_subset s

/-- Any number of steps of R8 in an operation of words and pulses. -/
theorem ticks_frame (s : State) (n : Nat) (h : ∀ a ∈ s.plan, a.isTransaction = true) : Frame s (s.ticks n) := by
  refine (ticks_keep (P := fun u => Frame s u ∧ ∀ a ∈ u.plan, a.isTransaction = true) ?_ s n ⟨Frame.refl s, h⟩).1
  rintro u ⟨hframe, hplan⟩
  exact ⟨hframe.trans (tick_frame u fun _ => hplan), fun a ha => hplan a (tick_plan_subset u ha)⟩

/-! ### The chip registers that no word addresses -/

/-- A word on the wire after a step of R8 was there before, or was the next statement. -/
theorem proceed_shift (s : State) (k : WordKind) (w : Word) :
    s.proceed.pending = .shift k w →
      s.pending = .shift k w ∨ (s.pending = .none ∧ .word w ∈ s.plan ∧ classify w = some k) := by
  refine proceed_induct
    (P := fun u => u.pending = .shift k w →
      s.pending = .shift k w ∨ (s.pending = .none ∧ .word w ∈ s.plan ∧ classify w = some k)) s
    ?wait ?answer ?frameOk ?frameError ?hold ?pulseEnd ?raise ?done ?pin ?unbuilt ?unbound ?unpolled ?busy ?ready ?pulse
    ?newContext ?attach
  case wait => exact .inl
  case unpolled => exact fun _ _ _ _ _ _ _ _ => .inl
  case pin => exact fun l b rest _ _ h => .inl (by simpa using h)
  case ready =>
    intro v rest j ps hp hl hj _ _ h
    cases h
    exact .inr ⟨hp, by simp [hl], hj⟩
  all_goals intros; simp_all

/-- A register whose word is not on the wire keeps its value. -/
theorem proceed_read (s : State) (a : Nat) (h : ∀ k w, s.pending = .shift k w → a ≠ addressOf k) :
    s.proceed.chip.read a = s.chip.read a := by
  rcases proceed_chip s with hc | ⟨k, w, v, hp, hc⟩
  · rw [hc]
  · rw [hc, Memory.read_write_other _ _ _ _ (h k w hp)]

/-- No word on the wire and no word to come addresses the register. -/
def Spares (a : Nat) (s : State) : Prop :=
  (∀ k w, s.pending = .shift k w → a ≠ addressOf k) ∧ ∀ w, .word w ∈ s.plan → a ≠ (tagOf w).toNat

theorem tick_spares (a : Nat) (s : State) (h : Spares a s) :
    Spares a s.tick ∧ s.tick.chip.read a = s.chip.read a := by
  obtain ⟨hpend, hplan⟩ := h
  cases hb : s.busy with
  | false => rw [tick_idle s hb]; exact ⟨⟨hpend, hplan⟩, rfl⟩
  | true =>
    rw [tick_busy s hb]
    refine ⟨⟨fun k w hp => ?_, fun w hw => hplan w (proceed_plan_subset s hw)⟩, proceed_read s a hpend⟩
    rcases proceed_shift s k w hp with hp | ⟨-, hw, hk⟩
    · exact hpend k w hp
    · rw [← tagOf_toNat k w hk]
      exact hplan w hw

/-- A register that no word of the operation addresses keeps its value (R41). -/
theorem ticks_read (a : Nat) (s : State) (n : Nat) (h : Spares a s) : (s.ticks n).chip.read a = s.chip.read a := by
  refine (ticks_keep (P := fun u => Spares a u ∧ u.chip.read a = s.chip.read a) ?_ s n ⟨h, rfl⟩).2
  rintro u ⟨hspares, hread⟩
  obtain ⟨hspares', hread'⟩ := tick_spares a u hspares
  exact ⟨hspares', hread'.trans hread⟩

/-! ### One word -/

/-- What the write of a word of kind `k` leaves unchanged, from `s` to `u`, at every pace and whatever the answer. -/
structure WriteFrame (k : WordKind) (s u : State) : Prop where
  frame : Frame s u
  pinTrig : u.pinTrig = s.pinTrig
  delays : u.delays = s.delays
  kind : ∀ j w, u.pending = .shift j w → j = k
  chip : ∀ a, a ≠ addressOf k → u.chip.read a = s.chip.read a

theorem beginWord_writeFrame (s : State) (k : WordKind) (w : Word) (hp : s.pending = .none) :
    WriteFrame k s (s.beginWord k w) := by
  refine beginWord_induct (P := WriteFrame k s) s k w (fun _ => ?_) (fun _ _ => ?_) (fun ps _ _ => ?_) fun ps _ _ => ?_
  · exact ⟨⟨rfl, rfl, rfl, rfl, rfl, rfl, rfl, rfl, rfl, rfl⟩, rfl, rfl, nofun, fun _ _ => rfl⟩
  · exact ⟨⟨rfl, rfl, rfl, rfl, rfl, rfl, rfl, rfl, rfl, rfl⟩, rfl, rfl, fun j v h => by simp [hp] at h, fun _ _ => rfl⟩
  · exact ⟨⟨rfl, rfl, rfl, rfl, rfl, rfl, rfl, rfl, rfl, rfl⟩, rfl, rfl, nofun, fun _ _ => rfl⟩
  · refine ⟨⟨rfl, rfl, rfl, rfl, rfl, rfl, rfl, rfl, rfl, rfl⟩, rfl, rfl, fun j v h => ?_, fun _ _ => rfl⟩
    cases h
    rfl

/-- A step of a word's write moves neither the trigger line nor the delay port. -/
theorem proceed_write_trig (s : State) (h : s.pending.isWrite = true) :
    s.proceed.pinTrig = s.pinTrig ∧ s.proceed.delays = s.delays := by
  refine proceed_induct (P := fun u => u.pinTrig = s.pinTrig ∧ u.delays = s.delays) s
    ?wait ?answer ?frameOk ?frameError ?hold ?pulseEnd ?raise ?done ?pin ?unbuilt ?unbound ?unpolled ?busy ?ready ?pulse
    ?newContext ?attach
  case hold => intro n hp _; rw [hp] at h; cases h
  case pulseEnd => intro hp; rw [hp] at h; cases h
  case pin => intro l b rest hp _; rw [hp] at h; cases h
  case pulse => intro rest hp _; rw [hp] at h; cases h
  all_goals intros; exact ⟨rfl, rfl⟩

theorem tick_writeFrame {k : WordKind} {s u : State} (h : WriteFrame k s u) (hw : u.pending.isWrite = true) :
    WriteFrame k s u.tick := by
  cases hb : u.busy with
  | false => rwa [tick_idle u hb]
  | true =>
    have hne : u.pending ≠ .none := fun hp => by rw [hp] at hw; cases hw
    obtain ⟨htrig, hdelays⟩ := proceed_write_trig u hw
    rw [tick_busy u hb]
    refine ⟨h.frame.trans (proceed_frame u fun hp => (hne hp).elim), htrig.trans h.pinTrig, hdelays.trans h.delays,
      fun j w hp => ?_, fun a ha => ?_⟩
    · exact h.kind j w ((proceed_shift u j w hp).resolve_right fun hp => hne hp.1)
    · exact (proceed_read u a fun j w hp => h.kind j w hp ▸ ha).trans (h.chip a ha)

/-- A word instruction that answers a next state found nothing begun, and wrote its word or raised ParamError. -/
theorem exec_word_next {i : Instr} {s t : State} (hi : isCommand i = false) (h : exec i s = .next t) :
    s.pending = .none ∧
    ((∃ k w, sentBy i = some (k, w) ∧ t = ({ s with busy := true }.beginWord k w).writeTicks s.pace) ∨
      (sentBy i = none ∧ t = s.endedWith [] .paramError 0 0)) := by
  have hp : s.pending = .none := by
    by_contra hp
    rw [secondTransferFaults i s hi hp] at h
    cases h
  refine ⟨hp, ?_⟩
  cases hsent : sentBy i with
  | some kw =>
    obtain ⟨k, w⟩ := kw
    rw [exec_word i k w s hsent hp] at h
    cases h
    exact .inl ⟨k, w, rfl, rfl⟩
  | none =>
    have hbuilt (k : WordKind) (o : Option Word) (ho : o.map (fun w => (k, w)) = none) (he : s.issueBuilt k o = .next t) :
        t = s.endedWith [] .paramError 0 0 := by
      rw [Option.map_eq_none_iff.1 ho, issueBuilt_none k hp] at he
      cases he
      rfl
    refine .inr ⟨rfl, ?_⟩
    cases i
    case wNincr n => exact hbuilt _ _ hsent h
    case wTintWave n => exact hbuilt _ _ hsent h
    case wTintClk n => exact hbuilt _ _ hsent h
    all_goals simp [sentBy, isCommand] at hsent hi

/-- The frame of a word instruction. -/
theorem exec_word_frame {i : Instr} {s t : State} (hi : isCommand i = false) (h : exec i s = .next t) :
    (∃ k w, sentBy i = some (k, w) ∧ WriteFrame k s t) ∨ (sentBy i = none ∧ t = s.endedWith [] .paramError 0 0) := by
  obtain ⟨hp, ⟨k, w, hsent, rfl⟩ | hnone⟩ := exec_word_next hi h
  · left
    obtain ⟨⟨h1, h2, h3, h4, h5, h6, h7, h8, h9, h10⟩, htrig, hdelays, hkind, hchip⟩ :=
      writeTicks_keep (P := WriteFrame k { s with busy := true }) (fun u => tick_writeFrame) _ s.pace
        (beginWord_writeFrame { s with busy := true } k w hp)
    exact ⟨k, w, hsent, ⟨h1, h2, h3, h4, h5, h6, h7, h8, h9, h10⟩, htrig, hdelays, hkind, hchip⟩
  · exact .inr hnone

/-- Settles O27: a word instruction is the write of its word, or a completion. -/
theorem wordInstructionFrame : Obligations.WordInstructionFrame := by
  intro i s t hi h
  rcases exec_word_frame hi h with ⟨k, w, hsent, hframe, htrig, hdelays, -, hchip⟩ | ⟨hnone, rfl⟩
  · obtain ⟨hrefclk, hhandle, hbound, hx, hop, hint, hstby, hrst, hcommands, hpace⟩ := hframe
    refine ⟨hrefclk, hhandle, hbound, hx, hop, htrig, hint, hstby, hrst, hcommands, hdelays, hpace, ?_, fun h => ?_⟩
    · intro j v hs a ha
      obtain ⟨rfl, rfl⟩ := Prod.mk.inj (Option.some.inj (hsent.symm.trans hs))
      rw [tagOf_toNat k w (classify_of_sentBy hsent)] at ha
      exact hchip a ha
    · rw [hsent] at h; cases h
  · refine ⟨rfl, rfl, rfl, rfl, rfl, rfl, rfl, rfl, rfl, rfl, rfl, rfl, fun k w hs => ?_, fun _ => rfl⟩
    rw [hnone] at hs; cases hs

end Sys2Proof.Machine
end

section
namespace Sys2Proof.Machine

/-! ## Acceptance and refusal of the commands (spec/44_sequencer_operations.md sections 1, 2 and 6) -/

/-- Settles O28: the five statements of INIT. -/
theorem initBuildsAFreshContext : Obligations.InitBuildsAFreshContext := by
  intro c s hbusy hp
  have hcommand : exec (.init c) s = s.command { s.x with op := opInit, refclk := c } (some initProgram) := rfl
  rw [hcommand, command_idle s _ _ hbusy, ticks_initProgram _ _ hp rfl rfl rfl]
  rfl

/-- TRIGNOW of an initialised block is the pulse (R206). -/
theorem exec_trignow (s : State) (h : s.phase ≠ .uninitialized) :
    exec .trignow s = s.command { s.x with op := opTrignow } (some [.pulse]) := by
  rw [exec, execTrignow, if_neg h]

/-- Settles O33: the one statement of TRIGNOW is the pulse, and its completion follows if the hold ends. -/
theorem trignowPulses : Obligations.TrignowPulses := by
  intro s hbusy hphase hp
  rw [exec_trignow s hphase, command_idle s _ _ hbusy]
  refine ⟨fun n hn => ?_, fun hn => ?_⟩
  · rw [ticks_pulse (s.accept _ _) s.pace n hp rfl rfl rfl hn]
    rfl
  · rw [ticks_pulse_held (s.accept _ _) s.pace (by omega) rfl rfl rfl hn]
    rfl

theorem operationProgram_uninitialized (valid : Bool) (words : Option (List Word)) (trig : TriggerSource) :
    operationProgram .uninitialized valid words trig = none := if_pos rfl

/-- Before the first INIT a register-writing command is refused (R193). -/
theorem exec_operation_uninitialized {i : Instr} {s : State} {x : Latches} {ws : Option (List Word)}
    (h : operationOf i s = some (x, ws)) (hp : s.phase = .uninitialized) : exec i s = s.command x none := by
  obtain ⟨-, ⟨-, -, he⟩ | ⟨-, -, he⟩⟩ := exec_operation i s x ws h
  · rw [he, singleProgram, hp, operationProgram_uninitialized]
  · rw [he, sweepProgram, hp, operationProgram_uninitialized]

/-- Settles O34: each of the four commands is refused. -/
theorem commandsBeforeInitAreRefused : Obligations.CommandsBeforeInitAreRefused := by
  refine fun s hbusy hphase hp => ⟨fun i x ws hop => ?_, ?_⟩
  · rw [exec_operation_uninitialized hop hphase, command_refused s x hbusy hp]
  · rw [exec, execTrignow, if_pos hphase, command_refused s _ hbusy hp]

/-- A register-writing command with an operand out of range, or a zero clock, is refused (R194). -/
theorem exec_operation_invalid {i : Instr} {s : State} {x : Latches} {ws : Option (List Word)}
    (h : operationOf i s = some (x, ws))
    (hv : (if x.op = opSingle then validSingle x s.refclk else validSweep x s.refclk) = false) :
    exec i s = s.command x none := by
  obtain rfl := operationOf_no_words_of_invalid i s x ws h hv
  exact exec_operation_no_words i s x h

theorem validSingle_eq_false {x : Latches} {c : Hertz} (h : c = 0 ∨ x.freq.toNat = 0 ∨ 2147483647 < x.freq.toNat) :
    validSingle x c = false := by
  rw [← Bool.not_eq_true, validSingle, Bool.and_eq_true, clock_ne_zero, freqInRange_iff]
  rintro ⟨hc, hlo, hhi⟩
  rcases h with rfl | h | h
  · exact hc rfl
  · omega
  · omega

theorem validSweep_eq_false {x : Latches} {c : Hertz}
    (h : c = 0 ∨ x.freq.toNat = 0 ∨ 2147483647 < x.freq.toNat ∨ 2147483647 < x.delta.toNat ∨ x.ninc.toNat < 2 ∨
      4095 < x.ninc.toNat ∨ x.tint.toNat < 2 ∨ 2047 < x.tint.toNat) : validSweep x c = false := by
  rw [← Bool.not_eq_true]
  simp only [validSweep, Bool.and_eq_true, clock_ne_zero, freqInRange_iff, deltaInRange_iff, nincInRange_iff,
    tintInRange_iff]
  rintro ⟨⟨⟨⟨hc, hf⟩, hd⟩, hn⟩, ht⟩
  rcases h with rfl | h
  · exact hc rfl
  · omega

/-- Settles O35: each cause makes the validation predicate false. -/
theorem invalidOperandsSendNothing : Obligations.InvalidOperandsSendNothing := by
  refine fun s hbusy _ hp => ⟨fun freq wave msb trig h => ?_, fun cfg wave msb trig syncsel syncout h => ?_, fun h => ?_⟩
  · rw [exec_operation_invalid (i := .single freq wave msb trig) rfl (validSingle_eq_false h),
      command_refused s _ hbusy hp]
  · rw [exec_operation_invalid (i := .sweep cfg wave msb trig syncsel syncout) rfl (validSweep_eq_false h),
      command_refused s _ hbusy hp]
    rfl
  · rw [exec_operation_invalid (i := .selftest) rfl (validSweep_eq_false (.inl h)), command_refused s _ hbusy hp]
    rfl

/-- A register-writing command whose words are built is accepted with the words and then the trigger stage (R196, R200). -/
theorem exec_operation_accepted {i : Instr} {s : State} {x : Latches} {ws : List Word}
    (h : operationOf i s = some (x, some ws)) (hp : s.phase ≠ .uninitialized) :
    exec i s = s.command x (some (ws.map .word ++ triggerProgram x.trig)) := by
  obtain ⟨-, ⟨-, hws, he⟩ | ⟨-, hws, he⟩⟩ := exec_operation i s x _ h
  · rw [he, singleProgram, ← hws, validSingle_of_words x s.refclk ws hws.symm, operationProgram, if_neg hp]
    rfl
  · rw [he, sweepProgram, ← hws, validSweep_of_words x s.refclk ws hws.symm, operationProgram, if_neg hp]
    rfl

/-- At pace 0 a command goes no further than its acceptance. -/
theorem command_accepted {s : State} (x : Latches) (p : Option (List Action)) (hbusy : s.busy = false) (hp : s.pace = 0) :
    s.command x p = .next (s.accept x p) := by
  rw [command_idle s x p hbusy, hp, ticks_zero]

/-- Settles O40: a command of a busy block has no move, and each command of an idle one is the acceptance of its program. -/
theorem acceptanceIsOneStepWhenIdle : Obligations.AcceptanceIsOneStepWhenIdle := by
  refine ⟨fun i s hi hbusy => ?_, fun s hbusy hp =>
    ⟨fun c => command_accepted _ _ hbusy hp, fun h => command_accepted _ _ hbusy hp, fun i x ws hop hphase => ?_,
      fun i x hop => ?_, fun hphase => ?_⟩⟩
  · obtain ⟨x, p, -, he⟩ := exec_command i s hi
    rw [he, command_of_busy s x p hbusy]
  · rw [exec_operation_accepted hop hphase, command_accepted _ _ hbusy hp]
    rfl
  · have he : exec i s = s.command x none := by
      rcases hop with hop | ⟨ws, hop, hphase⟩
      · exact exec_operation_no_words i s x hop
      · exact exec_operation_uninitialized hop hphase
    rw [he, command_accepted _ _ hbusy hp]
    rfl
  · rw [exec_trignow s hphase, command_accepted _ _ hbusy hp]
    rfl

/-! ## The step (spec/10_state.md section 5) -/

/-- A block that is not busy takes the next command. -/
theorem fetch_command {s : State} {f : CmdFields} {rest : List CmdFields} (hr : s.rst = false) (hb : s.busy = false)
    (hc : s.commands = f :: rest) : fetch s = decoded (decode (.command f)) { s with commands := rest } := by
  simp [fetch, hr, hb, fetchCommand, hc]

/-- A busy block with nothing begun takes the next word. -/
theorem fetch_word {s : State} {w : Word} {rest : List Action} (hr : s.rst = false) (hb : s.busy = true)
    (hp : s.pending = .none) (hl : s.plan = .word w :: rest) :
    fetch s = decoded (decode (.word w)) { s with plan := rest } := by
  simp [fetch, hr, hb, fetchBusy, hp, hl]

/-- Settles O44: what is decoded is run. -/
theorem stepRunsTheDecodedInstruction : Obligations.StepRunsTheDecodedInstruction := by
  refine fun s i hr => ⟨fun f rest hb hc hd => ?_, fun w rest hb hp hl hd => ?_⟩
  · rw [step, fetch_command hr hb hc, hd]
    rfl
  · rw [step, fetch_word hr hb hp hl, hd]
    rfl

/-- Settles O45: a reserved opcode is accepted as a refused command, and a word of no kind stops the step. -/
theorem stepWithoutAnInstruction : Obligations.StepWithoutAnInstruction := by
  refine fun s hr => ⟨fun hb hc => ?_, fun f rest hb hc hop => ?_, fun w rest hb hp hl hk => ?_⟩
  · simp [step, fetch, hr, hb, fetchCommand, hc]
  · have hstep : step s = .next ({ s with commands := rest }.runReserved f.op) := by
      rw [step, fetch_command hr hb hc, reservedPatternsAreRefusedByName.1 f hop]
      rfl
    rw [hstep, State.runReserved]
    refine ⟨fun hp => ?_, fun hp => ?_⟩
    · rw [show ({ s with commands := rest } : State).pace = 0 from hp]
      rfl
    · rw [ticks_raise _ _ .paramError 0 0 hp rfl rfl]
      rfl
  · rcases step_busy s hr hb with ⟨-, hkind⟩ | ⟨_, _, r, -, -, -, he⟩
    · obtain ⟨k, hk'⟩ := hkind w rest hp hl
      rw [hk] at hk'
      cases hk'
    · exact ⟨r, he⟩

/-- A command never faults. -/
theorem exec_command_ne_fault {i : Instr} (s : State) (r : Fault) (hi : isCommand i = true) : exec i s ≠ .fault r := by
  obtain ⟨x, p, -, he⟩ := exec_command i s hi
  rw [he]
  unfold State.command
  split_ifs <;> exact nofun

/-- Settles O59: a step takes a word only when nothing is begun, and a command never faults. -/
theorem stepNeverFaults : Obligations.StepNeverFaults := by
  intro s r h
  by_cases hr : s.rst = true
  · rw [step_of_rst s hr] at h
    cases h
  rw [Bool.not_eq_true] at hr
  by_cases hb : s.busy = true
  · rcases step_busy s hr hb with ⟨he, -⟩ | ⟨_, _, _, -, -, -, he⟩ <;> (rw [he] at h; cases h)
  rw [Bool.not_eq_true] at hb
  cases hc : s.commands with
  | nil => rw [(stepWithoutAnInstruction s hr).1 hb hc] at h; cases h
  | cons f rest =>
    rw [step, fetch_command hr hb hc] at h
    rcases decodeCommand_cases f with ⟨i, hd, hi⟩ | hd
    · rw [decode, hd] at h
      exact exec_command_ne_fault _ r hi h
    · rw [decode, hd] at h
      cases h

/-! ## Who writes what (spec/10_state.md sections 2 and 7) -/

/-- No step of R8 writes the reset, command and pace inputs, and one without BIND's statement keeps the handle. -/
theorem proceed_inputs (s : State) :
    s.proceed.rst = s.rst ∧ s.proceed.commands = s.commands ∧ s.proceed.pace = s.pace ∧
      (.attach ∉ s.plan → s.proceed.handle = s.handle) := by
  refine proceed_induct
    (P := fun u => u.rst = s.rst ∧ u.commands = s.commands ∧ u.pace = s.pace ∧ (.attach ∉ s.plan → u.handle = s.handle)) s
    ?wait ?answer ?frameOk ?frameError ?hold ?pulseEnd ?raise ?done ?pin ?unbuilt ?unbound ?unpolled ?busy ?ready ?pulse
    ?newContext ?attach
  case pin => intro l b rest _ _; simp
  case attach => exact fun rest _ hl => ⟨rfl, rfl, rfl, fun h => (h (by simp [hl])).elim⟩
  all_goals intros; exact ⟨rfl, rfl, rfl, fun _ => rfl⟩

theorem ticks_inputs (s : State) (n : Nat) (h : .attach ∉ s.plan) :
    (s.ticks n).rst = s.rst ∧ (s.ticks n).commands = s.commands ∧ (s.ticks n).pace = s.pace ∧
      (s.ticks n).handle = s.handle := by
  refine (ticks_keep (P := fun u => .attach ∉ u.plan ∧ u.rst = s.rst ∧ u.commands = s.commands ∧ u.pace = s.pace ∧
    u.handle = s.handle) ?_ s n ⟨h, rfl, rfl, rfl, rfl⟩).2
  rintro u ⟨hplan, hrst, hcommands, hpace, hhandle⟩
  cases hb : u.busy with
  | false => rw [tick_idle u hb]; exact ⟨hplan, hrst, hcommands, hpace, hhandle⟩
  | true =>
    obtain ⟨hrst', hcommands', hpace', hhandle'⟩ := proceed_inputs u
    rw [tick_busy u hb]
    exact ⟨fun h => hplan (proceed_plan_subset u h), hrst'.trans hrst, hcommands'.trans hcommands, hpace'.trans hpace,
      (hhandle' hplan).trans hhandle⟩

/-- BIND's next state at every pace: accepted, or completed. -/
theorem exec_bind_next {h : Handle} {s t : State} (he : exec (.bind h) s = .next t) :
    t = s.accept { s.x with op := opBind, handle := h } (some [.attach]) ∨
    t = { s with x := { s.x with op := opBind, handle := h }, curOp := opBind, handle := h, bound := true }.endedWith
      [] .ok 0 0 := by
  obtain ⟨hbusy, -⟩ := exec_command_next _ s t rfl he
  rcases Nat.eq_zero_or_pos s.pace with hp | hp
  · left
    have hcommand : exec (.bind h) s = s.command { s.x with op := opBind, handle := h } (some [.attach]) := rfl
    rw [hcommand, command_accepted _ _ hbusy hp] at he
    cases he
    rfl
  · right
    rw [exec_bind h s hbusy hp] at he
    cases he
    rfl

/-- A command is INIT, BIND, TRIGNOW, or writes registers. -/
theorem command_cases {i : Instr} (s : State) (hi : isCommand i = true) :
    (∃ c, i = .init c) ∨ (∃ h, i = .bind h) ∨ i = .trignow ∨ ∃ x ws, operationOf i s = some (x, ws) := by
  cases i
  case init c => exact .inl ⟨c, rfl⟩
  case bind h => exact .inr (.inl ⟨h, rfl⟩)
  case trignow => exact .inr (.inr (.inl rfl))
  case single => exact .inr (.inr (.inr ⟨_, _, rfl⟩))
  case sweep => exact .inr (.inr (.inr ⟨_, _, rfl⟩))
  case selftest => exact .inr (.inr (.inr ⟨_, _, rfl⟩))
  all_goals cases hi

/-- A register-writing command is refused, or accepted with its words. -/
theorem exec_operation_cases {i : Instr} {s : State} {x : Latches} {ws : Option (List Word)}
    (h : operationOf i s = some (x, ws)) :
    exec i s = s.command x none ∨
    ∃ l, ws = some l ∧ exec i s = s.command x (some (l.map .word ++ triggerProgram x.trig)) := by
  cases ws with
  | none => exact .inl (exec_operation_no_words i s x h)
  | some l =>
    by_cases hp : s.phase = .uninitialized
    · exact .inl (exec_operation_uninitialized h hp)
    · exact .inr ⟨l, rfl, exec_operation_accepted h hp⟩

/-- The next state of a command, with the program it is known to have. -/
theorem command_next {s t : State} {x : Latches} {p : Option (List Action)} (h : s.command x p = .next t) :
    s.busy = false ∧ t = (s.accept x p).ticks s.pace := by
  cases hb : s.busy with
  | true => rw [command_of_busy s x p hb] at h; cases h
  | false => rw [command_idle s x p hb] at h; cases h; exact ⟨rfl, rfl⟩

theorem word_mem_program {ws : List Word} {trig : TriggerSource} {w : Word}
    (h : Action.word w ∈ ws.map Action.word ++ triggerProgram trig) : w ∈ ws := by
  rcases List.mem_append.1 h with h | h
  · obtain ⟨v, hv, he⟩ := List.mem_map.1 h
    cases he
    exact hv
  · cases trig with
    | automatic => cases List.mem_singleton.1 h
    | external => cases h

/-- Words and the trigger stage are words and pulses. -/
theorem isTransaction_of_mem_program {ws : List Word} {trig : TriggerSource} {a : Action}
    (h : a ∈ ws.map Action.word ++ triggerProgram trig) : a.isTransaction = true := by
  rcases List.mem_append.1 h with h | h
  · obtain ⟨w, -, rfl⟩ := List.mem_map.1 h
    rfl
  · cases trig with
    | automatic => rw [List.mem_singleton.1 h]; rfl
    | external => cases h

/-- Acceptance writes the latches and the opcode, and the steps after it change what words and pulses change. -/
theorem accept_ticks_frame (s : State) (x : Latches) (p : Option (List Action)) (n : Nat)
    (h : ∀ a ∈ p.getD [], a.isTransaction = true) :
    Frame { s with x := x, curOp := x.op } ((s.accept x p).ticks n) := by
  obtain ⟨h1, h2, h3, h4, h5, h6, h7, h8, h9, h10⟩ := ticks_frame (s.accept x p) n h
  exact ⟨h1, h2, h3, h4, h5, h6, h7, h8, h9, h10⟩

/-- The frame of a command that is neither INIT nor BIND. -/
theorem exec_command_frame {i : Instr} {s t : State} (hi : isCommand i = true) (hinit : ∀ c, i ≠ .init c)
    (hbind : ∀ h, i ≠ .bind h) (h : exec i s = .next t) :
    ∃ x, Frame { s with x := x, curOp := x.op } t := by
  have hframe (x : Latches) (p : Option (List Action)) (hp : ∀ a ∈ p.getD [], a.isTransaction = true)
      (he : exec i s = s.command x p) : ∃ x, Frame { s with x := x, curOp := x.op } t := by
    obtain ⟨-, rfl⟩ := command_next (he.symm.trans h)
    exact ⟨x, accept_ticks_frame s x p s.pace hp⟩
  rcases command_cases s hi with ⟨c, rfl⟩ | ⟨b, rfl⟩ | rfl | ⟨x, ws, hop⟩
  · exact (hinit c rfl).elim
  · exact (hbind b rfl).elim
  · by_cases hp : s.phase = .uninitialized
    · exact hframe _ none (by simp) (by rw [exec, execTrignow, if_pos hp])
    · exact hframe _ (some [.pulse]) (by simp [Action.isTransaction]) (exec_trignow s hp)
  · rcases exec_operation_cases hop with he | ⟨l, -, he⟩
    · exact hframe x none (by simp) he
    · exact hframe x _ (fun a => isTransaction_of_mem_program) he

/-- An instruction is INIT, or BIND, or changes what words and pulses change, the latches and the opcode. -/
theorem exec_frame_cases {i : Instr} {s t : State} (h : exec i s = .next t) :
    (∃ c, i = .init c) ∨ (∃ b, i = .bind b) ∨ ∃ x op, Frame { s with x := x, curOp := op } t := by
  by_cases hinit : ∃ c, i = .init c
  · exact .inl hinit
  by_cases hbind : ∃ b, i = .bind b
  · exact .inr (.inl hbind)
  right; right
  cases hi : isCommand i with
  | true =>
    obtain ⟨x, hf⟩ := exec_command_frame hi (not_exists.1 hinit) (not_exists.1 hbind) h
    exact ⟨x, x.op, hf⟩
  | false =>
    rcases exec_word_frame hi h with ⟨k, w, -, hf⟩ | ⟨-, rfl⟩
    · exact ⟨s.x, s.curOp, hf.frame⟩
    · exact ⟨s.x, s.curOp, rfl, rfl, rfl, rfl, rfl, rfl, rfl, rfl, rfl, rfl⟩

/-- Settles O41: INIT's program keeps the handle, BIND's one statement writes handle and binding, and all other
instructions keep the whole context. -/
theorem contextIsWrittenOnlyByInitAndBind : Obligations.ContextIsWrittenOnlyByInitAndBind := by
  intro i s t h
  rcases exec_frame_cases h with ⟨c, rfl⟩ | ⟨b, rfl⟩ | ⟨x, op, hf⟩
  · have hcommand : exec (.init c) s = s.command { s.x with op := opInit, refclk := c } (some initProgram) := rfl
    obtain ⟨-, rfl⟩ := command_next (hcommand.symm.trans h)
    obtain ⟨hrst, hcommands, hpace, hhandle⟩ :=
      ticks_inputs (s.accept { s.x with op := opInit, refclk := c } (some initProgram)) s.pace (by simp [initProgram])
    exact ⟨fun hn => (hn c rfl).elim, fun _ => hhandle, fun hn => (hn c rfl).elim, hrst, hcommands, hpace⟩
  · rcases exec_bind_next h with rfl | rfl <;>
      exact ⟨fun _ => ⟨rfl, rfl, rfl⟩, fun hn => (hn b rfl).elim, fun _ hn => (hn b rfl).elim, rfl, rfl, rfl⟩
  · exact ⟨fun _ => ⟨hf.refclk, hf.pinInt, hf.pinStby⟩, fun _ => hf.handle, fun _ _ => hf.bound, hf.rst, hf.commands,
      hf.pace⟩

/-- Settles O42: acceptance writes latches and opcode, and the steps after it write the registers of their words only. -/
theorem operationFrame : Obligations.OperationFrame := by
  intro i s t x ws hop h
  have hframe (p : Option (List Action)) (hp : ∀ a ∈ p.getD [], a.isTransaction = true)
      (hwords : ∀ w, .word w ∈ p.getD [] → w ∈ ws.getD []) (he : exec i s = s.command x p) :
      Frame { s with x := x, curOp := x.op } t ∧
        ∀ a, (∀ w ∈ ws.getD [], (tagOf w).toNat ≠ a) → t.chip.read a = s.chip.read a := by
    obtain ⟨-, rfl⟩ := command_next (he.symm.trans h)
    refine ⟨accept_ticks_frame s x p s.pace hp, fun a ha => ticks_read a (s.accept x p) s.pace ⟨fun k w hs => ?_, ?_⟩⟩
    · cases p <;> cases hs
    · exact fun w hw => (ha w (hwords w hw)).symm
  have hboth : Frame { s with x := x, curOp := x.op } t ∧
      ∀ a, (∀ w ∈ ws.getD [], (tagOf w).toNat ≠ a) → t.chip.read a = s.chip.read a := by
    rcases exec_operation_cases hop with he | ⟨l, rfl, he⟩
    · exact hframe none (by simp) (by simp) he
    · exact hframe _ (fun a => isTransaction_of_mem_program) (fun w => word_mem_program) he
  obtain ⟨⟨hrefclk, hhandle, hbound, hx, hcur, hint, hstby, hrst, hcommands, hpace⟩, hread⟩ := hboth
  exact ⟨hx, hcur, hrefclk, hhandle, hbound, hint, hstby, hrst, hcommands, hpace, hread⟩

end Sys2Proof.Machine
end

section
namespace Sys2Proof.Machine

/-! ## Operations word by word (spec/44_sequencer_operations.md sections 3 to 5 and 8) -/

/-- The words of an operation stand in write order and are words of their builders. -/
theorem operation_words {i : Instr} {s : State} {x : Latches} {ws : List Word}
    (h : operationOf i s = some (x, some ws)) :
    ∃ kinds, WriteOrder x.op kinds ∧ 2 ≤ kinds.length ∧ kinds.length ≤ 7 ∧ ws.map classify = kinds.map some ∧
      ∀ w ∈ ws, ∃ k, classify w = some k ∧ built k w = true := by
  have hbuilt := validationIsTheBuildersRangeTests.2.2.2 i s x ws h
  obtain ⟨-, ⟨hop, hws, -⟩ | ⟨hop, hws, -⟩⟩ := exec_operation i s x _ h
  · exact ⟨_, hop ▸ writeOrder_single, by decide, by decide, singleWords_kinds x _ ws hws.symm, hbuilt⟩
  · have hkind : intervalKind x.base = .tintWave ∨ intervalKind x.base = .tintClk := by
      cases x.base
      case waveCyclesBased => exact .inl rfl
      case clockCyclesBased => exact .inr rfl
    exact ⟨_, writeOrder_sweep x.op hop _ hkind, by simp, by simp, sweepWords_kinds x _ ws hws.symm, hbuilt⟩

theorem operation_length {i : Instr} {s : State} {x : Latches} {ws : List Word}
    (h : operationOf i s = some (x, some ws)) : 2 ≤ ws.length ∧ ws.length ≤ 7 := by
  obtain ⟨kinds, -, h2, h7, hkinds, -⟩ := operation_words h
  have hlen : ws.length = kinds.length := by simpa using congrArg List.length hkinds
  omega

/-- The word at place `k` of an operation: its kind, its step code, and that only the first is the control word. -/
theorem operation_word_at {i : Instr} {s : State} {x : Latches} {ws : List Word} {k : Nat}
    (h : operationOf i s = some (x, some ws)) (hk : k < ws.length) :
    ∃ kd, classify (ws.getD k 0) = some kd ∧ built kd (ws.getD k 0) = true ∧ stepOf kd = stepCodes.getD k 0 ∧
      (kd = .ctrl ↔ k = 0) := by
  obtain ⟨kinds, horder, -, -, hkinds, hbuilt⟩ := operation_words h
  have hlen : ws.length = kinds.length := by simpa using congrArg List.length hkinds
  have hget : ws.getD k 0 = ws[k] := by simp [List.getD, List.getElem?_eq_getElem hk]
  obtain ⟨kd, hkd, hbt⟩ := hbuilt ws[k] (List.getElem_mem hk)
  have hat : kinds[k]? = some kd := by
    have := congrArg (fun l => l[k]?) hkinds
    simpa [List.getElem?_map, List.getElem?_eq_getElem hk, List.getElem?_eq_getElem (hlen ▸ hk), hkd, eq_comm] using this
  obtain ⟨-, hstep, hctrl, -⟩ := horder k (hlen ▸ hk) kd hat
  exact ⟨kd, by rw [hget, hkd], by rw [hget, hbt], hstep, hctrl⟩

/-- The state of an accepted operation after its first `k` words were answered `Ok`. -/
def State.operationAfter (s : State) (x : Latches) (ws : List Word) (k : Nat) (ps : List Bool) (ss : List ShiftAnswer) :
    State :=
  (s.accept x (some (ws.map .word ++ triggerProgram x.trig))).afterWords ws (triggerProgram x.trig) k ps ss

/-- An operation goes through its first words, three steps each, and then goes on. -/
theorem exec_operation_after {i : Instr} {s : State} {x : Latches} {ws : List Word} {k : Nat} {ps : List Bool}
    {ss : List ShiftAnswer} (h : operationOf i s = some (x, some ws)) (hbusy : s.busy = false)
    (hphase : s.phase ≠ .uninitialized) (hb : s.bound = true) (hk : k ≤ ws.length) (hn : 3 * k ≤ s.pace)
    (hp : s.polls = List.replicate k true ++ ps) (hs : s.shifts = List.replicate k .ok ++ ss) :
    exec i s = .next ((s.operationAfter x ws k ps ss).ticks (s.pace - 3 * k)) := by
  obtain ⟨kinds, horder, h2, -, hkinds, hbuilt⟩ := operation_words h
  have hwords : ∀ w ∈ ws, ∀ j, classify w = some j → built j w = true := by
    intro w hw j hj
    obtain ⟨l, hl, hbt⟩ := hbuilt w hw
    obtain rfl := Option.some.inj (hl.symm.trans hj)
    exact hbt
  have hpace : s.pace = 3 * k + (s.pace - 3 * k) := by omega
  rw [exec_operation_accepted h hphase, command_idle s _ _ hbusy, hpace, ticks_add,
    ticks_prefix (s.accept x _) ws (triggerProgram x.trig) kinds horder h2 hkinds hwords rfl rfl rfl hb k hk ps ss hp hs,
    Nat.add_sub_cancel_left]
  rfl

/-- The words that are left after the first `k`. -/
theorem operationAfter_plan {ws : List Word} {k : Nat} (s : State) (x : Latches) (ps : List Bool) (ss : List ShiftAnswer)
    (hk : k < ws.length) :
    (s.operationAfter x ws k ps ss).plan =
      .word (ws.getD k 0) :: ((ws.drop (k + 1)).map .word ++ triggerProgram x.trig) := by
  have hget : ws.getD k 0 = ws[k] := by simp [List.getD, List.getElem?_eq_getElem hk]
  show (ws.drop k).map Action.word ++ triggerProgram x.trig = _
  rw [List.drop_eq_getElem_cons hk, hget]
  rfl

/-! ### A word that does not succeed -/

/-- A word on a busy link ends the operation in two steps. -/
theorem ticks_word_busy {s : State} {w : Word} {rest : List Action} {k : WordKind} {ps : List Bool} {n : Nat} (hn : 2 ≤ n)
    (hbusy : s.busy = true) (hpend : s.pending = .none) (hl : s.plan = .word w :: rest) (hk : classify w = some k)
    (hbt : built k w = true) (hb : s.bound = true) (hp : s.polls = false :: ps) :
    s.ticks n = { s with last := w, polls := ps }.endedWith [.xfer s.handle w .busy] .transportBusy (stepOf k) 0 := by
  obtain ⟨m, rfl⟩ := Nat.exists_eq_add_of_le' hn
  rw [ticks_succ, ticks_succ, tick_word s w rest k hbusy hpend hl hk hbt,
    (word_busy_closed { s with plan := rest } k w ps hbusy hb hp).1, ticks_idle _ _ rfl]
  rfl

/-- A word answered `Error` ends the operation in four steps. -/
theorem ticks_word_error {s : State} {w : Word} {rest : List Action} {k : WordKind} {ps : List Bool} {ss : List ShiftAnswer}
    {c : ErrCode} {n : Nat} (hn : 4 ≤ n) (hbusy : s.busy = true) (hpend : s.pending = .none)
    (hl : s.plan = .word w :: rest) (hk : classify w = some k) (hbt : built k w = true) (hb : s.bound = true)
    (hp : s.polls = true :: ps) (hs : s.shifts = .error c :: ss) :
    s.ticks n =
      { s with
          last := w, polls := ps, shifts := ss, pinFs := true, chip := s.chip.write (tagOf w).toNat .unknown,
          phase := if k = WordKind.ctrl then .idle else s.phase }.endedWith
        (frameEvents s.handle w (.error c)) .transportError (stepOf k) c := by
  obtain ⟨m, rfl⟩ := Nat.exists_eq_add_of_le' hn
  rw [ticks_succ, ticks_succ, ticks_succ, ticks_succ, tick_word s w rest k hbusy hpend hl hk hbt,
    (word_error_closed { s with plan := rest } k w ps ss c hk hbusy hb hp hs).1, ticks_idle _ _ rfl]
  rfl

/-- A word whose poll has no result stays the next one; only `ctx.last` is written. -/
theorem tick_word_unpolled {s : State} {w : Word} {rest : List Action} {k : WordKind} (hbusy : s.busy = true)
    (hpend : s.pending = .none) (hl : s.plan = .word w :: rest) (hk : classify w = some k) (hbt : built k w = true)
    (hb : s.bound = true) (hp : s.polls = []) : s.tick = { s with last := w } := by
  rw [tick_word s w rest k hbusy hpend hl hk hbt, beginWord_unpolled { s with plan := rest } k w hb hp]
  simp [← hl]

theorem ticks_word_unpolled {s : State} {w : Word} {rest : List Action} {k : WordKind} {n : Nat} (hn : 1 ≤ n)
    (hbusy : s.busy = true) (hpend : s.pending = .none) (hl : s.plan = .word w :: rest) (hk : classify w = some k)
    (hbt : built k w = true) (hb : s.bound = true) (hp : s.polls = []) : s.ticks n = { s with last := w } := by
  obtain ⟨m, rfl⟩ := Nat.exists_eq_add_of_le' hn
  rw [ticks_succ, tick_word_unpolled hbusy hpend hl hk hbt hb hp]
  induction m with
  | zero => rfl
  | succ m ih =>
    rw [ticks_succ, tick_word_unpolled (s := { s with last := w }) hbusy hpend hl hk hbt hb hp]
    exact ih (by omega)

/-- Settles O37: the words before the failed one take three steps each, and the failed one ends the operation. -/
theorem firstFailureFixesTheResult : Obligations.FirstFailureFixesTheResult := by
  intro i s x ws k ps ss c hop hbusy hphase hb hn hk
  obtain ⟨-, h7⟩ := operation_length hop
  obtain ⟨kd, hkd, hbt, hstep, hctrl⟩ := operation_word_at hop hk
  have hne : ¬ k = ws.length := by omega
  refine ⟨fun hp hs => ?_, fun hp hs => ?_⟩
  · rw [exec_operation_after hop hbusy hphase hb hk.le (by omega) hp hs,
      ticks_word_busy (by omega) rfl rfl (operationAfter_plan s x _ ss hk) hkd hbt hb rfl, hstep]
    simp [State.operationAfter, State.afterWords, State.endedWith, hne]
  · rw [List.replicate_succ', List.append_assoc, List.singleton_append] at hp
    rw [exec_operation_after hop hbusy hphase hb hk.le (by omega) hp hs,
      ticks_word_error (by omega) rfl rfl (operationAfter_plan s x _ _ hk) hkd hbt hb rfl rfl, hstep]
    simp [State.operationAfter, State.afterWords, State.endedWith, hne, hctrl]
    split_ifs <;> rfl

/-- Settles O38: the words before take three steps each, and the next one waits for its poll. -/
theorem operationWaitsForThePoll : Obligations.OperationWaitsForThePoll := by
  intro i s x ws k ss hop hbusy hphase hb hn hk hp hs
  obtain ⟨-, h7⟩ := operation_length hop
  obtain ⟨kd, hkd, hbt, -, -⟩ := operation_word_at hop hk
  have hne : ¬ k = ws.length := by omega
  rw [exec_operation_after hop hbusy hphase hb hk.le (by omega) (hp.trans (List.append_nil _).symm) hs,
    ticks_word_unpolled (by omega) rfl rfl (operationAfter_plan s x _ ss hk) hkd hbt hb rfl]
  simp [State.operationAfter, State.afterWords, hne, pendingOf]
  exact fun h0 => by rw [h0]

/-! ### Operations that succeed -/

/-- The state of an operation after all its words were answered `Ok`, the phase, the trigger line and the delay port
apart. -/
def State.wroteAll (s : State) (x : Latches) (ws : List Word) (ps : List Bool) (ss : List ShiftAnswer) : State :=
  { s with
    x := x, curOp := x.op, last := ws.getD (ws.length - 1) 0, polls := ps, shifts := ss, pinFs := true,
    chip := chipAfterWords s.chip ws }

theorem phaseAfterPulse_armed (op : Opcode) : phaseAfterPulse op .armed = .running := by
  unfold phaseAfterPulse; split_ifs <;> simp_all

/-- An operation whose words are all answered `Ok` completes without a pulse, with a whole one, or stands in its hold. -/
theorem exec_operation_ok {i : Instr} {s : State} {x : Latches} {ws : List Word} {ps : List Bool} {ss : List ShiftAnswer}
    (hop : operationOf i s = some (x, some ws)) (hbusy : s.busy = false) (hphase : s.phase ≠ .uninitialized)
    (hb : s.bound = true) (hn : 3 * ws.length + 4 ≤ s.pace) (hp : s.polls = List.replicate ws.length true ++ ps)
    (hs : s.shifts = List.replicate ws.length .ok ++ ss) :
    (x.trig = .external →
      exec i s = .next ({ s.wroteAll x ws ps ss with phase := .armed }.endedWith (okFrames s.handle ws) .ok 0 0)) ∧
    (∀ n, x.trig = .automatic → s.delays = n + 1 →
      exec i s =
        .next ({ s.wroteAll x ws ps ss with phase := .running, pinTrig := false, delays := n }.endedWith
          (okFrames s.handle ws ++ pulseEvents) .ok 0 0)) ∧
    (x.trig = .automatic → s.delays = 0 →
      exec i s =
        .next { s.wroteAll x ws ps ss with
          phase := .armed, pinTrig := true, busy := true, seqIdx := 7, plan := [], pending := .hold,
          history := s.history ++ okFrames s.handle ws ++ [.pin .trig true] }) := by
  obtain ⟨h2, -⟩ := operation_length hop
  have hne : ¬ ws.length = 0 := by omega
  have hplan : (s.operationAfter x ws ws.length ps ss).plan = triggerProgram x.trig := by
    simp [State.operationAfter, State.afterWords]
  have hph : (s.operationAfter x ws ws.length ps ss).phase = .armed := by
    simp [State.operationAfter, State.afterWords, hne]
  rw [exec_operation_after hop hbusy hphase hb le_rfl (by omega) hp hs]
  refine ⟨fun ht => ?_, fun n ht hd => ?_, fun ht hd => ?_⟩
  · rw [ticks_done (s.operationAfter x ws ws.length ps ss) _ (by omega) rfl rfl (by rw [hplan, ht]; rfl)]
    simp [State.operationAfter, State.afterWords, State.wroteAll, State.endedWith, hne]
  · rw [ticks_pulse (s.operationAfter x ws ws.length ps ss) _ n (by omega) rfl rfl (by rw [hplan, ht]; rfl) hd, hph,
      phaseAfterPulse_armed]
    simp [State.operationAfter, State.afterWords, State.wroteAll, State.endedWith, hne]
  · rw [ticks_pulse_held (s.operationAfter x ws ws.length ps ss) _ (by omega) rfl rfl (by rw [hplan, ht]; rfl) hd]
    simp [State.operationAfter, State.afterWords, State.wroteAll, hne]

theorem validSingle_of_range {x : Latches} {c : Hertz} (hc : c ≠ 0) (hlo : 1 ≤ x.freq.toNat)
    (hhi : x.freq.toNat ≤ 2147483647) : validSingle x c = true := by
  rw [validSingle, Bool.and_eq_true, freqInRange_iff]
  exact ⟨bne_iff_ne.2 hc, hlo, hhi⟩

/-- Settles O30: with its operand in range SINGLE has three words. -/
theorem singleCompletes : Obligations.SingleCompletes := by
  intro freq wave msb trig s ps ss hbusy hphase hb hc hn hlo hhi hp hs tw ws t
  have hop : operationOf (.single freq wave msb trig) s = some (t.x, some ws) :=
    congrArg (fun l => some (t.x, l)) (singleWords_of_valid t.x s.refclk (validSingle_of_range hc hlo hhi))
  exact exec_operation_ok hop hbusy hphase hb hn hp hs

theorem validSweep_of_range {x : Latches} {c : Hertz} (hc : c ≠ 0) (hlo : 1 ≤ x.freq.toNat)
    (hhi : x.freq.toNat ≤ 2147483647) (hd : x.delta.toNat ≤ 2147483647) (hn : 2 ≤ x.ninc.toNat ∧ x.ninc.toNat ≤ 4095)
    (ht : 2 ≤ x.tint.toNat ∧ x.tint.toNat ≤ 2047) : validSweep x c = true := by
  simp only [validSweep, Bool.and_eq_true, freqInRange_iff, deltaInRange_iff, nincInRange_iff, tintInRange_iff]
  exact ⟨⟨⟨⟨bne_iff_ne.2 hc, hlo, hhi⟩, hd⟩, hn⟩, ht⟩

/-- Settles O31: with its operands in range SWEEP has seven words. -/
theorem sweepCompletes : Obligations.SweepCompletes := by
  intro cfg wave msb trig syncsel syncout s ps ss hbusy hphase hb hc hn hlo hhi hd hnlo hnhi htlo hthi hp hs tw twd tint
    ninc ws t
  have hbase : (intervalKind cfg.base).tag ++ cfg.tint.setWidth 12 = tint := by cases h : cfg.base <;> simp [tint, h] <;> rfl
  have hop : operationOf (.sweep cfg wave msb trig syncsel syncout) s = some (t.x, some ws) := by
    have hwords := sweepWords_of_valid t.x s.refclk (validSweep_of_range hc hlo hhi hd ⟨hnlo, hnhi⟩ ⟨htlo, hthi⟩)
    rw [show (intervalKind t.x.base).tag ++ t.x.tint.setWidth 12 = tint from hbase] at hwords
    exact congrArg (fun l => some (t.x, l)) hwords
  exact exec_operation_ok hop hbusy hphase hb hn hp hs

/-- The words of SELFTEST: its control, interval and count words are constants (R204). -/
theorem selftestWords (x : Latches) (c : Hertz) (hc : c ≠ 0) :
    sweepWords (x.loadSweep selftestConfig .sine true .automatic .endOfScan true) c =
      some [0x0FD7, buildFsLo (BitVec.ofNat 24 (quotient 1000 c)), buildFsHi (BitVec.ofNat 24 (quotient 1000 c)),
        buildDfLo (BitVec.ofNat 24 (quotient 1000 c)), buildDfHi (BitVec.ofNat 24 (quotient 1000 c)) .incremental, 0x47D0,
        0x1002] := by
  have hctrl : buildCtrl ⟨true, .sine, true, .automatic, .endOfScan, true⟩ = 0x0FD7 := by decide
  have htint : WordKind.tintWave.tag ++ (2000 : Count).setWidth 12 = (0x47D0 : Word) := by decide
  have hninc : 0x1#4 ++ (2 : Count).setWidth 12 = (0x1002 : Word) := by decide
  rw [sweepWords_of_valid _ c (validSweep_of_range hc (by simp [Latches.loadSweep, selftestConfig])
    (by simp [Latches.loadSweep, selftestConfig]) (by simp [Latches.loadSweep, selftestConfig])
    (by simp [Latches.loadSweep, selftestConfig]) (by simp [Latches.loadSweep, selftestConfig])), ← hctrl, ← htint, ← hninc]
  rfl

/-- Settles O32: SELFTEST is the sweep of its fixed operands, which are in range. -/
theorem selftestCompletes : Obligations.SelftestCompletes := by
  intro s ps ss hbusy hphase hb hc hn hp hs tw ws t
  have hop : operationOf .selftest s = some (t.x, some ws) :=
    congrArg (fun l => some (t.x, l)) (selftestWords { s.x with op := opSelftest } s.refclk hc)
  obtain ⟨-, hwhole, hheld⟩ := exec_operation_ok hop hbusy hphase hb hn hp hs
  exact ⟨fun n => hwhole n rfl, hheld rfl⟩

end Sys2Proof.Machine
end

section
namespace Sys2Proof.Machine

/-! ## A busy block's step in its stages (spec/43_write_engine.md, spec/44_sequencer_operations.md section 8) -/

/-- A busy block goes on, unless a word is next. -/
theorem step_goesOn {s : State} (hr : s.rst = false) (hb : s.busy = true)
    (h : ∀ w rest, s.pending = .none → s.plan ≠ .word w :: rest) : step s = .next s.goesOn := by
  rcases step_busy s hr hb with ⟨he, -⟩ | ⟨w, rest, -, hp, hl, -⟩
  · exact he
  · exact (h w rest hp hl).elim

/-- Where one step of R8 ends outside a word's write, the pace goes no further. -/
theorem goesOn_of_tick {s t : State} (h : s.tick = t) (ht : t.pending.isWrite = false) : s.goesOn = t := by
  rw [State.goesOn, h, writeTicks_stop t _ ht]

theorem goesOn_fixed {s : State} (h : s.tick = s) : s.goesOn = s := by
  rw [State.goesOn, h, writeTicks_fixed s _ h]

theorem goesOn_of_pace_zero {s : State} (h : s.pace = 0) : s.goesOn = s.tick := by rw [State.goesOn, h]; rfl

/-- The return of `Shift`, in closed form (R170). -/
theorem tick_answered {s : State} {k : WordKind} {w : Word} {r : ShiftAnswer} {ss : List ShiftAnswer}
    (hb : s.busy = true) (hp : s.pending = .shift k w) (hs : s.shifts = r :: ss) :
    s.tick = { s with shifts := ss }.answered k w r := by
  simp only [tick_busy s hb, State.proceed, hp, State.shiftReturns, hs]

theorem tick_frameEnd {s : State} {k : WordKind} {r : ShiftAnswer} (hb : s.busy = true) (hp : s.pending = .frameEnd k r) :
    s.tick = s.frameEnds k r := by
  simp only [tick_busy s hb, State.proceed, hp]

theorem tick_raise {s : State} {st : Status} {g : BitVec 3} {c : ErrCode} (hb : s.busy = true)
    (hp : s.pending = .raise st g c) : s.tick = s.endedWith [] st g c := by
  rw [← complete_eq_endedWith]
  simp only [tick_busy s hb, State.proceed, hp]

/-- While the delay has not completed the line stays high (R40, R176). -/
theorem tick_hold {s : State} (hp : s.pending = .hold) (hd : s.delays = 0) : s.tick = s := by
  simp only [State.tick, State.proceed, hp, State.holdReturns, hd, ite_self]

/-- The end of the hold, in closed form (R176). -/
theorem tick_held {s : State} {n : Nat} (hb : s.busy = true) (hp : s.pending = .hold) (hd : s.delays = n + 1) :
    s.tick = { { s with delays := n }.emit (.delay Config.trigHoldUs) with pending := .pulseEnd } := by
  simp only [tick_busy s hb, State.proceed, hp, State.holdReturns, hd]

theorem tick_pulseEnd {s : State} (hb : s.busy = true) (hp : s.pending = .pulseEnd) : s.tick = s.pulseEnds := by
  simp only [tick_busy s hb, State.proceed, hp]

/-- The end of a frame answered `Ok` ends the word's write. -/
theorem writeTicks_frameEnd_ok {s : State} {k : WordKind} {n : Nat} (hn : 1 ≤ n) (hb : s.busy = true)
    (hp : s.pending = .frameEnd k .ok) : s.writeTicks n = s.frameEnds k .ok := by
  obtain ⟨m, rfl⟩ := Nat.exists_eq_add_of_le' hn
  rw [writeTicks_succ s m (by rw [hp]; rfl), tick_frameEnd hb hp, writeTicks_stop _ _ rfl]

/-- The end of a frame answered `Error`, and the report after it. -/
theorem writeTicks_frameEnd_error {s : State} {k : WordKind} {c : ErrCode} {n : Nat} (hn : 2 ≤ n) (hb : s.busy = true)
    (hp : s.pending = .frameEnd k (.error c)) :
    s.writeTicks n = (s.frameEnds k (.error c)).endedWith [] .transportError (stepOf k) c := by
  obtain ⟨m, rfl⟩ := Nat.exists_eq_add_of_le' hn
  rw [writeTicks_succ s (m + 1) (by rw [hp]; rfl), tick_frameEnd hb hp, writeTicks_succ _ m rfl,
    tick_raise (s := s.frameEnds k (.error c)) hb rfl, writeTicks_stop _ _ rfl]

/-- Settles O47: the return of `Shift`, the end of the frame and the report are one step of R8 each. -/
theorem outstandingShiftReturns : Obligations.OutstandingShiftReturns := by
  intro s k hr hb
  refine ⟨fun w hp hk => ?_, fun hp => ?_, fun c hp hn => ?_, fun st g c hp => ?_⟩
  · have haddr := tagOf_toNat k w hk
    rw [step_goesOn hr hb (by simp [hp])]
    refine ⟨fun hs => by rw [goesOn_fixed (tick_unanswered s k w hp hs)], ?ok, ?error⟩
    case ok =>
      intro ss hs t
      refine ⟨fun hn => ?_, fun hn => ?_⟩
      · rw [goesOn_of_pace_zero hn, tick_answered hb hp hs]
        simp [t, State.answered, State.emit, viewAfter, ShiftAnswer.answer, haddr]
      · rw [State.goesOn, tick_answered hb hp hs,
          writeTicks_frameEnd_ok (s := State.answered { s with shifts := ss } k w .ok) hn hb rfl]
        simp [t, State.answered, State.frameEnds, State.setPin, State.emit, viewAfter, ShiftAnswer.answer, haddr]
    case error =>
      intro ss c hs t
      refine ⟨fun hn => ?_, fun hn => ?_⟩
      · rw [goesOn_of_pace_zero hn, tick_answered hb hp hs]
        simp [t, State.answered, State.emit, viewAfter, ShiftAnswer.answer, haddr]
      · rw [State.goesOn, tick_answered hb hp hs,
          writeTicks_frameEnd_error (s := State.answered { s with shifts := ss } k w (.error c)) hn hb rfl]
        simp [t, State.answered, State.frameEnds, State.setPin, State.emit, State.endedWith, viewAfter,
          ShiftAnswer.answer, phaseAfterError, haddr]
  · rw [step_goesOn hr hb (by simp [hp]), goesOn_of_tick (tick_frameEnd hb hp) rfl]
    rfl
  · rw [step_goesOn hr hb (by simp [hp]), goesOn_of_pace_zero hn, tick_frameEnd hb hp]
    rfl
  · rw [step_goesOn hr hb (by simp [hp]), goesOn_of_tick (tick_raise hb hp) rfl]

/-- Settles O48: the pulse is three steps of R8, and none of them is part of a word's write. -/
theorem triggerPulseStepByStep : Obligations.TriggerPulseStepByStep := by
  intro s hr hb
  refine ⟨fun rest hp hl => ?_, fun hp hd => ?_, fun n hp hd => ?_, fun hp => ?_, fun hp hl => ?_⟩
  · have htick : s.tick = { s with plan := rest }.pulseBegins := by rw [tick_busy s hb, proceed_begin s _ rest hp hl]; rfl
    rw [step_goesOn hr hb (by simp [hl]), goesOn_of_tick htick rfl]
    rfl
  · rw [step_goesOn hr hb (by simp [hp]), goesOn_fixed (tick_hold hp hd)]
  · rw [step_goesOn hr hb (by simp [hp]), goesOn_of_tick (tick_held hb hp hd) rfl]
    rfl
  · rw [step_goesOn hr hb (by simp [hp]), goesOn_of_tick (tick_pulseEnd hb hp) rfl]
    rfl
  · have htick : s.tick = s.endedWith [] .ok 0 0 := by
      rw [tick_busy s hb, proceed_done s hp hl, complete_eq_endedWith]
    rw [step_goesOn hr hb (by simp [hl]), goesOn_of_tick htick rfl]

/-! ## Steps of R8 one by one (spec/00_scope.md section 4) -/

/-- The state at the grain of R8. -/
def State.slow (s : State) : State := { s with pace := 0 }

theorem beginWord_slow (s : State) (k : WordKind) (w : Word) : s.slow.beginWord k w = (s.beginWord k w).slow := by
  cases hb : s.bound with
  | false => rw [beginWord_unbound s k w hb, beginWord_unbound s.slow k w hb]; rfl
  | true =>
    match hp : s.polls with
    | [] => rw [beginWord_unpolled s k w hb hp, beginWord_unpolled s.slow k w hb hp]; rfl
    | false :: ps => rw [beginWord_busy s k w ps hb hp, beginWord_busy s.slow k w ps hb hp]; rfl
    | true :: ps => rw [beginWord_ready s k w ps hb hp, beginWord_ready s.slow k w ps hb hp]; rfl

theorem begin_slow (s : State) (a : Action) : s.slow.begin a = (s.begin a).slow := by
  cases a with
  | pin l b => cases l <;> rfl
  | pulse => rfl
  | newContext => rfl
  | attach => rfl
  | word w =>
    cases hk : classify w with
    | none => simp [State.begin, hk, State.slow]
    | some k =>
      simp only [State.begin, hk]
      split_ifs
      · exact beginWord_slow s k w
      · rfl

/-- A step of R8 does not look at the pace. -/
theorem tick_slow (s : State) : s.slow.tick = s.tick.slow := by
  cases hb : s.busy with
  | false => rw [tick_idle s hb, tick_idle s.slow hb]
  | true =>
    cases hp : s.pending with
    | shift k w =>
      cases hs : s.shifts with
      | nil => rw [tick_unanswered s k w hp hs, tick_unanswered s.slow k w hp hs]
      | cons r rest => rw [tick_answered hb hp hs, tick_answered (s := s.slow) hb hp hs]; rfl
    | frameEnd k r => rw [tick_frameEnd hb hp, tick_frameEnd (s := s.slow) hb hp]; cases r <;> rfl
    | hold =>
      cases hd : s.delays with
      | zero => rw [tick_hold hp hd, tick_hold (s := s.slow) hp hd]
      | succ n => rw [tick_held hb hp hd, tick_held (s := s.slow) hb hp hd]; rfl
    | pulseEnd => rw [tick_pulseEnd hb hp, tick_pulseEnd (s := s.slow) hb hp]; rfl
    | raise st g c => rw [tick_raise hb hp, tick_raise (s := s.slow) hb hp]; rfl
    | none =>
      rw [tick_busy s hb, tick_busy s.slow hb]
      cases hl : s.plan with
      | nil => rw [proceed_done s hp hl, proceed_done s.slow hp hl]; rfl
      | cons a rest =>
        rw [proceed_begin s a rest hp hl, proceed_begin s.slow a rest hp hl]
        exact begin_slow { s with plan := rest } a

/-- One step, and then the run goes on. -/
theorem run_succ {s t : State} (h : step s = .next t) (n : Nat) : core.run (n + 1) s = core.run n t := by
  have hstep : core.step s = .next t := h
  simp only [Host.Core.run, hstep]

/-- A block that a word of no kind stops does not move. -/
theorem tick_unclassified {s : State} {w : Word} {rest : List Action} (hp : s.pending = .none)
    (hl : s.plan = .word w :: rest) (hk : classify w = none) : s.tick = s := by
  cases hb : s.busy with
  | false => exact tick_idle s hb
  | true =>
    rw [tick_busy s hb, proceed_begin s _ rest hp hl]
    simp [State.begin, hk, ← hl]

theorem ticks_fixed {s : State} (h : s.tick = s) (n : Nat) : s.ticks n = s := by
  induction n with
  | zero => rfl
  | succ n ih => rw [ticks_succ, h, ih]

/-- Steps of R8 are steps at pace 0, as far as the block moves. -/
theorem ticks_are_steps (s : State) (hr : s.rst = false) (n : Nat) :
    ∃ k, k ≤ n ∧ core.run k s.slow = .next (s.ticks n).slow := by
  induction n generalizing s with
  | zero => exact ⟨0, le_rfl, rfl⟩
  | succ n ih =>
    cases hb : s.busy with
    | false => exact ⟨0, Nat.zero_le _, by rw [ticks_idle s _ hb]; rfl⟩
    | true =>
      rcases step_busy s.slow hr hb with ⟨hstep, -⟩ | ⟨w, rest, -, hp, hl, hk, -⟩
      · rw [goesOn_of_pace_zero rfl, tick_slow] at hstep
        obtain ⟨k, hk, hrun⟩ := ih s.tick (by rw [tick_busy s hb]; exact (proceed_inputs s).1.trans hr)
        exact ⟨k + 1, by omega, by rw [run_succ hstep, hrun, ticks_succ]⟩
      · exact ⟨0, Nat.zero_le _, by rw [ticks_fixed (tick_unclassified (s := s) hp hl hk)]; rfl⟩

/-- A command is the same acceptance at every pace. -/
theorem exec_command_slow (i : Instr) (s : State) (hi : isCommand i = true) :
    ∃ x p, exec i s = s.command x p ∧ exec i s.slow = s.slow.command x p := by
  cases i
  case init c => exact ⟨_, _, rfl, rfl⟩
  case bind h => exact ⟨_, _, rfl, rfl⟩
  case single => exact ⟨_, _, rfl, rfl⟩
  case sweep => exact ⟨_, _, rfl, rfl⟩
  case selftest => exact ⟨_, _, rfl, rfl⟩
  case trignow => exact ⟨_, _, rfl, rfl⟩
  all_goals cases hi

/-- A block that takes a command accepts it, in one step at pace 0, and goes on as far as the pace lets it. -/
theorem step_accepts {s t : State} (hr : s.rst = false) (hb : s.busy = false) (h : step s = .next t) :
    t = s ∨ ∃ u : State, step s.slow = .next u.slow ∧ u.rst = false ∧ t = u.ticks s.pace := by
  cases hc : s.commands with
  | nil =>
    rw [(stepWithoutAnInstruction s hr).1 hb hc] at h
    cases h
    exact .inl rfl
  | cons f rest =>
    right
    rw [step, fetch_command hr hb hc] at h
    rw [step, fetch_command (s := s.slow) hr hb hc]
    rcases decodeCommand_cases f with ⟨i, hd, hi⟩ | hd
    · rw [decode, hd] at h ⊢
      obtain ⟨x, p, he, hslow⟩ := exec_command_slow i { s with commands := rest } hi
      obtain ⟨-, rfl⟩ := command_next (he.symm.trans h)
      refine ⟨State.accept { s with commands := rest } x p, ?_, hr, rfl⟩
      exact hslow.trans (command_accepted (s := State.slow { s with commands := rest }) x p hb rfl)
    · rw [decode, hd] at h ⊢
      cases h
      exact ⟨State.accept { s with commands := rest } { s.x with op := f.op } none, rfl, hr, rfl⟩

/-- Settles O46: an acceptance is one step at pace 0, and every step of R8 is one. -/
theorem aStepIsARunOfSingleSteps : Obligations.AStepIsARunOfSingleSteps := by
  intro s t hr h
  rcases Bool.eq_false_or_eq_true s.busy with hb | hb
  · rcases step_busy s hr hb with ⟨he, -⟩ | ⟨_, _, _, -, -, -, he⟩
    · obtain rfl : s.goesOn = t := Host.Outcome.next.inj (he.symm.trans h)
      obtain ⟨j, hj, hticks⟩ := writeTicks_eq_ticks s.tick s.pace
      obtain ⟨k, hk, hrun⟩ := ticks_are_steps s hr (j + 1)
      refine ⟨k, by omega, ?_⟩
      rw [State.goesOn, hticks]
      exact hrun
    · rw [he] at h
      cases h
  · rcases step_accepts hr hb h with rfl | ⟨u, hstep, hru, rfl⟩
    · exact ⟨0, Nat.zero_le _, rfl⟩
    · obtain ⟨k, hk, hrun⟩ := ticks_are_steps u hru s.pace
      exact ⟨k + 1, by omega, (run_succ hstep k).trans hrun⟩

end Sys2Proof.Machine
end

section
namespace Sys2Proof.Machine

/-! ## Without a binding nothing is sent (spec/43_write_engine.md section 1, decision D17) -/

/-- From `s` on no word was sent: none is on the wire, and while the operation is in progress no transport is bound. -/
def SilentSince (s u : State) : Prop :=
  (∃ es, u.history = s.history ++ es ∧ ∀ e ∈ es, e.isXfer = false) ∧
  (∀ k w, u.pending ≠ .shift k w) ∧ (u.busy = true → u.bound = false)

theorem SilentSince.same {s u v : State} (h : SilentSince s u) (hh : v.history = u.history)
    (hp : ∀ k w, v.pending ≠ .shift k w) (hb : v.busy = true → v.bound = false) : SilentSince s v := by
  obtain ⟨⟨es, hes, hsilent⟩, -, -⟩ := h
  exact ⟨⟨es, hh.trans hes, hsilent⟩, hp, hb⟩

theorem SilentSince.event {s u v : State} (h : SilentSince s u) (e : Event) (he : e.isXfer = false)
    (hh : v.history = u.history ++ [e]) (hp : ∀ k w, v.pending ≠ .shift k w) (hb : v.busy = true → v.bound = false) :
    SilentSince s v := by
  obtain ⟨⟨es, hes, hsilent⟩, -, -⟩ := h
  refine ⟨⟨es ++ [e], by rw [hh, hes, List.append_assoc], fun d hd => ?_⟩, hp, hb⟩
  rcases List.mem_append.1 hd with hd | hd
  · exact hsilent d hd
  · rw [List.mem_singleton.1 hd]
    exact he

/-- One step of R8 of a block without a binding sends nothing. -/
theorem proceed_silent {s u : State} (h : SilentSince s u) (hbusy : u.busy = true) : SilentSince s u.proceed := by
  have hb := h.2.2 hbusy
  have hs := h.2.1
  refine proceed_induct (P := SilentSince s) u
    ?wait ?answer ?frameOk ?frameError ?hold ?pulseEnd ?raise ?done ?pin ?unbuilt ?unbound ?unpolled ?busy ?ready ?pulse
    ?newContext ?attach
  case wait => exact h
  case answer => exact fun k w _ _ hp _ => (hs k w hp).elim
  case frameOk => exact fun k _ => h.event (.pin .fs true) rfl rfl nofun fun _ => hb
  case frameError => exact fun k c _ => h.event (.pin .fs true) rfl rfl nofun fun _ => hb
  case hold => exact fun n _ _ => h.event (.delay 100) rfl rfl nofun fun _ => hb
  case pulseEnd => exact fun _ => h.event (.pin .trig false) rfl rfl nofun fun _ => hb
  case raise => exact fun st g c _ => h.event (.result u.curOp st g c) rfl rfl nofun nofun
  case done => exact fun _ _ => h.event (.result u.curOp .ok 0 0) rfl rfl nofun nofun
  case pin =>
    exact fun l b rest hp _ => h.event (.pin l b) rfl (setPin_history ..) (by simp [hp]) (by simp [hb])
  case unbuilt => exact fun _ _ _ _ _ _ _ => h.event (.result u.curOp .paramError 0 0) rfl rfl nofun nofun
  case unbound => exact fun _ _ k _ _ _ _ => h.event (.result u.curOp .transportBusy (stepOf k) 0) rfl rfl nofun nofun
  case unpolled => exact fun _ _ _ _ _ _ hbound _ => absurd hbound (by simp [hb])
  case busy => exact fun _ _ _ _ _ _ _ hbound _ => absurd hbound (by simp [hb])
  case ready => exact fun _ _ _ _ _ _ _ hbound _ => absurd hbound (by simp [hb])
  case pulse => exact fun _ _ _ => h.event (.pin .trig true) rfl rfl nofun fun _ => hb
  case newContext => exact fun _ _ _ => h.event (.result u.curOp .ok 0 0) rfl rfl nofun nofun
  case attach => exact fun _ _ _ => h.event (.result u.curOp .ok 0 0) rfl rfl nofun nofun

theorem tick_silent {s u : State} (h : SilentSince s u) : SilentSince s u.tick := by
  cases hb : u.busy with
  | false => rwa [tick_idle u hb]
  | true => rw [tick_busy u hb]; exact proceed_silent h hb

/-- With no transport bound a word ends the operation in one step. -/
theorem ticks_word_unbound {s : State} {w : Word} {rest : List Action} {k : WordKind} {n : Nat} (hn : 1 ≤ n)
    (hbusy : s.busy = true) (hpend : s.pending = .none) (hl : s.plan = .word w :: rest) (hk : classify w = some k)
    (hbt : built k w = true) (hb : s.bound = false) :
    s.ticks n = { s with last := w }.endedWith [] .transportBusy (stepOf k) 0 := by
  obtain ⟨m, rfl⟩ := Nat.exists_eq_add_of_le' hn
  rw [ticks_succ, tick_word s w rest k hbusy hpend hl hk hbt, beginWord_unbound { s with plan := rest } k w hb,
    complete_eq_endedWith, ticks_idle _ _ rfl]
  rfl

/-- Settles O39: the first word of an operation ends it at once, and no step of R8 of an unbound block sends a word. -/
theorem unboundOperationsEndBusy : Obligations.UnboundOperationsEndBusy := by
  refine ⟨fun i s x w ws hop hbusy hphase hb hn => ?_, fun s t hr hb hp h => ?_⟩
  · obtain ⟨kd, hkd, hbt, hstep, -⟩ := operation_word_at (k := 0) hop (by simp)
    rw [exec_operation_accepted hop hphase, command_idle s _ _ hbusy,
      ticks_word_unbound (s := s.accept x (some ((w :: ws).map Action.word ++ triggerProgram x.trig))) hn rfl rfl rfl hkd
        hbt hb, hstep]
    rfl
  · have hself (u : State) (hh : u.history = s.history) (hub : u.bound = s.bound) (hup : ∀ k w, u.pending ≠ .shift k w) :
        SilentSince s u := ⟨⟨[], by rw [hh, List.append_nil], by simp⟩, hup, fun _ => hub.trans hb⟩
    rcases step_cases s t h with ⟨hrst, -⟩ | ⟨-, -, -, rfl⟩ | ⟨f, rest, x, p, -, -, -, -, rfl⟩ | ⟨-, -, rfl⟩
    · rw [hr] at hrst; cases hrst
    · exact (hself _ rfl rfl hp).1
    · refine (ticks_keep (P := SilentSince s) (fun _ => tick_silent) _ _
        (hself (State.accept { s with commands := rest } x p) rfl rfl ?_)).1
      cases p <;> exact nofun
    · exact (writeTicks_keep (P := SilentSince s) (fun _ hu _ => tick_silent hu) _ _ (tick_silent (hself s rfl rfl hp))).1

end Sys2Proof.Machine
end

section
namespace Sys2Proof.Machine

/-! ## How many events a step adds (spec/10_state.md section 5) -/

/-- Whether an event is a completed delay. -/
@[simp] def Event.isDelay : Event → Bool
  | .delay _ => true
  | .xfer _ _ _ => false
  | .pin _ _ => false
  | .result _ _ _ _ => false

/-- Whether a statement is a word. -/
@[simp] def Action.isWord : Action → Bool
  | .word _ => true
  | .pulse => false
  | .pin _ _ => false
  | .newContext => false
  | .attach => false

/-- Whether a statement is the trigger pulse. -/
@[simp] def Action.isPulse : Action → Bool
  | .pulse => true
  | .word _ => false
  | .pin _ _ => false
  | .newContext => false
  | .attach => false

/-- The transfers that are still to come of what is begun. -/
@[simp] def Pending.xfers : Pending → Nat
  | .shift _ _ => 1
  | .none => 0
  | .frameEnd _ _ => 0
  | .hold => 0
  | .pulseEnd => 0
  | .raise _ _ _ => 0

/-- The delays that are still to come of what is begun. -/
@[simp] def Pending.delays : Pending → Nat
  | .hold => 1
  | .none => 0
  | .shift _ _ => 0
  | .frameEnd _ _ => 0
  | .pulseEnd => 0
  | .raise _ _ _ => 0

/-- The results still to come. -/
@[simp] def State.resultsLeft (s : State) : Nat := if s.busy then 1 else 0

/-- From `s` to `u` the events `es` happen, at most `n` of them, and no more transfers and delays than are to come of what
is begun and, if `b` is 1, of the statements left; and at most one result. -/
structure Spends (b n : Nat) (s : State) (es : List Event) (u : State) : Prop where
  history : u.history = s.history ++ es
  length : es.length ≤ n
  xfers : es.countP Event.isXfer + (u.pending.xfers + b * u.plan.countP Action.isWord) ≤
    s.pending.xfers + b * s.plan.countP Action.isWord
  delays : es.countP Event.isDelay + (u.pending.delays + b * u.plan.countP Action.isPulse) ≤
    s.pending.delays + b * s.plan.countP Action.isPulse
  results : es.countP Event.isResult + u.resultsLeft ≤ s.resultsLeft

theorem Spends.refl (b : Nat) (s : State) : Spends b 0 s [] s :=
  ⟨(List.append_nil _).symm, le_rfl, by simp, by simp, by simp⟩

theorem Spends.trans {b m n : Nat} {s u v : State} {es fs : List Event} (h : Spends b m s es u) (g : Spends b n u fs v) :
    Spends b (m + n) s (es ++ fs) v := by
  obtain ⟨hh, hl, hx, hd, hr⟩ := h
  obtain ⟨gh, gl, gx, gd, gr⟩ := g
  refine ⟨by rw [gh, hh, List.append_assoc], ?_, ?_, ?_, ?_⟩
  · rw [List.length_append]; omega
  · rw [List.countP_append]; omega
  · rw [List.countP_append]; omega
  · rw [List.countP_append]; omega

theorem Spends.mono {b m n : Nat} {s u : State} {es : List Event} (h : Spends b m s es u) (hmn : m ≤ n) :
    Spends b n s es u := ⟨h.history, h.length.trans hmn, h.xfers, h.delays, h.results⟩

@[simp] theorem isXfer_pin (l : Pin) (b : Bool) : (Event.pin l b).isXfer = false := rfl
@[simp] theorem isXfer_delay (n : Nat) : (Event.delay n).isXfer = false := rfl
@[simp] theorem isXfer_result (op : Opcode) (st : Status) (g : BitVec 3) (c : ErrCode) :
    (Event.result op st g c).isXfer = false := rfl
@[simp] theorem isXfer_xfer (h : Handle) (w : Word) (a : Answer) : (Event.xfer h w a).isXfer = true := rfl
@[simp] theorem isResult_pin (l : Pin) (b : Bool) : (Event.pin l b).isResult = false := rfl
@[simp] theorem isResult_delay (n : Nat) : (Event.delay n).isResult = false := rfl
@[simp] theorem isResult_xfer (h : Handle) (w : Word) (a : Answer) : (Event.xfer h w a).isResult = false := rfl
@[simp] theorem isResult_result (op : Opcode) (st : Status) (g : BitVec 3) (c : ErrCode) :
    (Event.result op st g c).isResult = true := rfl

/-- A completion spends the result and drops what was left. -/
theorem spends_complete {b : Nat} {s u : State} (hb : s.busy = true) (hh : u.history = s.history) (st : Status)
    (g : BitVec 3) (c : ErrCode) : Spends b 1 s [.result u.curOp st g c] (u.complete st g c) := by
  constructor <;> simp [hb, hh]

/-- One step of R8 spends what is to come: in a word's write of what is begun, else of the next statement. -/
theorem proceed_spends (b : Nat) (s : State) (hb : s.busy = true) (h : b = 1 ∨ s.pending.isWrite = true) :
    ∃ es, Spends b 1 s es s.proceed := by
  have hone (hp : s.pending = .none) : b = 1 := h.resolve_right (by simp [hp, Pending.isWrite])
  refine proceed_induct (P := fun u => ∃ es, Spends b 1 s es u) s
    ?wait ?answer ?frameOk ?frameError ?hold ?pulseEnd ?raise ?done ?pin ?unbuilt ?unbound ?unpolled ?busy ?ready ?pulse
    ?newContext ?attach
  case wait => exact ⟨[], (Spends.refl b s).mono (Nat.zero_le 1)⟩
  case answer =>
    intro k w r rest hp _
    refine ⟨[.xfer s.handle w r.answer], ?_⟩
    cases r <;> constructor <;> simp [hp]
  case frameOk => exact fun k hp => ⟨[.pin .fs true], by constructor <;> simp [hp, hb]⟩
  case frameError => exact fun k c hp => ⟨[.pin .fs true], by constructor <;> simp [hp, hb]⟩
  case hold => exact fun n hp _ => ⟨[.delay 100], by constructor <;> simp [hp, Config.trigHoldUs]⟩
  case pulseEnd => exact fun hp => ⟨[.pin .trig false], by constructor <;> simp [hp, hb]⟩
  case raise => exact fun st g c _ => ⟨_, spends_complete hb rfl st g c⟩
  case done => exact fun _ _ => ⟨_, spends_complete hb (by rfl) ..⟩
  case unbuilt => exact fun _ _ _ _ _ _ _ => ⟨_, spends_complete hb (by rfl) ..⟩
  case unbound => exact fun _ _ _ _ _ _ _ => ⟨_, spends_complete hb (by rfl) ..⟩
  case newContext => exact fun _ _ _ => ⟨_, spends_complete hb (by rfl) ..⟩
  case attach => exact fun _ _ _ => ⟨_, spends_complete hb (by rfl) ..⟩
  case pin =>
    exact fun l v rest hp hl => ⟨[.pin l v], by constructor <;> simp [hp, hl, hone hp]⟩
  case unpolled => exact fun w rest k hp hl _ _ _ => ⟨[], by constructor <;> simp⟩
  case busy =>
    exact fun w rest k ps hp hl _ _ _ =>
      ⟨[.xfer s.handle w .busy], by constructor <;> simp [hp, hl, hone hp, List.countP_cons]⟩
  case ready =>
    exact fun w rest k ps hp hl _ _ _ =>
      ⟨[.pin .fs false], by constructor <;> simp [hp, hl, hone hp, List.countP_cons, Nat.add_comm]⟩
  case pulse =>
    exact fun rest hp hl => ⟨[.pin .trig true], by constructor <;> simp [hp, hl, hone hp, List.countP_cons, Nat.add_comm]⟩

/-- Any number of steps of R8. -/
theorem ticks_spends (s : State) (n : Nat) : ∃ es, Spends 1 n s es (s.ticks n) := by
  induction n generalizing s with
  | zero => exact ⟨[], Spends.refl 1 s⟩
  | succ n ih =>
    cases hb : s.busy with
    | false => exact ⟨[], by rw [ticks_idle s _ hb]; exact (Spends.refl 1 s).mono (Nat.zero_le _)⟩
    | true =>
      obtain ⟨es, hes⟩ := proceed_spends 1 s hb (.inl rfl)
      obtain ⟨fs, hfs⟩ := ih s.tick
      rw [← tick_busy s hb] at hes
      exact ⟨es ++ fs, (hes.trans hfs).mono (Nat.add_comm 1 n).le⟩

/-- The steps of a word's write, whatever statements are left. -/
theorem writeTicks_spends (s : State) (n : Nat) : ∃ es, Spends 0 n s es (s.writeTicks n) := by
  induction n generalizing s with
  | zero => exact ⟨[], Spends.refl 0 s⟩
  | succ n ih =>
    cases hw : s.pending.isWrite with
    | false => exact ⟨[], by rw [writeTicks_stop s _ hw]; exact (Spends.refl 0 s).mono (Nat.zero_le _)⟩
    | true =>
      rw [writeTicks_succ s n hw]
      obtain ⟨fs, hfs⟩ := ih s.tick
      cases hb : s.busy with
      | false => rw [tick_idle s hb] at hfs ⊢; exact ⟨fs, hfs.mono (Nat.le_succ n)⟩
      | true =>
        obtain ⟨es, hes⟩ := proceed_spends 0 s hb (.inr hw)
        rw [← tick_busy s hb] at hes
        exact ⟨es ++ fs, (hes.trans hfs).mono (Nat.add_comm 1 n).le⟩

theorem Pending.xfers_le (p : Pending) : p.xfers ≤ 1 := by cases p <;> simp

theorem Pending.delays_of_isWrite {p : Pending} (h : p.isWrite = true) : p.delays = 0 := by
  cases p <;> simp_all [Pending.isWrite]

theorem resultsLeft_le (s : State) : s.resultsLeft ≤ 1 := by unfold State.resultsLeft; split_ifs <;> simp

theorem countP_program {ws : List Word} (trig : TriggerSource) (h : ws.length ≤ 7) :
    (ws.map Action.word ++ triggerProgram trig).countP Action.isWord ≤ 7 ∧
    (ws.map Action.word ++ triggerProgram trig).countP Action.isPulse ≤ 1 := by
  have hword : (ws.map Action.word).countP Action.isWord ≤ 7 := List.countP_le_length.trans (by simpa using h)
  have hpulse : (ws.map Action.word).countP Action.isPulse = 0 := by simp [List.countP_map, List.countP_eq_zero]
  rw [List.countP_append, List.countP_append, hpulse]
  cases trig <;> exact ⟨hword, by decide⟩

/-- The program of a command has at most seven words and one pulse. -/
theorem accepts_countP {s : State} {x : Latches} {p : Option (List Action)} (h : Accepts s x p) :
    (p.getD []).countP Action.isWord ≤ 7 ∧ (p.getD []).countP Action.isPulse ≤ 1 := by
  rcases h with ⟨-, rfl⟩ | ⟨-, rfl⟩ | ⟨-, -, rfl⟩ | ⟨-, -, ws, -, hws, rfl⟩ | ⟨-, -, ws, -, hws, rfl⟩ | rfl
  · decide
  · decide
  · decide
  · have hlen := congrArg List.length (singleWords_kinds x _ ws hws)
    exact countP_program x.trig (by simp at hlen; omega)
  · have hlen := congrArg List.length (sweepWords_kinds x _ ws hws)
    exact countP_program x.trig (by simp at hlen; omega)
  · simp

/-- From `s` to `t` at most `n` events happen, of them at most seven transfers, one result and one delay. -/
def FewEvents (n : Nat) (s t : State) : Prop :=
  ∃ es, t.history = s.history ++ es ∧ es.length ≤ n ∧ es.countP Event.isXfer ≤ 7 ∧ es.countP Event.isResult ≤ 1 ∧
    es.countP Event.isDelay ≤ 1

/-- A busy block that goes on adds one event, and then those of a word's write. -/
theorem goesOn_fewEvents (s : State) (hb : s.busy = true) : FewEvents (s.pace + 1) s s.goesOn := by
  obtain ⟨es, hh, hl, -, -, hr⟩ := proceed_spends 1 s hb (.inl rfl)
  rw [← tick_busy s hb] at hh hr
  have hes (p : Event → Bool) : es.countP p ≤ 1 := List.countP_le_length.trans hl
  cases hw : s.tick.pending.isWrite with
  | false =>
    rw [State.goesOn, writeTicks_stop _ _ hw]
    exact ⟨es, hh, by omega, (hes _).trans (by decide), hes _, hes _⟩
  | true =>
    obtain ⟨fs, gh, gl, gx, gd, gr⟩ := writeTicks_spends s.tick s.pace
    have hx1 := s.tick.pending.xfers_le
    have hd0 := Pending.delays_of_isWrite hw
    have hr1 := resultsLeft_le s
    have hesx := hes Event.isXfer
    have hesd := hes Event.isDelay
    refine ⟨es ++ fs, by rw [State.goesOn, gh, hh, List.append_assoc], ?_, ?_, ?_, ?_⟩
    · rw [List.length_append]; omega
    · rw [List.countP_append]; omega
    · rw [List.countP_append]; omega
    · rw [List.countP_append]; omega

/-- Settles O58: a command spends its own program, and a busy block its next statement. -/
theorem stepSendsAtMostSevenWords : Obligations.StepSendsAtMostSevenWords := by
  intro s t hr h
  have hfew : FewEvents (s.pace + 1) s t := by
    rcases step_cases s t h with ⟨hrst, -⟩ | ⟨-, -, -, rfl⟩ | ⟨f, rest, x, p, -, -, -, ha, rfl⟩ | ⟨-, hb, rfl⟩
    · rw [hr] at hrst; cases hrst
    · exact ⟨[], by simp, by simp, by simp, by simp, by simp⟩
    · obtain ⟨es, hh, hl, hx, hd, hres⟩ := ticks_spends (State.accept { s with commands := rest } x p) s.pace
      obtain ⟨hwords, hpulses⟩ := accepts_countP ha
      have hpend : (pendingOf p).xfers = 0 ∧ (pendingOf p).delays = 0 := by cases p <;> exact ⟨rfl, rfl⟩
      simp only [accept_pending, accept_plan, hpend] at hx hd
      have hr1 := resultsLeft_le (State.accept { s with commands := rest } x p)
      exact ⟨es, hh, by omega, by omega, by omega, by omega⟩
    · exact goesOn_fewEvents s hb
  exact hfew

end Sys2Proof.Machine
end

section
namespace Sys2Proof.Machine

/-! ## An operation whose collaborators answer completes (spec/44_sequencer_operations.md section 8) -/

/-- The steps of R8 that a statement takes when its collaborators answer. -/
@[simp] def Action.steps : Action → Nat
  | .word _ => 3
  | .pulse => 3
  | .pin _ _ => 1
  | .newContext => 1
  | .attach => 1

/-- The steps of R8 that are left of what is begun. -/
@[simp] def Pending.steps : Pending → Nat
  | .none => 0
  | .shift _ _ => 2
  | .frameEnd _ _ => 1
  | .hold => 2
  | .pulseEnd => 1
  | .raise _ _ _ => 0

/-- The steps of R8 up to the completion. -/
def State.stepsLeft (s : State) : Nat := if s.busy then s.pending.steps + (s.plan.map Action.steps).sum + 1 else 0

/-- The collaborators have an answer for everything the operation has still to ask, and every word left is of a kind. -/
structure Answered (s : State) : Prop where
  rst : s.rst = false
  kinds : ∀ w, .word w ∈ s.plan → ∃ k, classify w = some k
  polls : s.plan.countP Action.isWord ≤ s.polls.length
  shifts : s.pending.xfers + s.plan.countP Action.isWord ≤ s.shifts.length
  delays : s.pending.delays + s.plan.countP Action.isPulse ≤ s.delays

/-- A completed operation asks nothing more. -/
theorem answered_endedWith {s : State} (h : s.rst = false) (es : List Event) (st : Status) (g : BitVec 3) (c : ErrCode) :
    Answered (s.endedWith es st g c) :=
  ⟨h, fun _ hw => (List.not_mem_nil hw).elim, Nat.zero_le _, Nat.zero_le _, Nat.zero_le _⟩

theorem stepsLeft_endedWith (s : State) (es : List Event) (st : Status) (g : BitVec 3) (c : ErrCode) :
    (s.endedWith es st g c).stepsLeft = 0 := rfl

theorem stepsLeft_busy {s : State} (h : s.busy = true) :
    s.stepsLeft = s.pending.steps + (s.plan.map Action.steps).sum + 1 := if_pos h

/-- The first step of a word. -/
theorem beginWord_progress {s : State} {k : WordKind} {w : Word} (hb : s.busy = true) (hp : s.pending = .none)
    (h : Answered s) (hpolls : s.plan.countP Action.isWord + 1 ≤ s.polls.length)
    (hshifts : s.plan.countP Action.isWord + 1 ≤ s.shifts.length) :
    Answered (s.beginWord k w) ∧ (s.beginWord k w).stepsLeft < (s.plan.map Action.steps).sum + 4 := by
  obtain ⟨hrst, hkinds, -, -, hdelays⟩ := h
  refine beginWord_induct (P := fun u => Answered u ∧ u.stepsLeft < (s.plan.map Action.steps).sum + 4) s k w
    (fun _ => ?_) (fun _ hnil => ?_) (fun ps _ hps => ?_) fun ps _ hps => ?_
  · rw [complete_eq_endedWith]
    exact ⟨answered_endedWith (by exact hrst) .., by rw [stepsLeft_endedWith]; omega⟩
  · rw [hnil] at hpolls
    simp at hpolls
  · exact ⟨⟨hrst, by simp, by simp, by simp, by simp⟩, by simp [State.stepsLeft, hb]⟩
  · rw [hps, List.length_cons] at hpolls
    rw [hp] at hdelays
    refine ⟨⟨hrst, hkinds, ?_, ?_, ?_⟩, ?_⟩
    · simpa using hpolls
    · simpa [Nat.add_comm] using hshifts
    · simpa using hdelays
    · simp [State.stepsLeft, hb]
      omega

/-- The first step of a statement. -/
theorem begin_progress {s : State} {a : Action} (hb : s.busy = true) (hp : s.pending = .none)
    (h : Answered { s with plan := a :: s.plan }) :
    Answered (s.begin a) ∧ (s.begin a).stepsLeft < a.steps + (s.plan.map Action.steps).sum + 1 := by
  obtain ⟨hrst, hkinds, hpolls, hshifts, hdelays⟩ := h
  have hrest : ∀ w, .word w ∈ s.plan → ∃ k, classify w = some k := fun w hw => hkinds w (List.mem_cons_of_mem _ hw)
  simp only [hp, List.countP_cons, Pending.xfers, Pending.delays] at hpolls hshifts hdelays
  cases a with
  | pin l b =>
    refine ⟨⟨by simpa [State.begin] using hrst, by simpa [State.begin] using hrest, ?_, ?_, ?_⟩, ?_⟩
    · simpa [State.begin] using hpolls
    · simpa [State.begin, hp] using hshifts
    · simpa [State.begin, hp] using hdelays
    · simp [State.begin, State.stepsLeft, hb, hp]
  | pulse =>
    refine ⟨⟨hrst, hrest, ?_, ?_, ?_⟩, ?_⟩
    · simpa [State.begin] using hpolls
    · simpa [State.begin] using hshifts
    · simpa [State.begin, Nat.add_comm] using hdelays
    · simp [State.begin, State.stepsLeft, hb]
  | newContext =>
    simp only [State.begin, State.completeOk, complete_eq_endedWith]
    exact ⟨answered_endedWith (by exact hrst) .., Nat.succ_pos _⟩
  | attach =>
    simp only [State.begin, State.completeOk, complete_eq_endedWith]
    exact ⟨answered_endedWith (by exact hrst) .., Nat.succ_pos _⟩
  | word w =>
    obtain ⟨k, hk⟩ := hkinds w List.mem_cons_self
    simp only [Action.isWord, Action.isPulse, if_true, Nat.zero_add] at hpolls hshifts hdelays
    simp only [State.begin, hk]
    split_ifs
    · refine (beginWord_progress (s := s) (k := k) (w := w) hb hp ⟨hrst, hrest, by omega, ?_, ?_⟩ hpolls hshifts).imp_right
        fun hlt => by rw [Action.steps]; omega
      · simp [hp]; omega
      · simpa [hp] using hdelays
    · rw [State.raiseParam, complete_eq_endedWith]
      exact ⟨answered_endedWith (by exact hrst) .., Nat.succ_pos _⟩

/-- One step of R8 of an operation whose collaborators answer. -/
theorem tick_progress {s : State} (hb : s.busy = true) (h : Answered s) :
    Answered s.tick ∧ s.tick.stepsLeft < s.stepsLeft := by
  obtain ⟨hrst, hkinds, hpolls, hshifts, hdelays⟩ := h
  have hleft := stepsLeft_busy hb
  cases hp : s.pending with
  | shift k w =>
    cases hs : s.shifts with
    | nil => simp [hp, hs] at hshifts
    | cons r rest =>
      rw [tick_answered hb hp hs]
      cases r with
      | ok =>
        refine ⟨⟨hrst, hkinds, hpolls, ?_, ?_⟩, ?_⟩
        · simpa [State.answered, hp, hs, Nat.add_comm] using hshifts
        · simpa [State.answered, hp] using hdelays
        · simp [State.stepsLeft, State.answered, hb, hp]
      | error c => exact ⟨⟨hrst, by simp, by simp, by simp, by simp⟩, by simp [State.stepsLeft, hb, hp]⟩
  | frameEnd k r =>
    rw [tick_frameEnd hb hp]
    cases r with
    | ok =>
      refine ⟨⟨hrst, hkinds, hpolls, ?_, ?_⟩, ?_⟩
      · simpa [hp] using hshifts
      · simpa [hp] using hdelays
      · simp [State.stepsLeft, hb, hp]
    | error c => exact ⟨⟨hrst, by simp, by simp, by simp, by simp⟩, by simp [State.stepsLeft, hb, hp]⟩
  | hold =>
    cases hd : s.delays with
    | zero => simp [hp, hd] at hdelays
    | succ n =>
      rw [tick_held hb hp hd]
      refine ⟨⟨hrst, hkinds, hpolls, ?_, ?_⟩, ?_⟩
      · simpa [hp] using hshifts
      · simpa [hp, hd, Nat.add_comm] using hdelays
      · simp [State.stepsLeft, hb, hp]
  | pulseEnd =>
    rw [tick_pulseEnd hb hp]
    refine ⟨⟨hrst, hkinds, hpolls, ?_, ?_⟩, ?_⟩
    · simpa [hp] using hshifts
    · simpa [hp] using hdelays
    · simp [State.stepsLeft, hb, hp]
  | raise st g c =>
    rw [tick_raise hb hp, hleft]
    exact ⟨answered_endedWith hrst .., by rw [stepsLeft_endedWith]; exact Nat.succ_pos _⟩
  | none =>
    rw [tick_busy s hb]
    cases hl : s.plan with
    | nil =>
      rw [proceed_done s hp hl, complete_eq_endedWith, hleft]
      exact ⟨answered_endedWith hrst .., by rw [stepsLeft_endedWith]; exact Nat.succ_pos _⟩
    | cons a rest =>
      rw [proceed_begin s a rest hp hl]
      have hans : Answered { s with plan := a :: rest } := by rw [← hl]; exact ⟨hrst, hkinds, hpolls, hshifts, hdelays⟩
      rw [hleft, hp, hl, List.map_cons, List.sum_cons, Pending.steps, Nat.zero_add, ← hp]
      exact begin_progress (s := { s with plan := rest }) hb hp hans

/-- Any number of steps of R8. -/
theorem ticks_progress {s : State} (h : Answered s) (n : Nat) :
    Answered (s.ticks n) ∧ (s.ticks n).stepsLeft ≤ s.stepsLeft := by
  refine ticks_keep (P := fun u => Answered u ∧ u.stepsLeft ≤ s.stepsLeft) (fun u hu => ?_) s n ⟨h, le_rfl⟩
  cases hb : u.busy with
  | false => rwa [tick_idle u hb]
  | true => exact (tick_progress hb hu.1).imp_right fun hlt => hlt.le.trans hu.2

/-- A step of any pace of an operation whose collaborators answer. -/
theorem step_progress {s : State} (hb : s.busy = true) (h : Answered s) :
    ∃ t, step s = .next t ∧ Answered t ∧ t.stepsLeft < s.stepsLeft := by
  rcases step_busy s h.rst hb with ⟨he, -⟩ | ⟨w, rest, r, hp, hl, hk, -⟩
  · obtain ⟨htick, hless⟩ := tick_progress hb h
    obtain ⟨j, -, hj⟩ := writeTicks_eq_ticks s.tick s.pace
    obtain ⟨hans, hle⟩ := ticks_progress htick j
    exact ⟨_, he, by rw [State.goesOn, hj]; exact hans, by rw [State.goesOn, hj]; exact hle.trans_lt hless⟩
  · obtain ⟨k, hk'⟩ := h.kinds w (by simp [hl])
    rw [hk] at hk'
    cases hk'

/-- An operation whose collaborators answer is over after as many steps as are left of it. -/
theorem run_completes {m : Nat} {s : State} (h : Answered s) (hm : s.stepsLeft ≤ m) :
    ∃ n t, n ≤ m ∧ core.run n s = .next t ∧ t.busy = false := by
  induction m generalizing s with
  | zero =>
    cases hb : s.busy with
    | false => exact ⟨0, s, le_rfl, rfl, hb⟩
    | true => rw [stepsLeft_busy hb] at hm; omega
  | succ m ih =>
    cases hb : s.busy with
    | false => exact ⟨0, s, Nat.zero_le _, rfl, hb⟩
    | true =>
      obtain ⟨u, hstep, hu, hless⟩ := step_progress hb h
      obtain ⟨n, t, hn, hrun, ht⟩ := ih hu (by omega)
      exact ⟨n + 1, t, by omega, (run_succ hstep n).trans hrun, ht⟩

/-! ### What an operation in progress has left (spec/10_state.md R34, R35) -/

/-- The statements that stand for given slots: each slot below 7 is a word of three steps, slot 7 the pulse. -/
theorem plan_of_slots {p : List Action} {l : List (BitVec 3)} (h : p.map Action.slot = l.map some) :
    (∀ w, .word w ∈ p → ∃ k, classify w = some k) ∧ p.countP Action.isWord + p.countP Action.isPulse = l.length ∧
      p.countP Action.isPulse = l.count 7 ∧ (p.map Action.steps).sum = 3 * l.length := by
  induction p generalizing l with
  | nil =>
    obtain rfl : l = [] := by simpa using h.symm
    simp
  | cons a p ih =>
    cases l with
    | nil => simp at h
    | cons j l =>
      simp only [List.map_cons, List.cons.injEq] at h
      obtain ⟨hj, htail⟩ := h
      obtain ⟨hkinds, hword, hpulse, hsteps⟩ := ih htail
      cases a with
      | word w =>
        obtain ⟨k, hk, rfl⟩ := Option.map_eq_some_iff.1 hj
        have hne := slotOf_ne_seven k
        refine ⟨fun v hv => ?_, by simp [List.countP_cons]; omega,
          by rw [List.count_cons_of_ne hne, ← hpulse]; rfl, by simp [hsteps]; omega⟩
        rcases List.mem_cons.1 hv with hv | hv
        · cases hv
          exact ⟨k, hk⟩
        · exact hkinds v hv
      | pulse =>
        obtain rfl : 7 = j := Option.some.inj hj
        exact ⟨by simpa using hkinds, by simp [List.countP_cons]; omega, by simp [List.countP_cons, hpulse],
          by simp [hsteps]; omega⟩
      | pin l b => cases hj
      | newContext => cases hj
      | attach => cases hj

/-- An operation has at most seven words and one pulse. -/
theorem slots_bound (op : Opcode) (trig : TriggerSource) (i : BitVec 3) :
    (slotsLeft op i ++ pulseSlots trig).length ≤ 7 + (slotsLeft op i ++ pulseSlots trig).count 7 ∧
      (slotsLeft op i ++ pulseSlots trig).count 7 ≤ 1 := by
  cases trig <;> revert op i <;> decide

/-- The statements `p` are at most `m` words, each of a kind, and `d` pulses. -/
structure AtMost (m d : Nat) (p : List Action) : Prop where
  kinds : ∀ w, .word w ∈ p → ∃ k, classify w = some k
  words : p.countP Action.isWord ≤ m
  pulses : p.countP Action.isPulse ≤ d
  steps : (p.map Action.steps).sum ≤ 3 * (m + d)

theorem atMost_nil : AtMost 0 0 [] := ⟨by simp, by simp, by simp, by simp⟩

theorem atMost_programSlots {op : Opcode} {trig : TriggerSource} {i : BitVec 3} {p : List Action}
    (h : p.map Action.slot = programSlots op trig i) : AtMost 7 1 p := by
  rw [programSlots_eq] at h
  obtain ⟨hkinds, hwords, hpulses, hsteps⟩ := plan_of_slots h
  obtain ⟨hlen, hseven⟩ := slots_bound op trig i
  exact ⟨hkinds, by omega, by omega, by omega⟩

/-- While a word is written at most six are to come. -/
theorem atMost_after_word {op : Opcode} {trig : TriggerSource} {i : BitVec 3} {k : WordKind} {p : List Action}
    (h : some (slotOf k) :: p.map Action.slot = programSlots op trig i) : AtMost 6 1 p := by
  obtain ⟨hlen, hseven⟩ := slots_bound op trig i
  rw [programSlots_eq] at h
  obtain ⟨j, l, hl, hj, htail⟩ := List.map_eq_cons_iff.1 h.symm
  obtain rfl := Option.some.inj hj
  rw [hl, List.count_cons_of_ne (slotOf_ne_seven k), List.length_cons] at hlen
  rw [hl, List.count_cons_of_ne (slotOf_ne_seven k)] at hseven
  obtain ⟨hkinds, hwords, hpulses, hsteps⟩ := plan_of_slots htail.symm
  exact ⟨hkinds, by omega, by omega, by omega⟩

theorem atMost_initProgram {n : Nat} (h : n < 5) : AtMost 7 1 (initProgram.drop n) := by
  interval_cases n <;> exact ⟨by simp [initProgram], by decide, by decide, by decide⟩

/-- Nothing is begun: the statements left. -/
theorem atMost_of_planInv {s : State} (hp : s.pending = .none) (h : PlanInv s) : AtMost 7 1 s.plan := by
  rcases (planInv_none hp).1 h with ⟨-, -, n, hn, hl⟩ | ⟨-, -, hl⟩ | ⟨-, -, hl⟩ | ⟨-, -, hl⟩ | ⟨-, -, hl⟩
  · rw [hl]; exact atMost_initProgram hn
  · rw [hl]; exact ⟨by simp, by decide, by decide, by decide⟩
  · rw [hl]; exact ⟨by simp, by decide, by decide, by decide⟩
  · rw [hl]; exact ⟨by simp, by decide, by decide, by decide⟩
  · exact atMost_programSlots hl

/-- What an operation in progress has left: its words, its pulse, and what is begun. -/
theorem planInv_atMost {s : State} (h : PlanInv s) :
    ∃ m d, AtMost m d s.plan ∧ s.pending.xfers + m ≤ 7 ∧ s.pending.delays + d ≤ 1 ∧
      s.pending.steps + 3 * (m + d) ≤ 24 := by
  cases hp : s.pending with
  | none => exact ⟨7, 1, atMost_of_planInv hp h, by decide, by decide, by decide⟩
  | shift k w =>
    simp only [PlanInv, hp] at h
    obtain ⟨-, hk, -, hslots⟩ := h
    rw [slotOfWord, hk] at hslots
    exact ⟨6, 1, atMost_after_word hslots, by simp, by simp, by simp⟩
  | frameEnd k r =>
    cases r with
    | ok =>
      simp only [PlanInv, hp] at h
      obtain ⟨-, -, hslots⟩ := h
      exact ⟨6, 1, atMost_after_word hslots, by simp, by simp, by simp⟩
    | error c =>
      simp only [PlanInv, hp] at h
      obtain ⟨-, -, hnil⟩ := h
      rw [hnil]
      exact ⟨0, 0, atMost_nil, by simp, by simp, by simp⟩
  | hold =>
    simp only [PlanInv, hp] at h
    obtain ⟨-, -, hnil⟩ := h
    rw [hnil]
    exact ⟨0, 0, atMost_nil, by simp, by simp, by simp⟩
  | pulseEnd =>
    simp only [PlanInv, hp] at h
    obtain ⟨-, -, hnil⟩ := h
    rw [hnil]
    exact ⟨0, 0, atMost_nil, by simp, by simp, by simp⟩
  | raise st g c =>
    simp only [PlanInv, hp] at h
    rw [h]
    exact ⟨0, 0, atMost_nil, by simp, by simp, by simp⟩

/-- Settles O60: at most 25 steps of R8 are left, and every step makes them fewer. -/
theorem answeredOperationsComplete : Obligations.AnsweredOperationsComplete := by
  intro s hs hr hb hpolls hshifts hdelays
  obtain ⟨m, d, ⟨hkinds, hwords, hpulses, hsteps⟩, hm, hd, hleft⟩ := planInv_atMost (hs.2 hb).1
  exact run_completes ⟨hr, hkinds, by omega, by omega, by omega⟩ (by rw [stepsLeft_busy hb]; omega)

end Sys2Proof.Machine
end

section
namespace Sys2Proof.Machine

/-! ## The trigger pulse is the last act (spec/43_write_engine.md section 3) -/

/-- No statement left raises the trigger line. -/
def State.NeverRaises (s : State) : Prop := ∀ a ∈ s.plan, a ≠ .pulse ∧ a ≠ .pin .trig true

/-- Since the history `h₀` the trigger line was not raised, and it will not be. -/
def QuietSince (h₀ : List Event) (s : State) : Prop :=
  s.NeverRaises ∧ ∃ es, s.history = h₀ ++ es ∧ .pin .trig true ∉ es

theorem QuietSince.event {h₀ : List Event} {s t : State} (h : QuietSince h₀ s) (e : Event) (he : e ≠ .pin .trig true)
    (hh : t.history = s.history ++ [e]) (hl : t.plan ⊆ s.plan) : QuietSince h₀ t := by
  obtain ⟨hplan, es, hes, hquiet⟩ := h
  refine ⟨fun a ha => hplan a (hl ha), es ++ [e], by rw [hh, hes, List.append_assoc], fun hmem => ?_⟩
  rcases List.mem_append.1 hmem with hmem | hmem
  · exact hquiet hmem
  · exact he (List.mem_singleton.1 hmem).symm

/-- One step of R8 raises the trigger line for a statement of the program only. -/
theorem proceed_quiet {h₀ : List Event} {s : State} (h : QuietSince h₀ s) : QuietSince h₀ s.proceed := by
  refine proceed_induct (P := fun t => t.plan ⊆ s.plan → QuietSince h₀ t) s
    ?wait ?answer ?frameOk ?frameError ?hold ?pulseEnd ?raise ?done ?pin ?unbuilt ?unbound ?unpolled ?busy ?ready ?pulse
    ?newContext ?attach (proceed_plan_subset s)
  case wait => exact fun _ => h
  case answer => exact fun k w r rest _ _ => h.event (.xfer s.handle w r.answer) nofun rfl
  case frameOk => exact fun k _ => h.event (.pin .fs true) nofun rfl
  case frameError => exact fun k c _ => h.event (.pin .fs true) nofun rfl
  case hold => exact fun n _ _ => h.event (.delay 100) nofun rfl
  case pulseEnd => exact fun _ => h.event (.pin .trig false) nofun rfl
  case raise => exact fun st g c _ => h.event (.result s.curOp st g c) nofun rfl
  case done => exact fun _ _ => h.event (.result s.curOp .ok 0 0) nofun rfl
  case unbuilt => exact fun _ _ _ _ _ _ _ => h.event (.result s.curOp .paramError 0 0) nofun rfl
  case unbound => exact fun _ _ k _ _ _ _ => h.event (.result s.curOp .transportBusy (stepOf k) 0) nofun rfl
  case newContext => exact fun _ _ _ => h.event (.result s.curOp .ok 0 0) nofun rfl
  case attach => exact fun _ _ _ => h.event (.result s.curOp .ok 0 0) nofun rfl
  case unpolled => exact fun w rest k _ _ _ _ _ _ => h
  case busy => exact fun w rest k ps _ _ _ _ _ => h.event (.xfer s.handle w .busy) nofun rfl
  case ready => exact fun w rest k ps _ _ _ _ _ => h.event (.pin .fs false) nofun rfl
  case pulse => exact fun rest _ hl => (h.1 .pulse (by simp [hl])).1.elim rfl
  case pin =>
    intro l b rest _ hl
    obtain ⟨-, hne⟩ := h.1 (.pin l b) (by simp [hl])
    exact h.event (.pin l b) (fun he => hne (by cases he; rfl)) (setPin_history ..)

/-- How far a pulse has gone, and the events after its rising edge. -/
inductive PulseStage (op : Opcode) (s : State) : List Event → Prop where
  | hold (hp : s.pending = .hold) : PulseStage op s []
  | held (hp : s.pending = .pulseEnd) : PulseStage op s [.delay 100]
  | fell (hp : s.pending = .none) : PulseStage op s [.delay 100, .pin .trig false]
  | reported (hb : s.busy = false) : PulseStage op s [.delay 100, .pin .trig false, .result op .ok 0 0]

/-- The words of an operation that are written, and what is left: words, and the pulse. -/
structure Writes (ws done todo : List Word) (h : Handle) (op : Opcode) (s : State) : Prop where
  words : ws = done ++ todo
  plan : s.plan = todo.map .word ++ [.pulse]
  handle : s.handle = h
  curOp : s.curOp = op

/-- Where an operation with a pulse stands since the history `h₀`: between its words, in a frame before or after its
transfer, in its pulse; or the pulse will not come. -/
inductive PulseRun (h₀ : List Event) (ws : List Word) (h : Handle) (op : Opcode) (s : State) : Prop where
  | quiet (hq : QuietSince h₀ s)
  | between (done todo : List Word) (hw : Writes ws done todo h op s) (hp : s.pending = .none)
      (hh : s.history = h₀ ++ okFrames h done)
  | frameOpen (done todo : List Word) (k : WordKind) (w : Word) (hw : Writes ws (done ++ [w]) todo h op s)
      (hp : s.pending = .shift k w) (hh : s.history = h₀ ++ okFrames h done ++ [Event.pin .fs false])
  | framed (done todo : List Word) (k : WordKind) (w : Word) (hw : Writes ws (done ++ [w]) todo h op s)
      (hp : s.pending = .frameEnd k .ok) (hh : s.history = h₀ ++ okFrames h done ++ [Event.pin .fs false, .xfer h w .ok])
  | pulse (tail : List Event) (hs : PulseStage op s tail) (hl : s.plan = []) (hop : s.curOp = op)
      (hh : s.history = h₀ ++ okFrames h ws ++ Event.pin .trig true :: tail)

theorem okFrames_quiet (h : Handle) (ws : List Word) : Event.pin .trig true ∉ okFrames h ws := by
  simp [okFrames, frameEvents]

/-- An operation that fails will not pulse. -/
theorem PulseRun.fails {h₀ es : List Event} {ws : List Word} {h : Handle} {op : Opcode} {s : State} (hl : s.plan = [])
    (hh : s.history = h₀ ++ es) (hes : .pin .trig true ∉ es) : PulseRun h₀ ws h op s :=
  .quiet ⟨by simp [State.NeverRaises, hl], es, hh, hes⟩

/-- The first step of a word. -/
theorem beginWord_pulseRun {h₀ : List Event} {ws done todo : List Word} {h : Handle} {op : Opcode} {s : State}
    {w : Word} {k : WordKind} (hw : Writes ws (done ++ [w]) todo h op s) (hp : s.pending = .none)
    (hh : s.history = h₀ ++ okFrames h done) : PulseRun h₀ ws h op (s.beginWord k w) := by
  obtain ⟨hwords, hplan, hhandle, hcur⟩ := hw
  refine beginWord_induct (P := PulseRun h₀ ws h op) s k w (fun _ => ?_) (fun _ _ => ?_) (fun ps _ _ => ?_) fun ps _ _ => ?_
  · refine .fails rfl (es := okFrames h done ++ [.result s.curOp .transportBusy (stepOf k) 0]) (by simp [hh]) ?_
    simp [okFrames_quiet]
  · exact .between done (w :: todo) ⟨by simp [hwords], by simp [hplan], hhandle, hcur⟩ hp hh
  · exact .fails rfl (es := okFrames h done ++ [.xfer s.handle w .busy]) (by simp [hh]) (by simp [okFrames_quiet])
  · exact .frameOpen done todo k w ⟨hwords, hplan, hhandle, hcur⟩ rfl (by simp [hh])

/-- The first step of the next statement, a word or the pulse. -/
theorem tick_between {h₀ : List Event} {ws done todo : List Word} {h : Handle} {op : Opcode} {s : State}
    (hb : s.busy = true) (hw : Writes ws done todo h op s) (hp : s.pending = .none)
    (hh : s.history = h₀ ++ okFrames h done) : PulseRun h₀ ws h op s.tick := by
  obtain ⟨hwords, hplan, hhandle, hcur⟩ := hw
  cases todo with
  | nil =>
    obtain rfl : ws = done := by simpa using hwords
    rw [tick_busy s hb, proceed_begin s .pulse [] hp hplan]
    exact .pulse [] (.hold rfl) rfl hcur (by simp [State.begin, hh])
  | cons w todo =>
    cases hk : classify w with
    | none =>
      rw [tick_unclassified hp hplan hk]
      exact .between done (w :: todo) ⟨hwords, hplan, hhandle, hcur⟩ hp hh
    | some k =>
      rw [tick_busy s hb, proceed_word s w _ k hp hplan hk]
      split_ifs
      · exact beginWord_pulseRun (s := { s with plan := todo.map .word ++ [.pulse] })
          ⟨by simp [hwords], rfl, hhandle, hcur⟩ hp hh
      · refine .fails rfl (es := okFrames h done ++ [.result s.curOp .paramError 0 0]) ?_ (by simp [okFrames_quiet])
        simp [State.raiseParam, hh]

/-- One step of R8 of a pulse. -/
theorem tick_pulseStage {h₀ : List Event} {ws : List Word} {h : Handle} {op : Opcode} {s : State} {tail : List Event}
    (hb : s.busy = true) (hs : PulseStage op s tail) (hl : s.plan = []) (hop : s.curOp = op)
    (hh : s.history = h₀ ++ okFrames h ws ++ Event.pin .trig true :: tail) : PulseRun h₀ ws h op s.tick := by
  cases hs with
  | hold hp =>
    cases hd : s.delays with
    | zero => rw [tick_hold hp hd]; exact .pulse [] (.hold hp) hl hop hh
    | succ n => rw [tick_held hb hp hd]; exact .pulse _ (.held rfl) hl hop (by simp [hh, Config.trigHoldUs])
  | held hp => rw [tick_pulseEnd hb hp]; exact .pulse _ (.fell rfl) hl hop (by simp [hh])
  | fell hp =>
    rw [tick_busy s hb, proceed_done s hp hl]
    exact .pulse _ (.reported rfl) rfl hop (by simp [hh, hop])
  | reported hidle => rw [hidle] at hb; cases hb

theorem okFrames_concat (h : Handle) (ws : List Word) (w : Word) :
    okFrames h (ws ++ [w]) = okFrames h ws ++ frameEvents h w .ok := by simp [okFrames]

/-- One step of R8 of an operation with a pulse. -/
theorem tick_pulseRun {h₀ : List Event} {ws : List Word} {h : Handle} {op : Opcode} {s : State}
    (hr : PulseRun h₀ ws h op s) : PulseRun h₀ ws h op s.tick := by
  cases hb : s.busy with
  | false => rwa [tick_idle s hb]
  | true =>
    cases hr with
    | quiet hq => rw [tick_busy s hb]; exact .quiet (proceed_quiet hq)
    | between done todo hw hp hh => exact tick_between hb hw hp hh
    | pulse tail hs hl hop hh => exact tick_pulseStage hb hs hl hop hh
    | frameOpen done todo k w hw hp hh =>
      cases hs : s.shifts with
      | nil => rw [tick_unanswered s k w hp hs]; exact .frameOpen done todo k w hw hp hh
      | cons r rest =>
        rw [tick_answered hb hp hs]
        obtain ⟨hwords, hplan, hhandle, hcur⟩ := hw
        cases r with
        | ok =>
          exact .framed done todo k w ⟨hwords, hplan, hhandle, hcur⟩ rfl
            (by simp [State.answered, hh, hhandle, ShiftAnswer.answer])
        | error c =>
          exact .fails rfl (es := okFrames h done ++ [Event.pin .fs false, .xfer h w (.error c)])
            (by simp [State.answered, hh, hhandle, ShiftAnswer.answer]) (by simp [okFrames_quiet])
    | framed done todo k w hw hp hh =>
      rw [tick_frameEnd hb hp]
      obtain ⟨hwords, hplan, hhandle, hcur⟩ := hw
      exact .between (done ++ [w]) todo ⟨hwords, hplan, hhandle, hcur⟩ rfl (by simp [hh, okFrames_concat, frameEvents])

/-- The pulse of an operation comes after the frames of all its words, and its hold, its falling edge and the result after
it. -/
theorem PulseRun.events {h₀ es : List Event} {ws : List Word} {h : Handle} {op : Opcode} {s : State}
    (hr : PulseRun h₀ ws h op s) (hes : s.history = h₀ ++ es) (hmem : .pin .trig true ∈ es) :
    ∃ tail, es = okFrames h ws ++ Event.pin .trig true :: tail ∧
      tail <+: [.delay 100, .pin .trig false, .result op .ok 0 0] := by
  cases hr with
  | quiet hq =>
    obtain ⟨-, fs, hfs, hquiet⟩ := hq
    obtain rfl := List.append_cancel_left (hes.symm.trans hfs)
    exact (hquiet hmem).elim
  | between done todo hw hp hh =>
    obtain rfl := List.append_cancel_left (hes.symm.trans hh)
    exact (okFrames_quiet h done hmem).elim
  | frameOpen done todo k w hw hp hh =>
    rw [List.append_assoc] at hh
    obtain rfl := List.append_cancel_left (hes.symm.trans hh)
    simp [okFrames_quiet] at hmem
  | framed done todo k w hw hp hh =>
    rw [List.append_assoc] at hh
    obtain rfl := List.append_cancel_left (hes.symm.trans hh)
    simp [okFrames_quiet] at hmem
  | pulse tail hs hl hop hh =>
    rw [List.append_assoc] at hh
    obtain rfl := List.append_cancel_left (hes.symm.trans hh)
    refine ⟨tail, rfl, ?_⟩
    cases hs <;> simp

/-- An accepted program of words and the pulse. -/
theorem accept_pulseRun (s : State) (x : Latches) (ws : List Word) (n : Nat) :
    PulseRun s.history ws s.handle x.op ((s.accept x (some (ws.map .word ++ [.pulse]))).ticks n) :=
  ticks_keep (P := PulseRun s.history ws s.handle x.op) (fun _ => tick_pulseRun) _ n
    (.between [] ws ⟨rfl, rfl, rfl, rfl⟩ rfl (by simp [okFrames]))

/-- A program that does not raise the trigger line. -/
theorem accept_quiet {s : State} {x : Latches} {p : Option (List Action)} (n : Nat)
    (h : ∀ a ∈ p.getD [], a ≠ .pulse ∧ a ≠ .pin .trig true) : QuietSince s.history ((s.accept x p).ticks n) := by
  refine ticks_keep (fun u hu => ?_) _ n ⟨h, [], (List.append_nil _).symm, by simp⟩
  cases hb : u.busy with
  | false => rwa [tick_idle u hb]
  | true => rw [tick_busy u hb]; exact proceed_quiet hu

/-- Settles O43: a command whose program has no pulse never raises the line, and the others pulse after their words. -/
theorem pulseIsTheLastAct : Obligations.PulseIsTheLastAct := by
  intro i s t es hi h hes hmem
  have hquiet {x : Latches} {p : Option (List Action)} (he : exec i s = s.command x p) :
      ¬ ∀ a ∈ p.getD [], a ≠ .pulse ∧ a ≠ .pin .trig true := by
    intro hp
    obtain ⟨-, rfl⟩ := command_next (he.symm.trans h)
    obtain ⟨-, fs, hfs, hnot⟩ := accept_quiet (s := s) (x := x) s.pace hp
    obtain rfl := List.append_cancel_left (hes.symm.trans hfs)
    exact hnot hmem
  have hpulse {x : Latches} {ws : List Word} (he : exec i s = s.command x (some (ws.map .word ++ [.pulse]))) :
      ∃ tail, es = okFrames s.handle ws ++ Event.pin .trig true :: tail ∧
        tail <+: [.delay 100, .pin .trig false, .result x.op .ok 0 0] := by
    obtain ⟨-, rfl⟩ := command_next (he.symm.trans h)
    exact (accept_pulseRun s x ws s.pace).events hes hmem
  rcases command_cases s hi with ⟨c, rfl⟩ | ⟨b, rfl⟩ | rfl | ⟨x, ws, hop⟩
  · exact (hquiet (x := { s.x with op := opInit, refclk := c }) (p := some initProgram) rfl (by simp [initProgram])).elim
  · exact (hquiet (x := { s.x with op := opBind, handle := b }) (p := some [.attach]) rfl (by simp)).elim
  · by_cases hp : s.phase = .uninitialized
    · exact (hquiet (p := none) (by rw [exec, execTrignow, if_pos hp]) (by simp)).elim
    · exact .inl ⟨rfl, hp, hpulse (ws := []) (exec_trignow s hp)⟩
  · right
    rcases exec_operation_cases hop with he | ⟨l, rfl, he⟩
    · exact (hquiet he (by simp)).elim
    · cases ht : x.trig with
      | external => exact (hquiet he (by simp [ht, triggerProgram])).elim
      | automatic =>
        rw [ht] at he
        obtain ⟨tail, htail⟩ := hpulse he
        exact ⟨x, l, tail, hop, ht, htail⟩

end Sys2Proof.Machine
end
